-- ==== Sys2Proof/Word.lean ====
section
/-! DEFINITION. The widths the spec names, and nothing else: bytes of `TXBUF`, of the payload and of the
encoded words (R6, R60, R62), the 16-bit operand of a command and of `FREQMAP` (R61, R100), and the
"field codes" of R4, which have no width in the spec and are natural numbers here. -/

namespace Sys2Proof

/-- A byte, 8 bits (R6). -/
abbrev Byte := BitVec 8

/-- A 16-bit operand: the payload length `L` (R61) or a frequency in MHz (R100). -/
abbrev Half := BitVec 16

/-- A field code of the radio's registers: a symbolic value, width not in the spec (R4, R19). -/
abbrev Code := Nat

end Sys2Proof
end

