-- ==== Sys2Proof/Config.lean ====
section
/-! DEFINITION. The names the spec gives to commands, events, tasks, registers and radio states; the parameters of
R4 as one record of plain data, with the constraints of R5 (`Params.wf`); this hardware's own
parameters (`Config.params`), whose open values are constants without a body; and the free values. -/

namespace Sys2Proof

/-- The five host commands, as `CMD` latches them (R12). -/
inductive Cmd where
  | disable | cfgStd | cfgLr | txp | txs
  deriving DecidableEq, Repr, Inhabited

/-- The commands that carry `L` and a payload (R61). -/
def Cmd.isTx : Cmd → Bool
  | .txp | .txs => true
  | .disable | .cfgStd | .cfgLr => false

/-- The configure commands (R102). -/
def Cmd.isCfg : Cmd → Bool
  | .cfgStd | .cfgLr => true
  | .disable | .txp | .txs => false

/-- The three event latches on the sequencer's port (R33). -/
inductive PortEvent where
  | txready | phyend | disabled
  deriving DecidableEq, Repr

/-- The four tasks on the sequencer's port (R34). -/
inductive PortTask where
  | txen | start | disable | rxen
  deriving DecidableEq, Repr

/-- Every event a shortcut can have as its source: the three latched ones and the three the radio keeps to itself
(R35(b), R127). -/
inductive RadioEvent where
  | rxReady | ccaIdle | ccaBusy
  | port (e : PortEvent)
  deriving DecidableEq, Repr

/-- Every task a shortcut can trigger: the four of the port and the radio-internal CCA start (R35(b), R127). -/
inductive RadioTask where
  | ccaStart
  | port (t : PortTask)
  deriving DecidableEq, Repr

/-- `RSTATE` (R161). The radio "may have further states": `other`, named by the `STATE` code it shows (log entry 19). -/
inductive RState where
  | disabled | txRampUp | txIdle | tx | txDisable | rxRampUp | rxIdle | cca | rxDisable
  | other (code : Code)
  deriving DecidableEq, Repr, Inhabited

/-- The registers behind the port, by the labels of R19. -/
inductive Reg where
  | power | mode | modcfg | pktlay0 | pktlay1 | crccfg | crcpoly | crcseed | ccacfg | freq
  | addrbase | addrprefix | txpower | shorts | pktptr | state
  deriving DecidableEq, Repr

/-- Selector numbers of the registers (R63). -/
def Reg.sel : Reg → Nat
  | .power => 0 | .mode => 1 | .modcfg => 2 | .pktlay0 => 3 | .pktlay1 => 4 | .crccfg => 5
  | .crcpoly => 6 | .crcseed => 7 | .ccacfg => 8 | .freq => 9 | .addrbase => 10
  | .addrprefix => 11 | .txpower => 12 | .shorts => 13 | .pktptr => 14 | .state => 15

/-- The fields the spec names in `PKTLAY0` (R23); the type of the register and of `PKTLAY0_LR`. -/
structure Pktlay0 where
  lflen : Code
  crcinc : Code
  sfields : Code
  plen : Code
  termlen : Code
  deriving DecidableEq, Repr, Inhabited

/-- `PKTLAY0_STD` names two of those fields only (R23). -/
structure Pktlay0Std where
  lflen : Code
  crcinc : Code
  deriving DecidableEq, Repr, Inhabited

/-- The fields of `PKTLAY1` and of `PKTLAY1_LR` (R24). -/
structure Pktlay1 where
  maxlen : Code
  statlen : Code
  balen : Code
  whiteen : Code
  endian : Code
  deriving DecidableEq, Repr, Inhabited

/-- The field codes of R4's parameter table. -/
structure Codes where
  powerOff : Code
  powerOn : Code
  modeStd : Code
  modeLr : Code
  pktlay0Std : Pktlay0Std
  pktlay0Lr : Pktlay0
  pktlay1Lr : Pktlay1
  crcLenStd : Code
  crcDisabled : Code
  crcPolyStd : Code
  crcSeedStd : Code
  ccaModeEd : Code
  ccaThresholdsStd : Code
  addrBaseLr : BitVec 16
  addrPrefixLr : Byte
  txpower0dbm : Code
  txpower8dbm : Code
  deriving DecidableEq, Repr, Inhabited

/-- The four delay lengths of R4, in iterations. No rule depends on them (R5(d), R85). -/
structure Delays where
  powerOff : Nat
  powerOn : Nat
  holdCarrier : Nat
  shortsTx : Nat
  deriving DecidableEq, Repr, Inhabited

/-- The rows of `SHORT_BIT` (R4): the events a pair may have. -/
def RadioEvent.index : RadioEvent → Fin 6
  | .rxReady => 0
  | .ccaIdle => 1
  | .ccaBusy => 2
  | .port .txready => 3
  | .port .phyend => 4
  | .port .disabled => 5

/-- The columns of `SHORT_BIT` (R4): the tasks a pair may have. -/
def RadioTask.index : RadioTask → Fin 5
  | .ccaStart => 0
  | .port .txen => 1
  | .port .start => 2
  | .port .disable => 3
  | .port .rxen => 4

/-- The row of a register in `REG_ADDR` (R4): its selector (R63). -/
def Reg.index (r : Reg) : Fin 16 := ⟨r.sel, by cases r <;> decide⟩

/-- The fields that R20 to R32 name. -/
inductive RegField where
  | powerEnable | modeMode
  | lflen | crcinc | sfields | plen | termlen
  | maxlen | statlen | balen | whiteen | endian
  | crcLen | crcPoly | crcSeed | ccaMode | thresholds
  | freqValue | freqBand | addrBase | addrPrefix | txpowerLevel | pktptrPtr | stateState
  deriving DecidableEq, Repr

/-- The row of a field in `FIELD_POS` (R4), in the order of R20 to R32. -/
def RegField.index : RegField → Fin 24
  | .powerEnable => 0
  | .modeMode => 1
  | .lflen => 2
  | .crcinc => 3
  | .sfields => 4
  | .plen => 5
  | .termlen => 6
  | .maxlen => 7
  | .statlen => 8
  | .balen => 9
  | .whiteen => 10
  | .endian => 11
  | .crcLen => 12
  | .crcPoly => 13
  | .crcSeed => 14
  | .ccaMode => 15
  | .thresholds => 16
  | .freqValue => 17
  | .freqBand => 18
  | .addrBase => 19
  | .addrPrefix => 20
  | .txpowerLevel => 21
  | .pktptrPtr => 22
  | .stateState => 23

/-- `STATE_DISABLED`, `STATE_TXIDLE` and the other `STATE_*` of R4, for the states R161 names. -/
structure StateCodes where
  disabled : Code
  txRampUp : Code
  txIdle : Code
  tx : Code
  txDisable : Code
  rxRampUp : Code
  rxIdle : Code
  cca : Code
  rxDisable : Code
  deriving DecidableEq, Repr, Inhabited

/-- The parameters of R4, every row of its table "a field of its configuration record". A machine's record stands in its
state and no step changes it. The maps of R4 are tables, as plain data. -/
structure Params where
  maxPacketLen : Nat
  fStdMhz : Nat
  fLrMhz : Nat
  freqMaxMhz : Nat
  waitBound : Option Nat
  delays : Delays
  codes : Codes
  /-- `STATE_*` -/
  stateCodes : StateCodes
  /-- `SHORT_BIT(e, t)`, by `RadioEvent.index` and `RadioTask.index` -/
  shortBits : Vector (Vector Nat 5) 6
  /-- `REG_ADDR`, by selector -/
  regAddrs : Vector Nat 16
  /-- `FIELD_POS`, by `RegField.index` -/
  fieldPositions : Vector Nat 24
  txbufAddr : Nat
  deriving DecidableEq, Repr

/-- `WAIT_BOUND` is unbounded or at least 1 (R196). -/
def waitBoundOk : Option Nat → Bool
  | .none => true
  | .some n => decide (1 ≤ n)

/-- The constraints of R5 (a), (b), (c), and `n >= 1` of R196. -/
def Params.wf (p : Params) : Bool :=
  decide (2 ≤ p.maxPacketLen ∧ p.maxPacketLen ≤ 255) &&
  decide (2360 ≤ p.fLrMhz ∧ p.fLrMhz ≤ 2399) &&
  decide (2360 ≤ p.fStdMhz ∧ p.fStdMhz ≤ p.freqMaxMhz ∧ 2440 ≤ p.freqMaxMhz) &&
  waitBoundOk p.waitBound

/-- What R4 leaves open of this hardware's numbers, before R5 narrows them. -/
structure RawNumbers where
  packetLen : Nat
  fStd : Nat
  fLr : Nat
  freqMax : Nat
  txbufAddr : Nat
  deriving Inhabited

/-- R4: open; R5 is met by `Config.params`, which reads these. -/
opaque Config.raw : RawNumbers

/-- R4: the field codes, open. -/
opaque Config.codes : Codes

/-- R4: the four delay lengths, open. -/
opaque Config.delays : Delays

/-- R4: the `STATE_*` codes, open. -/
opaque Config.stateCodes : StateCodes

/-- R4: `SHORT_BIT`, open. -/
opaque Config.shortBits : Vector (Vector Nat 5) 6

/-- R4, R46: `REG_ADDR`, open. -/
opaque Config.regAddrs : Vector Nat 16

/-- R4, R46: `FIELD_POS`, open. -/
opaque Config.fieldPositions : Vector Nat 24

/-- This hardware's parameters: every value open, the constraints of R5 met, and `WAIT_BOUND = none` (R4). -/
def Config.params : Params :=
  { maxPacketLen := Config.raw.packetLen % 254 + 2
    fStdMhz := 2360 + Config.raw.fStd % (Config.raw.freqMax + 81)
    fLrMhz := 2360 + Config.raw.fLr % 40
    freqMaxMhz := 2440 + Config.raw.freqMax
    waitBound := .none
    delays := Config.delays
    codes := Config.codes
    stateCodes := Config.stateCodes
    shortBits := Config.shortBits
    regAddrs := Config.regAddrs
    fieldPositions := Config.fieldPositions
    txbufAddr := Config.raw.txbufAddr }

/-- Free value: a field code, by tick of the free-value counter and slot (U13, U14, R171). -/
opaque Config.freeCode : Nat → Nat → Code

/-- Free value: a bit. -/
opaque Config.freeBit : Nat → Nat → Bool

/-- Free value: a byte (U12, U23, R169). -/
opaque Config.freeByte : Nat → Nat → Byte

/-- Free value: the byte at an index of `TXBUF` that nothing has written since a reset: one arbitrary byte for each reset
(the first argument numbers it) and index, which stays until it is written (R36, U11). -/
opaque Config.txbufByte : Nat → Nat → Byte

/-- Free value: a 16-bit field. -/
opaque Config.freeHalf : Nat → Nat → BitVec 16

/-- Free value: a radio state (R171, U15). -/
opaque Config.freeRState : Nat → RState

/-- Free value: `CMD` after the block's reset (R210). -/
opaque Config.freeCmd : Nat → Cmd

end Sys2Proof
end

