-- ==== Sys2Proof/Syntax.lean ====
section
/-! DEFINITION. `Instr`: one constructor per row of spec/opcode_table.json: five host commands (R60), twenty-nine port
micro-operations (R62), five functions and pseudo-operations that no word encodes (R100, R120, R86, R101, R150). -/

namespace Sys2Proof

/-- A configuration profile, as an image or a command selects it (R60, R64). -/
inductive ProfileSel where
  | std | lr
  deriving DecidableEq, Repr

/-- The two images of `POWER` (R64). -/
inductive PowerImage where
  | off | on
  deriving DecidableEq, Repr

/-- The two images of `SHORTS` (R64). -/
inductive ShortsImage where
  | empty | chain
  deriving DecidableEq, Repr

/-- The instructions. A `REGWR` carries which of its register's images (R64) it writes, where R64 gives that
register more than one; the image's field values are the parameters of R4. -/
inductive Instr where
  | disable
  | cfgStd
  | cfgLr
  | txp (hold : Bool) (len : Half)
  | txs (hold : Bool) (len : Half)
  | regwrPower (img : PowerImage)
  | regwrMode (img : ProfileSel)
  | regwrPktlay0 (img : ProfileSel)
  | regwrPktlay1
  | regwrCrccfg (img : ProfileSel)
  | regwrCrcpoly
  | regwrCrcseed
  | regwrCcacfg
  | regwrFreq (img : ProfileSel)
  | regwrAddrbase
  | regwrAddrprefix
  | regwrTxpower (img : ProfileSel)
  | regwrShorts (img : ShortsImage)
  | regwrPktptr
  | regrdState
  | taskTxen
  | taskStart
  | taskDisable
  | taskRxen
  | evrdTxready
  | evrdPhyend
  | evrdDisabled
  | evclrTxready
  | evclrPhyend
  | evclrDisabled
  | delayPowerOff
  | delayPowerOn
  | delayHoldCarrier
  | delayShortsTx
  | freqmap (f : Half)
  | frame
  | waitAck (e : PortEvent)
  | powerCycle
  | dis
  deriving DecidableEq, Repr

end Sys2Proof
end

