-- ==== Sys2Proof/WellFormed.lean ====
section
/-! DEFINITION. The operand checks the spec makes on an instruction as syntax. R71 names two operand values that are
illegal although the word is legal; (a), the oversized payload, is no check here, since such a command RUNS
and is rejected (R121); (b) is the domain of `FREQMAP` (R100). -/

namespace Sys2Proof

/-- R100: `2360 <= f <= FREQ_MAX_MHZ`. -/
def Params.inFreqDomain (p : Params) (f : Nat) : Bool :=
  decide (2360 ≤ f) && decide (f ≤ p.freqMaxMhz)

/-- An instruction whose operands the spec allows. -/
def Instr.wellFormed (p : Params) : Instr → Bool
  | .freqmap f => p.inFreqDomain f.toNat
  | .disable | .cfgStd | .cfgLr | .txp _ _ | .txs _ _
  | .regwrPower _ | .regwrMode _ | .regwrPktlay0 _ | .regwrPktlay1 | .regwrCrccfg _ | .regwrCrcpoly
  | .regwrCrcseed | .regwrCcacfg | .regwrFreq _ | .regwrAddrbase | .regwrAddrprefix
  | .regwrTxpower _ | .regwrShorts _ | .regwrPktptr | .regrdState
  | .taskTxen | .taskStart | .taskDisable | .taskRxen
  | .evrdTxready | .evrdPhyend | .evrdDisabled | .evclrTxready | .evclrPhyend | .evclrDisabled
  | .delayPowerOff | .delayPowerOn | .delayHoldCarrier | .delayShortsTx
  | .frame | .waitAck _ | .powerCycle | .dis => true

end Sys2Proof
end

