-- ==== Sys2Proof/Decode.lean ====
section
/-! DEFINITION. The two encodings of 30_encoding.md: the host command word (format C, R60, R61) and the port
micro-operation word (format P, R62, R63), with what travels beside the word: the 16-bit operand `L` of
a command, the data image of a `REGWR`. Each port has its own words (0x00 is `DISABLE` on the one and
`REGWR POWER` on the other), so a wire names its port. The decoder is total and rejects by name;
the encoder after it is written from the same tables. -/

namespace Sys2Proof

/-- The two ports that carry words. -/
inductive Port where
  | command | micro
  deriving DecidableEq, Repr

/-- A word on a port with the operand beside it: `L` on the command port (R61); on the register port the number of
the image in its register's row of R64, counted from 0 (0 where there is no choice). -/
structure Wire where
  port : Port
  word : Byte
  operand : Half
  deriving DecidableEq, Repr

/-- Why a word is no instruction. -/
inductive DecodeError where
  /-- R69: a bit of `cmd[7:5]` is set -/
  | reservedBits
  /-- R69: `op` in `0b011..0b111` -/
  | reservedOp
  /-- R69: `op = 0b000` with `a = 1` or `m = 1` -/
  | disableWithArgument
  /-- R69: `op = 0b001` with `m = 1` -/
  | cfgWithMode
  /-- R70: a micro-operation word the sequencer never issues -/
  | neverIssued
  /-- R64: an image number its register has no image for -/
  | noSuchImage
  deriving DecidableEq, Repr

/-- The bits `lo + width - 1 .. lo` of a word, as a number (R6). -/
def field (w : Byte) (lo width : Nat) : Nat := w.toNat / 2 ^ lo % 2 ^ width

/-- Format C (R60): `cmd[7:5] = 0`, `m = cmd[4]`, `a = cmd[3]`, `op = cmd[2:0]`. The operand of `DISABLE` and `CFG` is
ignored (R61: they carry none). -/
def decodeCommand (cmd : Byte) (len : Half) : Except DecodeError Instr :=
  if field cmd 5 3 ≠ 0 then .error .reservedBits
  else
    match field cmd 0 3, field cmd 4 1, field cmd 3 1 with
    | 0, 0, 0 => .ok .disable
    | 0, _, _ => .error .disableWithArgument
    | 1, 0, 0 => .ok .cfgStd
    | 1, 0, _ => .ok .cfgLr
    | 1, _, _ => .error .cfgWithMode
    | 2, 0, h => .ok (.txp (h == 1) len)
    | 2, _, h => .ok (.txs (h == 1) len)
    | _, _, _ => .error .reservedOp

/-- The image of a register that has one image. -/
def onlyImage (n : Half) (i : Instr) : Except DecodeError Instr :=
  if n = 0 then .ok i else .error .noSuchImage

/-- The image of a register that has two. -/
def imageOfTwo (n : Half) (i j : Instr) : Except DecodeError Instr :=
  if n = 0 then .ok i else if n = 1 then .ok j else .error .noSuchImage

/-- `REGWR r` by selector (R63, R64). Selector 2 (`MODCFG`) and 15 up are never issued (R70). -/
def decodeRegwr (sel : Nat) (img : Half) : Except DecodeError Instr :=
  match sel with
  | 0 => imageOfTwo img (.regwrPower .off) (.regwrPower .on)
  | 1 => imageOfTwo img (.regwrMode .std) (.regwrMode .lr)
  | 3 => imageOfTwo img (.regwrPktlay0 .std) (.regwrPktlay0 .lr)
  | 4 => onlyImage img .regwrPktlay1
  | 5 => imageOfTwo img (.regwrCrccfg .std) (.regwrCrccfg .lr)
  | 6 => onlyImage img .regwrCrcpoly
  | 7 => onlyImage img .regwrCrcseed
  | 8 => onlyImage img .regwrCcacfg
  | 9 => imageOfTwo img (.regwrFreq .std) (.regwrFreq .lr)
  | 10 => onlyImage img .regwrAddrbase
  | 11 => onlyImage img .regwrAddrprefix
  | 12 => imageOfTwo img (.regwrTxpower .std) (.regwrTxpower .lr)
  | 13 => imageOfTwo img (.regwrShorts .empty) (.regwrShorts .chain)
  | 14 => onlyImage img .regwrPktptr
  | _ => .error .neverIssued

/-- Format P (R62): `kind = uop[7:5]`, `sel = uop[4:0]`. -/
def decodeMicro (uop : Byte) (img : Half) : Except DecodeError Instr :=
  match field uop 5 3, field uop 0 5 with
  | 0, sel => decodeRegwr sel img
  | 1, 15 => onlyImage img .regrdState
  | 2, 0 => onlyImage img .taskTxen
  | 2, 1 => onlyImage img .taskStart
  | 2, 2 => onlyImage img .taskDisable
  | 2, 3 => onlyImage img .taskRxen
  | 3, 0 => onlyImage img .evrdTxready
  | 3, 1 => onlyImage img .evrdPhyend
  | 3, 2 => onlyImage img .evrdDisabled
  | 4, 0 => onlyImage img .evclrTxready
  | 4, 1 => onlyImage img .evclrPhyend
  | 4, 2 => onlyImage img .evclrDisabled
  | 5, 0 => onlyImage img .delayPowerOff
  | 5, 1 => onlyImage img .delayPowerOn
  | 5, 2 => onlyImage img .delayHoldCarrier
  | 5, 3 => onlyImage img .delayShortsTx
  | _, _ => .error .neverIssued

/-- The decoder of both ports. -/
def decode (w : Wire) : Except DecodeError Instr :=
  match w.port with
  | .command => decodeCommand w.word w.operand
  | .micro => decodeMicro w.word w.operand

/-- The word `cmd[7:0]` from its fields (R60). -/
def commandWord (m a : Bool) (op : Nat) : Byte :=
  BitVec.ofNat 8 (m.toNat * 16 + a.toNat * 8 + op)

/-- The word `kind[2:0] ++ sel[4:0]` (R62). -/
def microWord (kind sel : Nat) : Byte := BitVec.ofNat 8 (kind * 32 + sel)

/-- A micro-operation with the number of its image. -/
def microWire (kind sel img : Nat) : Wire := ⟨.micro, microWord kind sel, BitVec.ofNat 16 img⟩

/-- The number of a profile's image in R64's rows. -/
def ProfileSel.imageNumber : ProfileSel → Nat
  | .std => 0
  | .lr => 1

/-- The number of an image of `POWER` in R64's row. -/
def PowerImage.imageNumber : PowerImage → Nat
  | .off => 0
  | .on => 1

/-- The number of an image of `SHORTS` in R64's row. -/
def ShortsImage.imageNumber : ShortsImage → Nat
  | .empty => 0
  | .chain => 1

/-- The encoder; `none` for the five rows that no word encodes (R86, R100, R101, R120, R150). -/
def encode : Instr → Option Wire
  | .disable => some ⟨.command, commandWord false false 0, 0⟩
  | .cfgStd => some ⟨.command, commandWord false false 1, 0⟩
  | .cfgLr => some ⟨.command, commandWord false true 1, 0⟩
  | .txp h len => some ⟨.command, commandWord false h 2, len⟩
  | .txs h len => some ⟨.command, commandWord true h 2, len⟩
  | .regwrPower img => some (microWire 0 0 img.imageNumber)
  | .regwrMode img => some (microWire 0 1 img.imageNumber)
  | .regwrPktlay0 img => some (microWire 0 3 img.imageNumber)
  | .regwrPktlay1 => some (microWire 0 4 0)
  | .regwrCrccfg img => some (microWire 0 5 img.imageNumber)
  | .regwrCrcpoly => some (microWire 0 6 0)
  | .regwrCrcseed => some (microWire 0 7 0)
  | .regwrCcacfg => some (microWire 0 8 0)
  | .regwrFreq img => some (microWire 0 9 img.imageNumber)
  | .regwrAddrbase => some (microWire 0 10 0)
  | .regwrAddrprefix => some (microWire 0 11 0)
  | .regwrTxpower img => some (microWire 0 12 img.imageNumber)
  | .regwrShorts img => some (microWire 0 13 img.imageNumber)
  | .regwrPktptr => some (microWire 0 14 0)
  | .regrdState => some (microWire 1 15 0)
  | .taskTxen => some (microWire 2 0 0)
  | .taskStart => some (microWire 2 1 0)
  | .taskDisable => some (microWire 2 2 0)
  | .taskRxen => some (microWire 2 3 0)
  | .evrdTxready => some (microWire 3 0 0)
  | .evrdPhyend => some (microWire 3 1 0)
  | .evrdDisabled => some (microWire 3 2 0)
  | .evclrTxready => some (microWire 4 0 0)
  | .evclrPhyend => some (microWire 4 1 0)
  | .evclrDisabled => some (microWire 4 2 0)
  | .delayPowerOff => some (microWire 5 0 0)
  | .delayPowerOn => some (microWire 5 1 0)
  | .delayHoldCarrier => some (microWire 5 2 0)
  | .delayShortsTx => some (microWire 5 3 0)
  | .freqmap _ | .frame | .waitAck _ | .powerCycle | .dis => none

/-- A wire with the operand that its word ignores set to zero (R61: `DISABLE` and `CFG` carry none). -/
def Wire.canonical (w : Wire) : Wire :=
  match w.port with
  | .command => if field w.word 0 3 = 2 then w else { w with operand := 0 }
  | .micro => w

/-- The command port's reading of a table word: bits 7..0 the word, bits 23..8 the operand. -/
def tableWire (port : Port) (nbits w : Nat) : Wire :=
  ⟨port, BitVec.ofNat 8 (w % 2 ^ nbits), BitVec.ofNat 16 (w % 2 ^ nbits / 256)⟩

/-- The instruction of a table word. The table does not say which port a word is on, and four words are legal on both:
the command port's reading comes first (log entry 6). -/
def decodeTableWord (nbits w : Nat) : Option Instr :=
  match decode (tableWire .command nbits w) with
  | .ok i => some i
  | .error _ =>
    match decode (tableWire .micro nbits w) with
    | .ok i => some i
    | .error _ => none

end Sys2Proof
end

