-- ==== Sys2Proof/Machine/State.lean ====
section
/-! DEFINITION. The state, as plain data: the sequencer's latches (10_state.md section 1), `TXBUF`, the host's side of the
command port, the radio behind the register port (10_state.md sections 2 to 4), the machine's parameters (R4), and the model's own
fields, each marked so. `State.reset` is the machine right after the block's reset. -/

namespace Sys2Proof.Machine

/-- `SEQ` (R10). -/
inductive Seq where
  | idle | warmingUp | armed | transmitting | chained
  deriving DecidableEq, Repr

/-- `RESULT` (R15, R180). -/
inductive Result where
  | none | ok | okUnverified | rejectedOversize | timeout | rejectedBadcmd
  deriving DecidableEq, Repr

/-- `PROFILE` (R16). -/
inductive Profile where
  | none | standard | longRange
  deriving DecidableEq, Repr

/-- What the sequencer owns beside `TXBUF` (R10 to R17). -/
structure Sequencer where
  seq : Seq
  busy : Bool
  cmd : Cmd
  hold : Bool
  len : Half
  step : Nat
  result : Result
  profile : Profile
  pollcnt : Nat
  deriving DecidableEq, Repr

/-- A command standing at the command port, not yet accepted (R60). -/
structure Offer where
  cmd : Byte
  len : Half
  deriving DecidableEq, Repr

/-- The host's side of the command port: the held offer (R60), the payload buffer it refers to, the payload buffer of
the command being carried out (R12: read from the host's buffer, not latched), and, for each buffer, whether the
host has changed it where R53 forbids it (R185, U23). -/
structure HostSide where
  offer : Option Offer
  offerData : List Byte
  offerTouched : Bool
  payload : List Byte
  payloadTouched : Bool
  deriving DecidableEq, Repr

/-- The event latches (R33). -/
structure Latches where
  txready : Bool
  phyend : Bool
  disabled : Bool
  deriving DecidableEq, Repr

/-- A shortcut: when the event fires the radio triggers the task itself (R30, R168). -/
abbrev Short := RadioEvent × RadioTask

/-- The registers of R19, by the fields the spec names (R20 to R31). `STATE` (R32) is `Radio.rstate`. -/
structure Regs where
  power : Code
  mode : Code
  modcfg : Code
  pktlay0 : Pktlay0
  pktlay1 : Pktlay1
  crclen : Code
  crcpoly : Code
  crcseed : Code
  ccamode : Code
  thresholds : Code
  freqValue : Nat
  freqBand : Bool
  addrBase : BitVec 16
  addrPrefix : Byte
  txpower : Code
  shorts : List Short
  pktptr : Nat
  deriving DecidableEq, Repr

/-- The radio (R35, 45_radio_environment.md): its state, whether it is powered, its registers and latches, the
shortcut triggers it is about to deliver to itself (R168: "as its next step"), the bytes its reader has taken in the
current packet (R35(c), R170), and whether the run has left the specified behaviour (R171). -/
structure Radio where
  rstate : RState
  powered : Bool
  regs : Regs
  ev : Latches
  pending : List RadioTask
  air : List (Nat × Byte)
  strayed : Bool
  deriving DecidableEq, Repr

/-- What the port returned last: a `STATE` value, by the state it names, or a latch (R62, R81, R83). -/
inductive ReadVal where
  | none
  | state (r : RState)
  | latch (v : Bool)
  deriving DecidableEq, Repr

/-- What the radio does at a turn of its own (R160): an internal completion, with its choices (the channel verdict,
and whether a shortcut's trigger is delivered in the same step or the next, R168); a read of buffer byte `i`; or, after
the run has left the specified behaviour, anything (R171). -/
inductive RadioAct where
  | complete (channelIdle deferred : Bool)
  | read (i : Nat)
  | stray (r : RState) (fired : Latches) (next : List RadioTask)
  deriving DecidableEq, Repr

/-- Who moves next (R3). -/
inductive Turn where
  | sequencer
  | radio (a : RadioAct)
  | hostOffers (o : Offer) (data : List Byte)
  | hostEditsOffered (data : List Byte)
  | hostEditsAccepted (data : List Byte)
  | reset
  deriving DecidableEq, Repr

/-- A list of (index, byte), indexes strictly rising; an index not listed has not been written since the reset, and no value is
known of it (R36). -/
abbrev Memory := List Host.Cell

structure State where
  /-- the parameters of R4 -/
  cfg : Params
  /-- R10 to R17 -/
  sq : Sequencer
  /-- R14, by index -/
  txbuf : Memory
  /-- which arbitrary content `TXBUF` has where nothing has been written since the reset (R36, U11: `Config.txbufByte`);
  the model's own field -/
  txSeed : Nat
  /-- R60, R61, R53 -/
  host : HostSide
  /-- R19 to R35 -/
  radio : Radio
  /-- the port's return lines (R62) -/
  portVal : ReadVal
  /-- the output lines of the combinational `FREQMAP` (R100); the model's own field -/
  freqOut : Nat × Bool
  /-- where a pseudo-operation carried out by itself has got to (R86, R101, R150); the model's own field -/
  sub : Nat
  /-- the agents' next moves, oldest first; when it is empty the sequencer moves; the model's own field -/
  turns : List Turn
  /-- the counter that free values are applied to; the model's own field -/
  tick : Nat
  deriving DecidableEq, Repr

/-- The reasons the machine can stop with a fault. -/
inductive Fault where
  /-- Raised by `FRAME` when it would write an index `TXBUF` does not have (R14, R40: `MAX_PACKET_LEN` bytes). Only
  a `FRAME` whose length check (R121) was left out can reach it; no run does. Safe. -/
  | outsideTxbuf
  deriving DecidableEq, Repr

/-- The reasons an instruction has no meaning. -/
inductive Refusal where
  /-- Raised by `exec` for an instruction that has no meaning yet. Safe. -/
  | notModelled (mnemonic : String)
  /-- Raised by `FREQMAP`, and by a `REGWR FREQ` whose profile's frequency is such, outside the domain of R100: "a model
  refuses such an `f` rather than wrap or clamp it" (U2). Safe. -/
  | frequencyOutsideDomain
  /-- Raised by a step with `BUSY = 1` whose `STEP` is no step of the latched command's micro-program (R13); no run
  reaches it. Safe. -/
  | noMicroStep
  deriving DecidableEq, Repr

/-- `SEQ = Idle`, `BUSY = 0`, `STEP = 0`, `HOLD = 0`, `LEN = 0`, `RESULT = NONE`, `PROFILE = None` (R36); `CMD` is
unspecified there: log entry 1. -/
def Sequencer.reset : Sequencer :=
  { seq := .idle, busy := false, cmd := .disable, hold := false, len := 0, step := 0,
    result := .none, profile := .none, pollcnt := 0 }

def Latches.clear : Latches := { txready := false, phyend := false, disabled := false }

/-- Unspecified in the spec (R36, R211): log entry 2. -/
def Regs.reset : Regs :=
  { power := Config.params.codes.powerOn, mode := 0, modcfg := 0,
    pktlay0 := { lflen := 0, crcinc := 0, sfields := 0, plen := 0, termlen := 0 },
    pktlay1 := { maxlen := 0, statlen := 0, balen := 0, whiteen := 0, endian := 0 },
    crclen := 0, crcpoly := 0, crcseed := 0, ccamode := 0, thresholds := 0,
    freqValue := 0, freqBand := false, addrBase := 0, addrPrefix := 0, txpower := 0,
    shorts := [], pktptr := 0 }

/-- Unspecified in the spec (R36, R211), the hidden activity of R35 included (no shortcut trigger pending, no byte of a
packet read): log entry 2. -/
def Radio.reset : Radio :=
  { rstate := .disabled, powered := true, regs := Regs.reset, ev := Latches.clear,
    pending := [], air := [], strayed := false }

/-- The machine right after the block's reset (R36, R210). -/
def State.reset : State :=
  { cfg := Config.params
    sq := Sequencer.reset
    txbuf := []
    txSeed := 0
    host := { offer := .none, offerData := [], offerTouched := false, payload := [], payloadTouched := false }
    radio := Radio.reset
    portVal := .none
    freqOut := (0, false)
    sub := 0
    turns := []
    tick := 0 }

end Sys2Proof.Machine
end

