-- ==== Sys2Proof/Machine/Ops.lean ====
section
/-! DEFINITION. The named operations over `TXBUF`, the sequencer's latches and the port: reading and writing a byte, accepting
a command (R60), and the two ways a command ends: `complete` (R7) and a rejection, the one operation that
takes the place of an exception here (R188). There is nothing to return from after one (R189). -/

namespace Sys2Proof.Machine

/-- The byte at an index; `none` where nothing has been written since reset (R36). -/
def Memory.read : Memory → Nat → Option Byte
  | [], _ => none
  | c :: m, a => if c.1 = a then some c.2 else Memory.read m a

/-- One byte written, the list kept in order. -/
def Memory.write : Memory → Nat → Byte → Memory
  | [], a, b => [(a, b)]
  | c :: m, a, b =>
    if a < c.1 then (a, b) :: c :: m
    else if a = c.1 then (a, b) :: m
    else c :: Memory.write m a b

/-- The canonical form: indexes strictly rising. -/
def Memory.wf : Memory → Bool
  | [] => true
  | c :: m =>
    (match m with
     | [] => true
     | d :: _ => decide (c.1 < d.1)) && Memory.wf m

/-- `MemWrite(TXBUF, i + k, 1, bytes[k])` for each `k` in order (R7, R120); `none` where an index is past the end of
the `size` bytes of the buffer (R14). -/
def Memory.writeBytes (size : Nat) : Nat → List Byte → Memory → Option Memory
  | _, [], m => some m
  | i, b :: bs, m => if i < size then Memory.writeBytes size (i + 1) bs (m.write i b) else none

/-- The same state with another sequencer part. -/
def State.withSq (s : State) (q : Sequencer) : State := { s with sq := q }

/-- The same state with another radio. -/
def State.withRadio (s : State) (r : Radio) : State := { s with radio := r }

/-- The same state with another value on the port's return lines. -/
def State.withPort (s : State) (v : ReadVal) : State := { s with portVal := v }

/-- The same state at another place of a pseudo-operation. -/
def State.withSub (s : State) (n : Nat) : State := { s with sub := n }

/-- The same state with another `TXBUF`. -/
def State.withTxbuf (s : State) (m : Memory) : State := { s with txbuf := m }

/-- The same state with another unwritten content of `TXBUF`. -/
def State.withTxSeed (s : State) (n : Nat) : State := { s with txSeed := n }

/-- The same state with another host side. -/
def State.withHost (s : State) (h : HostSide) : State := { s with host := h }

/-- The same state with other moves to come. -/
def State.withTurns (s : State) (ts : List Turn) : State := { s with turns := ts }

/-- The same state with the free-value counter moved on. -/
def State.spend (s : State) : State := { s with tick := s.tick + 1 }

/-- `STEP <- n`, entering a wait if the step there is one: `POLLCNT` "is 0 on entry to a wait" (R13, R196). -/
def goToStep (n : Nat) (s : State) : State :=
  s.withSq { s.sq with step := n, pollcnt := 0 }

/-- `raise Reject(code)`: `RESULT <- code; BUSY <- 0; STEP <- 0`, and nothing else (R7, R188). -/
def raiseReject (code : Result) (s : State) : State :=
  s.withSq { s.sq with result := code, busy := false, step := 0 }

/-- `complete(code)`: `RESULT <- code; BUSY <- 0; STEP <- 0` (R7). -/
def complete (code : Result) (s : State) : State :=
  s.withSq { s.sq with result := code, busy := false, step := 0, pollcnt := 0 }

/-- Acceptance: `BUSY <- 1; CMD, HOLD, LEN <- decoded; STEP <- 0` (R60). With `BUSY = 1` the command "is not accepted
and has no effect". -/
def accept (c : Cmd) (h : Bool) (len : Half) (s : State) : State :=
  if s.sq.busy then s
  else
    (s.withSq { s.sq with busy := true, cmd := c, hold := h, len := len, step := 0, pollcnt := 0 }).withHost
      { s.host with offer := none }

/-- Acceptance of a command with a payload: the payload buffer is the one the host offered (R61). -/
def acceptTx (c : Cmd) (h : Bool) (len : Half) (s : State) : State :=
  if s.sq.busy then s
  else
    (accept c h len s).withHost
      { s.host with offer := none, payload := s.host.offerData, payloadTouched := s.host.offerTouched }

/-- A reserved command word offered with `BUSY = 0`: `RESULT <- REJECTED_BADCMD` (R69, R182). -/
def rejectBadCommand (s : State) : State :=
  (raiseReject .rejectedBadcmd s).withHost { s.host with offer := none }

/-- The end of a wait cut short, with `WAIT_BOUND` finite only: `RESULT <- TIMEOUT; BUSY <- 0; STEP <- 0; SEQ <- Idle`
(R196). -/
def timeOut (s : State) : State :=
  s.withSq { s.sq with result := .timeout, busy := false, step := 0, seq := .idle, pollcnt := 0 }

/-- A polling read that returned 0: `STEP` stays (R86); with `WAIT_BOUND = some n` the read is counted and the `n`-th
ends the command (R196). -/
def pollMissed (s : State) : State :=
  match s.cfg.waitBound with
  | none => s
  | some n =>
    if s.sq.pollcnt + 1 = n then timeOut s
    else s.withSq { s.sq with pollcnt := s.sq.pollcnt + 1 }

/-- The next place of a pseudo-operation carried out by itself; `POLLCNT` "is 0 on entry to a wait" (R86, R150, R196). -/
def goToSub (n : Nat) (s : State) : State :=
  (s.withSub n).withSq { s.sq with pollcnt := 0 }

/-- A polling read of a pseudo-operation carried out by itself that returned 0: as in a micro-program, and a wait cut short ends
the pseudo-operation too (R86, R196). -/
def pollMissedAlone (s : State) : State :=
  if s.cfg.waitBound = some (s.sq.pollcnt + 1) then (pollMissed s).withSub 0 else pollMissed s

/-- The block's reset input (R210): the sequencer-owned state to R36's values, `CMD` and `TXBUF` unspecified, the radio
untouched. `TXBUF` takes a fresh arbitrary content (U11). -/
def blockReset (s : State) : State :=
  ((((s.withSq { Sequencer.reset with cmd := Config.freeCmd s.tick }).withTxbuf []).withTxSeed (s.tick + 1)).withSub 0).spend

end Sys2Proof.Machine
end

