-- ==== Sys2Proof/Machine/Flags.lean ====
section
/-! DEFINITION. The flags of this hardware are the three sticky event latches (R33): reading one, clearing one, setting one. -/

namespace Sys2Proof.Machine

/-- `EV[e]`. -/
def Latches.get (l : Latches) : PortEvent → Bool
  | .txready => l.txready
  | .phyend => l.phyend
  | .disabled => l.disabled

/-- `EV[e] <- v`, the other two kept. -/
def Latches.put (l : Latches) (e : PortEvent) (v : Bool) : Latches :=
  match e with
  | .txready => { l with txready := v }
  | .phyend => { l with phyend := v }
  | .disabled => { l with disabled := v }

/-- The latches after events that may have fired: a latch is only ever set by the radio (R173). -/
def Latches.orWith (l fired : Latches) : Latches :=
  { txready := l.txready || fired.txready
    phyend := l.phyend || fired.phyend
    disabled := l.disabled || fired.disabled }

/-- `EVRD e`: the latch on the return lines, nothing cleared (R83). -/
def evRead (e : PortEvent) (s : State) : State :=
  s.withPort (.latch (s.radio.ev.get e))

/-- `EVCLR e` (R84). -/
def evClear (e : PortEvent) (s : State) : State :=
  s.withRadio { s.radio with ev := s.radio.ev.put e false }

end Sys2Proof.Machine
end

