-- ==== Sys2Proof/Machine/Operands.lean ====
section
/-! DEFINITION. The operands: the frequency pair (R67, R100), the length byte and the payload bytes of a frame (R65, R66, R120), the
length check (R121), the `SHORTS` sets (R68, R127), and each register's images by the parameters of R4 (R64). -/

namespace Sys2Proof.Machine

/-- `FREQMAP(f)`: the pair (VALUE, BAND), and no value outside the domain (R100). -/
def freqMap (p : Params) (f : Nat) : Option (Nat × Bool) :=
  if p.inFreqDomain f then
    if f < 2400 then some (f - 2360, true) else some (f - 2400, false)
  else none

/-- `zext_8(L) + 2`, in 8 bits (R66). -/
def lengthByte (len : Half) : Byte := BitVec.ofNat 8 len.toNat + 2

/-- `LEN >= MAX_PACKET_LEN - 1` (R121). -/
def oversize (p : Params) (len : Half) : Bool := decide (p.maxPacketLen - 1 ≤ len.toNat)

/-- `data[i]` (R7). A payload the host changed where R53 forbids it reads as any value (R185, U23), and so does a byte
past the end of what the host has put there. -/
def payloadByte (s : State) (i : Nat) : Byte :=
  if s.host.payloadTouched then Config.freeByte s.tick i
  else s.host.payload[i]?.getD (Config.freeByte s.tick i)

/-- The frame: the length byte, then the payload (R65). -/
def frameBytes (s : State) : List Byte :=
  lengthByte s.sq.len :: (List.range s.sq.len.toNat).map (payloadByte s)

/-- `SHORTS_CHAIN` (R127). -/
def shortsChain : List Short :=
  [ (.rxReady, .ccaStart),
    (.ccaIdle, .port .txen),
    (.port .txready, .port .start),
    (.ccaBusy, .port .disable),
    (.port .phyend, .port .disable) ]

/-- The set a `SHORTS` image stands for (R64). -/
def shortsOf : ShortsImage → List Short
  | .empty => []
  | .chain => shortsChain

/-- `STATE_*` (R4, R81): the code a read of `STATE` returns. A further state shows the code that names it. -/
def stateCode (p : Params) : RState → Code
  | .disabled => p.stateCodes.disabled
  | .txRampUp => p.stateCodes.txRampUp
  | .txIdle => p.stateCodes.txIdle
  | .tx => p.stateCodes.tx
  | .txDisable => p.stateCodes.txDisable
  | .rxRampUp => p.stateCodes.rxRampUp
  | .rxIdle => p.stateCodes.rxIdle
  | .cca => p.stateCodes.cca
  | .rxDisable => p.stateCodes.rxDisable
  | .other c => c

/-- `SHORT_BIT(e, t)` (R4, R68). -/
def shortBit (p : Params) (e : RadioEvent) (t : RadioTask) : Nat := (p.shortBits.get e.index).get t.index

/-- `REG_ADDR` (R4, R46). -/
def regAddr (p : Params) (r : Reg) : Nat := p.regAddrs.get r.index

/-- `FIELD_POS` (R4, R46). -/
def fieldPos (p : Params) (f : RegField) : Nat := p.fieldPositions.get f.index

/-- The `SHORTS` word: one bit for each pair, at `SHORT_BIT` (R68). -/
def shortsWord (p : Params) (l : List Short) : Nat :=
  l.foldl (fun w x => w ||| 2 ^ shortBit p x.1 x.2) 0

/-- The number on the return lines: the `STATE` code or the latch (R62). DESIGN CHOICE (log entry 33): before any read the spec gives no
value back, and the number is 0. -/
def busValue (p : Params) : ReadVal → Nat
  | .none => 0
  | .state r => stateCode p r
  | .latch v => v.toNat

/-- The codes of `RESULT`, 3 bits; 6 and 7 are never written (R15, R180). -/
def Result.code : Result → BitVec 3
  | .none => 0
  | .ok => 1
  | .okUnverified => 2
  | .rejectedOversize => 3
  | .timeout => 4
  | .rejectedBadcmd => 5

/-- What the host reads of `RESULT`, at any time (R15). -/
def resultRead (s : State) : BitVec 3 := s.sq.result.code

/-- `{MODE = MODE_STD}`, `{MODE = MODE_LR}` (R64). -/
def modeCode (c : Codes) : ProfileSel → Code
  | .std => c.modeStd
  | .lr => c.modeLr

/-- `PKTLAY0_STD` names two fields and says nothing of the other three, which hold no known value afterwards (R80, U13); `PKTLAY0_LR`
names all five (R23). -/
def pktlay0Image (c : Codes) (tick : Nat) : ProfileSel → Pktlay0
  | .std =>
    { lflen := c.pktlay0Std.lflen, crcinc := c.pktlay0Std.crcinc,
      sfields := Config.freeCode tick 0, plen := Config.freeCode tick 1, termlen := Config.freeCode tick 2 }
  | .lr => c.pktlay0Lr

/-- `{LEN = CRC_LEN_STD}`, `{LEN = CRC_DISABLED}` (R64). -/
def crclenCode (c : Codes) : ProfileSel → Code
  | .std => c.crcLenStd
  | .lr => c.crcDisabled

/-- `{LEVEL = TXPOWER_0DBM}`, `{LEVEL = TXPOWER_8DBM}` (R64). -/
def txpowerCode (c : Codes) : ProfileSel → Code
  | .std => c.txpower0dbm
  | .lr => c.txpower8dbm

/-- The frequency of a profile (R64, R103, R104). -/
def profileMhz (p : Params) : ProfileSel → Nat
  | .std => p.fStdMhz
  | .lr => p.fLrMhz

/-- The iteration count a `DELAY` selector asks of the delay unit (R63, R85). -/
def delayIterations (p : Params) (sel : Nat) : Option Nat :=
  match sel with
  | 0 => some p.delays.powerOff
  | 1 => some p.delays.powerOn
  | 2 => some p.delays.holdCarrier
  | 3 => some p.delays.shortsTx
  | _ => none

end Sys2Proof.Machine
end

