-- ==== Sys2Proof/Machine/Radio.lean ====
section
/-! DEFINITION. The radio as the sequencer's rules need it (45_radio_environment.md): its reactions to triggers and register writes, its
internal completions, its shortcuts and its buffer reader. What R171 leaves unspecified is free: the radio's
state becomes a free value, latches may be set, and the run is marked as having left the specified behaviour, after
which the radio's own turns may do anything until a power transition. -/

namespace Sys2Proof.Machine

/-- A reaction the spec does not describe (R171, U15): "the radio may ignore it, may change state, may fire or not fire
an event". -/
def Radio.unspecified (tick : Nat) (r : Radio) : Radio :=
  { r with
    rstate := Config.freeRState tick
    ev := r.ev.orWith
      { txready := Config.freeBit tick 0, phyend := Config.freeBit tick 1, disabled := Config.freeBit tick 2 }
    strayed := true }

/-- A transmit command is being carried out, its length check passed, with no `CFG` completed since the reset: "nothing is
promised of what the radio does" (R16, R130, R185, U9; log entry 30). -/
def State.unconfiguredTx (s : State) : Bool :=
  s.sq.busy && s.sq.cmd.isTx && decide (1 ≤ s.sq.step) && decide (s.sq.profile = .none)

/-- A trigger of a task received by the radio, from the port or (`viaShortcut`) from a shortcut (R162, R164, R166, R167;
elsewhere R171). -/
def Radio.react (viaShortcut : Bool) (t : RadioTask) (tick : Nat) (r : Radio) : Radio :=
  if r.powered = false then r.unspecified tick
  else
    match t with
    | .port .txen =>
      match r.rstate with
      | .disabled => { r with rstate := .txRampUp }
      | .rxRampUp | .rxIdle | .cca =>
        if viaShortcut then { r with rstate := .txRampUp } else r.unspecified tick
      | _ => r.unspecified tick
    | .port .start =>
      match r.rstate with
      | .txIdle => { r with rstate := .tx, air := [] }
      | _ => r.unspecified tick
    | .port .rxen =>
      match r.rstate with
      | .disabled => { r with rstate := .rxRampUp }
      | _ => r.unspecified tick
    | .port .disable =>
      match r.rstate with
      | .disabled => r.unspecified tick
      | .rxRampUp | .rxIdle | .cca | .rxDisable => { r with rstate := .rxDisable }
      | _ => { r with rstate := .txDisable }
    | .ccaStart =>
      match r.rstate with
      | .rxIdle => { r with rstate := .cca }
      | _ => r.unspecified tick

/-- The tasks that an event triggers by the current `SHORTS` (R168). -/
def tasksOf (shorts : List Short) (e : RadioEvent) : List RadioTask :=
  (shorts.filter (fun p => p.1 = e)).map (·.2)

/-- The latch of an event on the port is set, "whether or not the latch was already 1" (R168, R173). -/
def Radio.latch (e : RadioEvent) (r : Radio) : Radio :=
  match e with
  | .port p => { r with ev := r.ev.put p true }
  | .rxReady | .ccaIdle | .ccaBusy => r

/-- An event fires: its latch is set and its shortcuts' triggers are delivered "as part of the same step or as its next
step" (R168). -/
def Radio.fire (e : RadioEvent) (deferred : Bool) (tick : Nat) (r : Radio) : Radio :=
  if deferred then { r.latch e with pending := r.pending ++ tasksOf r.regs.shorts e }
  else (tasksOf r.regs.shorts e).foldl (fun r' t => r'.react true t tick) (r.latch e)

/-- An internal completion (R163, R165, R166, R167); in the states that have none, nothing. -/
def Radio.complete (channelIdle deferred : Bool) (tick : Nat) (r : Radio) : Radio :=
  match r.rstate with
  | .txRampUp => Radio.fire (.port .txready) deferred tick { r with rstate := .txIdle }
  | .tx => Radio.fire (.port .phyend) deferred tick { r with rstate := .txIdle }
  | .txDisable | .rxDisable => Radio.fire (.port .disabled) deferred tick { r with rstate := .disabled }
  | .rxRampUp => Radio.fire .rxReady deferred tick { r with rstate := .rxIdle }
  | .cca =>
    Radio.fire (if channelIdle then .ccaIdle else .ccaBusy) deferred tick { r with rstate := .rxIdle }
  | .disabled | .txIdle | .rxIdle | .other _ => r

/-- The byte the radio's reader sees at an address: `TXBUF` by index; where nothing has been written since the reset the arbitrary byte
that stands there (R36, U11); outside this block's storage any value (R170, R223, U12). -/
def radioByte (s : State) (i : Nat) : Byte :=
  let a := s.radio.regs.pktptr + i
  if s.cfg.txbufAddr ≤ a ∧ a < s.cfg.txbufAddr + s.cfg.maxPacketLen then
    (s.txbuf.read (a - s.cfg.txbufAddr)).getD (Config.txbufByte s.txSeed (a - s.cfg.txbufAddr))
  else Config.freeByte s.tick i

/-- Byte `i` after the address in `PKTPTR` read in `Tx`: the length byte, and as many as it says at most (R170, U24). DESIGN CHOICE (log
entry 30): a transmit command before any `CFG`, of which U9 promises nothing, keeps to this too. DESIGN CHOICE (log entry 35): the count is of the length byte that stands in the buffer at this
read, also after a reset in `Tx` (R210) has made it another. -/
def radioReads (i : Nat) (s : State) : Radio :=
  if s.radio.rstate = .tx ∧ i ≤ (radioByte s 0).toNat then
    { s.radio with air := s.radio.air ++ [(i, radioByte s i)] }
  else s.radio

/-- One turn of the radio. Unpowered it "takes no step" (R169); a pending shortcut trigger is its next step (R168); only
a run that has left the specified behaviour (R171) and a transmit command on an unconfigured radio (R130) let it do
anything, and even then it clears no latch (R173). -/
def radioTurn (a : RadioAct) (s : State) : Radio :=
  if s.radio.powered = false then s.radio
  else
    match a with
    | .stray r fired next =>
      if s.radio.strayed || s.unconfiguredTx then
        { s.radio with rstate := r, ev := s.radio.ev.orWith fired, pending := next, strayed := true }
      else s.radio
    | .complete idle deferred =>
      match s.radio.pending with
      | t :: ts => Radio.react true t s.tick { s.radio with pending := ts }
      | [] => s.radio.complete idle deferred s.tick
    | .read i =>
      match s.radio.pending with
      | t :: ts => Radio.react true t s.tick { s.radio with pending := ts }
      | [] => radioReads i s

/-- `TASK t`: one trigger delivered (R82); of what an unconfigured radio makes of a transmit command's triggers nothing is promised
(R130). -/
def trigger (t : PortTask) (s : State) : State :=
  (s.withRadio
    (if s.unconfiguredTx then s.radio.unspecified s.tick else s.radio.react false (.port t) s.tick)).spend

/-- `REGRD STATE`: the radio's state on the return lines (R81). -/
def readState (s : State) : State := s.withPort (.state s.radio.rstate)

/-- `REGWR` of a configuration register. In `Disabled` the named fields take the image's values (R80: `named`);
outside it the effect is unspecified (R171): the register's fields are free (`unnamed`), and so is the radio's reaction. -/
def configWrite (named unnamed : Regs → Regs) (s : State) : State :=
  (if s.radio.rstate = .disabled then s.withRadio { s.radio with regs := named s.radio.regs }
   else s.withRadio { s.radio.unspecified s.tick with regs := unnamed s.radio.regs }).spend

/-- `REGWR` of `SHORTS` or `PKTPTR`, which R171 exempts: the named field takes the image's value in every radio state. -/
def plainWrite (named : Regs → Regs) (s : State) : State :=
  s.withRadio { s.radio with regs := named s.radio.regs }

/-- The registers after a power transition: `SHORTS` empty, `POWER` as just written, every other one its "(unknown) reset
value" (R169). -/
def Regs.afterPower (powerOn : Code) (tick : Nat) : Regs :=
  { power := powerOn
    mode := Config.freeCode tick 0
    modcfg := Config.freeCode tick 1
    pktlay0 :=
      { lflen := Config.freeCode tick 2, crcinc := Config.freeCode tick 3, sfields := Config.freeCode tick 4,
        plen := Config.freeCode tick 5, termlen := Config.freeCode tick 6 }
    pktlay1 :=
      { maxlen := Config.freeCode tick 7, statlen := Config.freeCode tick 8, balen := Config.freeCode tick 9,
        whiteen := Config.freeCode tick 10, endian := Config.freeCode tick 11 }
    crclen := Config.freeCode tick 12
    crcpoly := Config.freeCode tick 13
    crcseed := Config.freeCode tick 14
    ccamode := Config.freeCode tick 15
    thresholds := Config.freeCode tick 16
    freqValue := Config.freeCode tick 17
    freqBand := Config.freeBit tick 3
    addrBase := Config.freeHalf tick 0
    addrPrefix := Config.freeByte tick 0
    txpower := Config.freeCode tick 18
    shorts := []
    pktptr := Config.freeCode tick 19 }

/-- The radio after a power transition: `Disabled`, latches 0 (R169). -/
def Radio.afterPower (powerOn : Code) (tick : Nat) : Radio :=
  { rstate := .disabled, powered := true, regs := Regs.afterPower powerOn tick, ev := Latches.clear,
    pending := [], air := [], strayed := false }

/-- `REGWR POWER {POWER_OFF}` (R20, R169); outside `Disabled` the reaction beside it is unspecified (R171). -/
def powerOff (s : State) : State :=
  let r := if s.radio.rstate = .disabled then s.radio else s.radio.unspecified s.tick
  (s.withRadio { r with powered := false, regs := { r.regs with power := s.cfg.codes.powerOff } }).spend

/-- `REGWR POWER {POWER_ON}`: after a `POWER_OFF` it ends a power transition, which resets the peripheral (R169); on a
powered radio it is a configuration write like any other. -/
def powerOn (s : State) : State :=
  if s.radio.powered then
    configWrite (fun r => { r with power := s.cfg.codes.powerOn })
      (fun r => { r with power := Config.freeCode s.tick 0 }) s
  else (s.withRadio (Radio.afterPower s.cfg.codes.powerOn s.tick)).spend

end Sys2Proof.Machine
end

