-- ==== Sys2Proof/Machine/PortOps.lean ====
section
/-! DEFINITION. The meanings of the port micro-operations and of `WaitAck` (40_port_ops.md). A micro-operation is one transaction on the
port: `STEP`, `SEQ`, `BUSY` and `RESULT` are the micro-program's business (Machine/MicroProgram.lean). -/

namespace Sys2Proof.Machine

/-- A step's answer. -/
abbrev Answer := Host.Outcome State Fault Refusal

/-- `REGWR POWER` (R80, R101, R169). -/
def execRegwrPower (img : PowerImage) (s : State) : Answer :=
  match img with
  | .off => .next (powerOff s)
  | .on => .next (powerOn s)

/-- `REGWR MODE` (R21, R80). -/
def execRegwrMode (img : ProfileSel) (s : State) : Answer :=
  .next (configWrite (fun r => { r with mode := modeCode s.cfg.codes img })
    (fun r => { r with mode := Config.freeCode s.tick 0 }) s)

/-- `REGWR PKTLAY0` (R23, R80). -/
def execRegwrPktlay0 (img : ProfileSel) (s : State) : Answer :=
  .next (configWrite (fun r => { r with pktlay0 := pktlay0Image s.cfg.codes s.tick img })
    (fun r =>
      { r with
        pktlay0 :=
          { lflen := Config.freeCode s.tick 0, crcinc := Config.freeCode s.tick 1,
            sfields := Config.freeCode s.tick 2, plen := Config.freeCode s.tick 3,
            termlen := Config.freeCode s.tick 4 } }) s)

/-- `REGWR PKTLAY1` (R24, R80). -/
def execRegwrPktlay1 (s : State) : Answer :=
  .next (configWrite (fun r => { r with pktlay1 := s.cfg.codes.pktlay1Lr })
    (fun r =>
      { r with
        pktlay1 :=
          { maxlen := Config.freeCode s.tick 0, statlen := Config.freeCode s.tick 1,
            balen := Config.freeCode s.tick 2, whiteen := Config.freeCode s.tick 3,
            endian := Config.freeCode s.tick 4 } }) s)

/-- `REGWR CRCCFG` (R25, R80). -/
def execRegwrCrccfg (img : ProfileSel) (s : State) : Answer :=
  .next (configWrite (fun r => { r with crclen := crclenCode s.cfg.codes img })
    (fun r => { r with crclen := Config.freeCode s.tick 0 }) s)

/-- `REGWR CRCPOLY` (R25, R80). -/
def execRegwrCrcpoly (s : State) : Answer :=
  .next (configWrite (fun r => { r with crcpoly := s.cfg.codes.crcPolyStd })
    (fun r => { r with crcpoly := Config.freeCode s.tick 0 }) s)

/-- `REGWR CRCSEED` (R25, R80). -/
def execRegwrCrcseed (s : State) : Answer :=
  .next (configWrite (fun r => { r with crcseed := s.cfg.codes.crcSeedStd })
    (fun r => { r with crcseed := Config.freeCode s.tick 0 }) s)

/-- `REGWR CCACFG` (R26, R80). -/
def execRegwrCcacfg (s : State) : Answer :=
  .next (configWrite
    (fun r => { r with ccamode := s.cfg.codes.ccaModeEd, thresholds := s.cfg.codes.ccaThresholdsStd })
    (fun r => { r with ccamode := Config.freeCode s.tick 0, thresholds := Config.freeCode s.tick 1 }) s)

/-- `REGWR FREQ`: the pair `FREQMAP` gives the profile's frequency (R27, R67, R80). A parameter outside the domain has
no pair (R100, R185). DESIGN CHOICE (log entry 31): R67 and R100 give `FREQMAP` a 16-bit operand and R5 puts no upper bound on
`F_STD_MHZ` and `FREQ_MAX_MHZ`; a profile frequency above 65535 that meets R5 is mapped exactly, as a natural number. -/
def execRegwrFreq (img : ProfileSel) (s : State) : Answer :=
  match freqMap s.cfg (profileMhz s.cfg img) with
  | some (v, b) =>
    .next (configWrite (fun r => { r with freqValue := v, freqBand := b })
      (fun r => { r with freqValue := Config.freeCode s.tick 0, freqBand := Config.freeBit s.tick 3 }) s)
  | none => .refused .frequencyOutsideDomain

/-- `REGWR ADDRBASE` (R28, R80). -/
def execRegwrAddrbase (s : State) : Answer :=
  .next (configWrite (fun r => { r with addrBase := s.cfg.codes.addrBaseLr })
    (fun r => { r with addrBase := Config.freeHalf s.tick 0 }) s)

/-- `REGWR ADDRPREFIX` (R28, R80). -/
def execRegwrAddrprefix (s : State) : Answer :=
  .next (configWrite (fun r => { r with addrPrefix := s.cfg.codes.addrPrefixLr })
    (fun r => { r with addrPrefix := Config.freeByte s.tick 0 }) s)

/-- `REGWR TXPOWER` (R29, R80). -/
def execRegwrTxpower (img : ProfileSel) (s : State) : Answer :=
  .next (configWrite (fun r => { r with txpower := txpowerCode s.cfg.codes img })
    (fun r => { r with txpower := Config.freeCode s.tick 0 }) s)

/-- `REGWR SHORTS` (R30, R80). -/
def execRegwrShorts (img : ShortsImage) (s : State) : Answer :=
  .next (plainWrite (fun r => { r with shorts := shortsOf img }) s)

/-- `REGWR PKTPTR` (R31, R80). -/
def execRegwrPktptr (s : State) : Answer :=
  .next (plainWrite (fun r => { r with pktptr := s.cfg.txbufAddr }) s)

/-- `REGRD STATE` (R81). -/
def execRegrdState (s : State) : Answer := .next (readState s)

/-- `TASK TXEN` (R82, R162). -/
def execTaskTxen (s : State) : Answer := .next (trigger .txen s)

/-- `TASK START` (R82, R164). -/
def execTaskStart (s : State) : Answer := .next (trigger .start s)

/-- `TASK DISABLE` (R82, R166). -/
def execTaskDisable (s : State) : Answer := .next (trigger .disable s)

/-- `TASK RXEN` (R82, R167). -/
def execTaskRxen (s : State) : Answer := .next (trigger .rxen s)

/-- `EVRD TXREADY` (R83). -/
def execEvrdTxready (s : State) : Answer := .next (evRead .txready s)

/-- `EVRD PHYEND` (R83). -/
def execEvrdPhyend (s : State) : Answer := .next (evRead .phyend s)

/-- `EVRD DISABLED` (R83). -/
def execEvrdDisabled (s : State) : Answer := .next (evRead .disabled s)

/-- `EVCLR TXREADY` (R84). -/
def execEvclrTxready (s : State) : Answer := .next (evClear .txready s)

/-- `EVCLR PHYEND` (R84). -/
def execEvclrPhyend (s : State) : Answer := .next (evClear .phyend s)

/-- `EVCLR DISABLED` (R84). -/
def execEvclrDisabled (s : State) : Answer := .next (evClear .disabled s)

/-- `DELAY POWER_OFF_DELAY`: no state written (R85). -/
def execDelayPowerOff (s : State) : Answer := .next s

/-- `DELAY POWER_ON_DELAY`: no state written (R85). -/
def execDelayPowerOn (s : State) : Answer := .next s

/-- `DELAY HOLD_CARRIER_DELAY`: no state written (R85). -/
def execDelayHoldCarrier (s : State) : Answer := .next s

/-- `DELAY SHORTS_TX_DELAY`: no state written (R85). -/
def execDelayShortsTx (s : State) : Answer := .next s

/-- One step of `WaitAck(e)`, `sub` counting from its first (R86): step 0 polls, and stays until the read returns 1 (or, with
`WAIT_BOUND` finite, the wait is cut short: R196); the next clears. -/
def execWaitAck (e : PortEvent) (s : State) : Answer :=
  match s.sub with
  | 0 => .next (if s.radio.ev.get e then goToSub 1 (evRead e s) else pollMissedAlone (evRead e s))
  | _ => .next (goToSub 0 (evClear e s))

end Sys2Proof.Machine
end

