-- ==== Sys2Proof/Machine/Configuration.lean ====
section
/-! DEFINITION. The configuration family (41_configuration.md): `FREQMAP`, `POWER_CYCLE`, and the acceptance of `CFG.STD` and
`CFG.LR`, whose micro-programs are in Machine/MicroProgram.lean. -/

namespace Sys2Proof.Machine

/-- `FREQMAP f`: the pair on the encoder's output lines; outside the domain no value (R100). -/
def execFreqmap (f : Half) (s : State) : Answer :=
  match freqMap s.cfg f.toNat with
  | some out => .next { s with freqOut := out }
  | none => .refused .frequencyOutsideDomain

/-- One step of `POWER_CYCLE`, `sub` counting from its first (R101): off, delay, on, delay. -/
def execPowerCycle (s : State) : Answer :=
  match s.sub with
  | 0 => .next ((powerOff s).withSub 1)
  | 1 => .next (s.withSub 2)
  | 2 => .next ((powerOn s).withSub 3)
  | _ => .next (s.withSub 0)

/-- `CFG.STD` accepted (R60, R102, R103). -/
def execCfgStd (s : State) : Answer := .next (accept .cfgStd false 0 s)

/-- `CFG.LR` accepted (R60, R102, R104). -/
def execCfgLr (s : State) : Answer := .next (accept .cfgLr false 0 s)

end Sys2Proof.Machine
end

