-- ==== Sys2Proof/Machine/Transmit.lean ====
section
/-! DEFINITION. The transmit family (42_transmit.md): the frame-build step, the length check, and the acceptance of `TXP` and `TXS`, whose
micro-programs are in Machine/MicroProgram.lean. -/

namespace Sys2Proof.Machine

/-- `FRAME`: `TXBUF[0] <- zext_8(L) + 2; TXBUF[1 + i] <- data[i]`, `L = LEN` (R120). -/
def execFrame (s : State) : Answer :=
  match Memory.writeBytes s.cfg.maxPacketLen 0 (frameBytes s) s.txbuf with
  | some m => .next (s.withTxbuf m).spend
  | none => .fault .outsideTxbuf

/-- `TXP h` accepted (R60, R61, R122). -/
def execTxp (h : Bool) (len : Half) (s : State) : Answer := .next (acceptTx .txp h len s)

/-- `TXS h` accepted; `h` is latched and ignored (R60, R61, R126). -/
def execTxs (h : Bool) (len : Half) (s : State) : Answer := .next (acceptTx .txs h len s)

/-- Step 0 of `TXP` and `TXS` (R121, R181). -/
def lengthCheck (s : State) : State :=
  if oversize s.cfg s.sq.len then raiseReject .rejectedOversize s else goToStep 1 s

end Sys2Proof.Machine
end

