-- ==== Sys2Proof/Machine/Disable.lean ====
section
/-! DEFINITION. The disable family (43_disable.md). -/

namespace Sys2Proof.Machine

/-- One step of `DIS`, `sub` counting from its first (R150): read `STATE`, and end there if `Disabled`; trigger; poll
(R196 with `WAIT_BOUND` finite); clear. -/
def execDis (s : State) : Answer :=
  match s.sub with
  | 0 => .next (if s.radio.rstate = .disabled then readState s else goToSub 1 (readState s))
  | 1 => .next (goToSub 2 (trigger .disable s))
  | 2 => .next (if s.radio.ev.disabled then goToSub 3 (evRead .disabled s) else pollMissedAlone (evRead .disabled s))
  | _ => .next (goToSub 0 (evClear .disabled s))

/-- `DISABLE` accepted (R60, R151). -/
def execDisable (s : State) : Answer := .next (accept .disable false 0 s)

end Sys2Proof.Machine
end

