-- ==== Sys2Proof/Machine/MicroProgram.lean ====
section
/-! DEFINITION. The micro-programs: the tables of R103, R104, R122, R126 and R151, row by row, and what the sequencer does after a row's
micro-operation (its "next" column, `SEQ` by R123, completion). -/

namespace Sys2Proof.Machine

/-- Where a row leads: a step of the same command, or its completion. -/
inductive Target where
  | step (n : Nat)
  | done
  deriving DecidableEq, Repr

/-- The "next" column: always the same; by the `STATE` value read; by the latch read; by `HOLD`. -/
inductive Next where
  | go (t : Target)
  | ifDisabled (yes no : Target)
  | ifSet (yes no : Target)
  | ifHold (yes no : Target)
  deriving DecidableEq, Repr

/-- What a row does: the length check (R121) or an instruction. -/
inductive Act where
  | lengthCheck
  | run (i : Instr)
  deriving DecidableEq, Repr

structure Row where
  act : Act
  next : Next
  deriving DecidableEq, Repr

/-- `DIS` at step `p`, leading to `k` (R150). -/
def disRows (p : Nat) (k : Target) : List Row :=
  [ ⟨.run .regrdState, .ifDisabled k (.step (p + 1))⟩,
    ⟨.run .taskDisable, .go (.step (p + 2))⟩,
    ⟨.run .evrdDisabled, .ifSet (.step (p + 3)) (.step (p + 2))⟩,
    ⟨.run .evclrDisabled, .go k⟩ ]

/-- `POWER_CYCLE` at step `p` (R101). -/
def powerCycleRows (p : Nat) : List Row :=
  [ ⟨.run (.regwrPower .off), .go (.step (p + 1))⟩,
    ⟨.run .delayPowerOff, .go (.step (p + 2))⟩,
    ⟨.run (.regwrPower .on), .go (.step (p + 3))⟩,
    ⟨.run .delayPowerOn, .go (.step (p + 4))⟩ ]

/-- R103. -/
def programCfgStd : List Row :=
  disRows 0 (.step 4) ++ powerCycleRows 4 ++
  [ ⟨.run (.regwrMode .std), .go (.step 9)⟩,
    ⟨.run (.regwrPktlay0 .std), .go (.step 10)⟩,
    ⟨.run (.regwrCrccfg .std), .go (.step 11)⟩,
    ⟨.run .regwrCrcpoly, .go (.step 12)⟩,
    ⟨.run .regwrCrcseed, .go (.step 13)⟩,
    ⟨.run .regwrCcacfg, .go (.step 14)⟩,
    ⟨.run (.regwrFreq .std), .go (.step 15)⟩,
    ⟨.run (.regwrTxpower .std), .go .done⟩ ]

/-- R104. -/
def programCfgLr : List Row :=
  disRows 0 (.step 4) ++ powerCycleRows 4 ++
  [ ⟨.run (.regwrMode .lr), .go (.step 9)⟩,
    ⟨.run (.regwrCrccfg .lr), .go (.step 10)⟩,
    ⟨.run (.regwrPktlay0 .lr), .go (.step 11)⟩,
    ⟨.run .regwrPktlay1, .go (.step 12)⟩,
    ⟨.run .regwrAddrbase, .go (.step 13)⟩,
    ⟨.run .regwrAddrprefix, .go (.step 14)⟩,
    ⟨.run (.regwrFreq .lr), .go (.step 15)⟩,
    ⟨.run (.regwrTxpower .lr), .go .done⟩ ]

/-- R122. -/
def programTxp : List Row :=
  [⟨.lengthCheck, .go (.step 1)⟩] ++ disRows 1 (.step 5) ++
  [ ⟨.run .frame, .go (.step 6)⟩,
    ⟨.run .regwrPktptr, .go (.step 7)⟩,
    ⟨.run (.regwrShorts .empty), .go (.step 8)⟩,
    ⟨.run .taskTxen, .go (.step 9)⟩,
    ⟨.run .evrdTxready, .ifSet (.step 10) (.step 9)⟩,
    ⟨.run .evclrTxready, .ifHold (.step 11) (.step 12)⟩,
    ⟨.run .delayHoldCarrier, .go (.step 12)⟩,
    ⟨.run .taskStart, .go (.step 13)⟩,
    ⟨.run .evrdPhyend, .ifSet (.step 14) (.step 13)⟩,
    ⟨.run .evclrPhyend, .go (.step 15)⟩ ] ++ disRows 15 .done

/-- R126. -/
def programTxs : List Row :=
  [⟨.lengthCheck, .go (.step 1)⟩] ++ disRows 1 (.step 5) ++
  [ ⟨.run .frame, .go (.step 6)⟩,
    ⟨.run .regwrPktptr, .go (.step 7)⟩,
    ⟨.run (.regwrShorts .chain), .go (.step 8)⟩,
    ⟨.run .taskRxen, .go (.step 9)⟩,
    ⟨.run .delayShortsTx, .go (.step 10)⟩ ] ++ disRows 10 .done

/-- The micro-program of a command. -/
def program : Cmd → List Row
  | .disable => disRows 0 .done
  | .cfgStd => programCfgStd
  | .cfgLr => programCfgLr
  | .txp => programTxp
  | .txs => programTxs

/-- The row at a step. -/
def rowAt (c : Cmd) (n : Nat) : Option Row := (program c)[n]?

/-- `SEQ` after a step; `hit` is a read that returned 1. R123: it changes at these steps and at no other. -/
def seqAfter (c : Cmd) (n : Nat) (hit : Bool) (q : Seq) : Seq :=
  match c, n with
  | .txp, 8 => .warmingUp
  | .txp, 9 => if hit then .armed else q
  | .txp, 12 => .transmitting
  | .txp, 13 => if hit then .idle else q
  | .txs, 8 => .chained
  | .txs, 9 => .idle
  | _, _ => q

/-- The outcome a completed command reports (R180). -/
def outcomeOf : Cmd → Result
  | .txs => .okUnverified
  | .disable | .cfgStd | .cfgLr | .txp => .ok

/-- `PROFILE` after a command completes: the profile of a `CFG`, unchanged by anything else (R16). -/
def profileAfter (c : Cmd) (p : Profile) : Profile :=
  match c with
  | .cfgStd => .standard
  | .cfgLr => .longRange
  | .disable | .txp | .txs => p

/-- The completing step (R102, R122, R126, R151). -/
def finish (s : State) : State :=
  complete (outcomeOf s.sq.cmd) (s.withSq { s.sq with profile := profileAfter s.sq.cmd s.sq.profile })

/-- On to the row's target. -/
def follow (t : Target) (s : State) : State :=
  match t with
  | .step n => goToStep n s
  | .done => finish s

/-- The rest of a sequencer step after the row's micro-operation, by the value on the return lines. -/
def advance (s : State) : State :=
  match rowAt s.sq.cmd s.sq.step with
  | none => s
  | some r =>
    let hit := decide (s.portVal = .latch true)
    let t := s.withSq { s.sq with seq := seqAfter s.sq.cmd s.sq.step hit s.sq.seq }
    match r.next with
    | .go k => follow k t
    | .ifDisabled yes no => follow (if s.portVal = .state .disabled then yes else no) t
    | .ifSet yes _ => if hit then follow yes t else pollMissed t
    | .ifHold yes no => follow (if s.sq.hold then yes else no) t

end Sys2Proof.Machine
end

