-- ==== Sys2Proof/Machine/Dispatch.lean ====
section
/-! DEFINITION. One arm per instruction; the meanings are in Machine/PortOps, Configuration, Transmit and Disable. -/

namespace Sys2Proof.Machine

def exec (i : Instr) (s : State) : Host.Outcome State Fault Refusal :=
  match i with
  | .disable => Sys2Proof.Machine.execDisable s
  | .cfgStd => Sys2Proof.Machine.execCfgStd s
  | .cfgLr => Sys2Proof.Machine.execCfgLr s
  | .txp h len => Sys2Proof.Machine.execTxp h len s
  | .txs h len => Sys2Proof.Machine.execTxs h len s
  | .regwrPower img => Sys2Proof.Machine.execRegwrPower img s
  | .regwrMode img => Sys2Proof.Machine.execRegwrMode img s
  | .regwrPktlay0 img => Sys2Proof.Machine.execRegwrPktlay0 img s
  | .regwrPktlay1 => Sys2Proof.Machine.execRegwrPktlay1 s
  | .regwrCrccfg img => Sys2Proof.Machine.execRegwrCrccfg img s
  | .regwrCrcpoly => Sys2Proof.Machine.execRegwrCrcpoly s
  | .regwrCrcseed => Sys2Proof.Machine.execRegwrCrcseed s
  | .regwrCcacfg => Sys2Proof.Machine.execRegwrCcacfg s
  | .regwrFreq img => Sys2Proof.Machine.execRegwrFreq img s
  | .regwrAddrbase => Sys2Proof.Machine.execRegwrAddrbase s
  | .regwrAddrprefix => Sys2Proof.Machine.execRegwrAddrprefix s
  | .regwrTxpower img => Sys2Proof.Machine.execRegwrTxpower img s
  | .regwrShorts img => Sys2Proof.Machine.execRegwrShorts img s
  | .regwrPktptr => Sys2Proof.Machine.execRegwrPktptr s
  | .regrdState => Sys2Proof.Machine.execRegrdState s
  | .taskTxen => Sys2Proof.Machine.execTaskTxen s
  | .taskStart => Sys2Proof.Machine.execTaskStart s
  | .taskDisable => Sys2Proof.Machine.execTaskDisable s
  | .taskRxen => Sys2Proof.Machine.execTaskRxen s
  | .evrdTxready => Sys2Proof.Machine.execEvrdTxready s
  | .evrdPhyend => Sys2Proof.Machine.execEvrdPhyend s
  | .evrdDisabled => Sys2Proof.Machine.execEvrdDisabled s
  | .evclrTxready => Sys2Proof.Machine.execEvclrTxready s
  | .evclrPhyend => Sys2Proof.Machine.execEvclrPhyend s
  | .evclrDisabled => Sys2Proof.Machine.execEvclrDisabled s
  | .delayPowerOff => Sys2Proof.Machine.execDelayPowerOff s
  | .delayPowerOn => Sys2Proof.Machine.execDelayPowerOn s
  | .delayHoldCarrier => Sys2Proof.Machine.execDelayHoldCarrier s
  | .delayShortsTx => Sys2Proof.Machine.execDelayShortsTx s
  | .freqmap f => Sys2Proof.Machine.execFreqmap f s
  | .frame => Sys2Proof.Machine.execFrame s
  | .waitAck e => Sys2Proof.Machine.execWaitAck e s
  | .powerCycle => Sys2Proof.Machine.execPowerCycle s
  | .dis => Sys2Proof.Machine.execDis s

end Sys2Proof.Machine
end

