-- ==== Sys2Proof/Machine/Schedule.lean ====
section
/-! DEFINITION. Whose turn it is (R3, R8, R160), what the sequencer finds to do (the command at the port with `BUSY = 0`, the
micro-program's row with `BUSY = 1`), and where `withFetchWord` puts a word. -/

namespace Sys2Proof.Machine

/-- The state after the host's, the radio's or the reset input's turn, or the sequencer's turn to move in a state. -/
inductive Moved where
  | sequencer (s : State)
  | other (s : State)
  deriving DecidableEq, Repr

/-- The host puts a command at the port; one already held there stays (R60: "the host holds it until `BUSY = 0`"). -/
def hostOffers (o : Offer) (data : List Byte) (s : State) : State :=
  match s.host.offer with
  | some _ => s
  | none => s.withHost { s.host with offer := some o, offerData := data, offerTouched := false }

/-- The host changes the payload of the command it is offering (R53, R185). -/
def hostEditsOffered (data : List Byte) (s : State) : State :=
  s.withHost
    { s.host with offerData := data, offerTouched := s.host.offerTouched || s.host.offer.isSome }

/-- The frame of the transmit command in progress has yet to be built (steps 0 to 5 of R122 and R126). -/
def framePending (s : State) : Bool := s.sq.busy && s.sq.cmd.isTx && decide (s.sq.step ≤ 5)

/-- The host changes the payload of the command in progress: after the frame-build step it may, before it not (R53). -/
def hostEditsAccepted (data : List Byte) (s : State) : State :=
  s.withHost
    { s.host with payload := data, payloadTouched := s.host.payloadTouched || framePending s }

/-- The move at the head of `turns`; the sequencer's when there is none. -/
def takeTurn (s : State) : Moved :=
  match s.turns with
  | [] => .sequencer s
  | .sequencer :: ts => .sequencer (s.withTurns ts)
  | .radio a :: ts => .other ((s.withRadio (radioTurn a s)).spend.withTurns ts)
  | .hostOffers o data :: ts => .other ((hostOffers o data s).withTurns ts)
  | .hostEditsOffered data :: ts => .other ((hostEditsOffered data s).withTurns ts)
  | .hostEditsAccepted data :: ts => .other ((hostEditsAccepted data s).withTurns ts)
  | .reset :: ts => .other ((blockReset s).withTurns ts)

/-- What the sequencer finds to do at its turn. -/
inductive Fetched where
  /-- `BUSY = 0` and nothing offered: it waits (R210) -/
  | nothing
  /-- `BUSY = 0` and a reserved word offered (R69) -/
  | reserved
  /-- `BUSY = 0` and a command offered (R60) -/
  | command (i : Instr)
  /-- `BUSY = 1`, the internal step 0 of a transmit command (R121) -/
  | lengthCheck
  /-- `BUSY = 1`, a row's micro-operation or frame build (R87) -/
  | micro (i : Instr)
  /-- `BUSY = 1` at a step that the command's micro-program does not have -/
  | noRow
  deriving DecidableEq, Repr

/-- The sequencer's fetch. -/
def fetch (s : State) : Fetched :=
  if s.sq.busy then
    match rowAt s.sq.cmd s.sq.step with
    | none => .noRow
    | some r =>
      match r.act with
      | .lengthCheck => .lengthCheck
      | .run i => .micro i
  else
    match s.host.offer with
    | none => .nothing
    | some o =>
      match decode ⟨.command, o.cmd, o.len⟩ with
      | .ok i => .command i
      | .error _ => .reserved

/-- The steps of a command's micro-program. -/
def stepsOf (c : Cmd) : List (Cmd × Nat) := (List.range (program c).length).map (fun n => (c, n))

/-- The first step of any micro-program that runs an instruction. -/
def siteOf (i : Instr) : Option (Cmd × Nat) :=
  ([Cmd.cfgStd, .cfgLr, .txp, .txs, .disable].flatMap stepsOf).find?
    (fun p => (rowAt p.1 p.2).map Row.act = some (.run i))

/-- A word placed where the next step finds it: a micro-operation by selecting a step that issues it, with `BUSY = 1`; a
command at the command port, with `BUSY = 0`. The sequencer moves next. -/
def placeWord (nbits w : Nat) (s : State) : State :=
  let site := (decodeTableWord nbits w).bind siteOf
  match site with
  | some (c, n) =>
    { s with sq := { s.sq with busy := true, cmd := c, step := n }, turns := .sequencer :: s.turns }
  | none =>
    { s with
      sq := { s.sq with busy := false }
      host :=
        { s.host with
          offer := some ⟨(tableWire .command nbits w).word, (tableWire .command nbits w).operand⟩ }
      turns := .sequencer :: s.turns }

end Sys2Proof.Machine
end

