-- ==== Sys2Proof/Machine/Step.lean ====
section
/-! DEFINITION. One step of the machine: one agent's move (R8). -/

namespace Sys2Proof.Machine

/-- One step. A row's micro-operation is followed by the row's "next" (`advance`). -/
def step (s : State) : Host.Outcome State Fault Refusal :=
  match takeTurn s with
  | .other t => .next t
  | .sequencer t =>
    match fetch t with
    | .nothing => .next t
    | .reserved => .next (rejectBadCommand t)
    | .command i => exec i t
    | .lengthCheck => .next (lengthCheck t)
    | .noRow => .refused .noMicroStep
    | .micro i =>
      match exec i t with
      | .next u => .next (advance u)
      | .fault f => .fault f
      | .refused r => .refused r

/-- The state with a table word where the next step fetches it (log entry 5). -/
def State.withFetchWord (s : State) (nbits w : Nat) : State := placeWord nbits w s

end Sys2Proof.Machine
end

