-- ==== Sys2Proof/Machine/Trace.lean ====
section
/-! DEFINITION. The observable trace: the micro-operation words a run puts on the port, with what goes out and comes back beside
them (R62). It is computed from the states; the machine keeps no trace (R18). -/

namespace Sys2Proof.Machine

/-- One micro-operation as the port shows it: its word, the number of its image in R64, and the value back. -/
structure TraceEntry where
  word : Byte
  image : Half
  back : ReadVal
  deriving DecidableEq, Repr

/-- The value a micro-operation returns (R62: `REGRD` and `EVRD` only). -/
def backOf (i : Instr) (s : State) : ReadVal :=
  match i with
  | .regrdState => .state s.radio.rstate
  | .evrdTxready => .latch s.radio.ev.txready
  | .evrdPhyend => .latch s.radio.ev.phyend
  | .evrdDisabled => .latch s.radio.ev.disabled
  | .disable | .cfgStd | .cfgLr | .txp _ _ | .txs _ _
  | .regwrPower _ | .regwrMode _ | .regwrPktlay0 _ | .regwrPktlay1 | .regwrCrccfg _ | .regwrCrcpoly
  | .regwrCrcseed | .regwrCcacfg | .regwrFreq _ | .regwrAddrbase | .regwrAddrprefix
  | .regwrTxpower _ | .regwrShorts _ | .regwrPktptr
  | .taskTxen | .taskStart | .taskDisable | .taskRxen
  | .evclrTxready | .evclrPhyend | .evclrDisabled
  | .delayPowerOff | .delayPowerOn | .delayHoldCarrier | .delayShortsTx
  | .freqmap _ | .frame | .waitAck _ | .powerCycle | .dis => .none

/-- The micro-operation the next step issues, if it issues one (R87: with `BUSY = 0` the port is silent). -/
def issued (s : State) : Option Instr :=
  match takeTurn s with
  | .other _ => none
  | .sequencer t =>
    match fetch t with
    | .micro i => some i
    | .nothing | .reserved | .command _ | .lengthCheck | .noRow => none

/-- What the next step shows on the port; an internal step (the frame build) shows nothing. -/
def traceEntry (s : State) : Option TraceEntry :=
  match issued s with
  | none => none
  | some i =>
    match encode i with
    | none => none
    | some w => some ⟨w.word, w.operand, backOf i s⟩

/-- The trace of the next `n` steps. -/
def traceOf : Nat → State → List TraceEntry
  | 0, _ => []
  | n + 1, s =>
    (traceEntry s).toList ++
      (match step s with
       | .next t => traceOf n t
       | .fault _ | .refused _ => [])

end Sys2Proof.Machine
end

