-- ==== Sys2Proof/Safety.lean ====
section
/-! DEFINITION. The predicates claims use: clean entry (R212), the sequencer's invariant, the radio along a genuine `TXP` and along a
`CFG`, and what stands in the buffer and the registers during a transmission window. -/

namespace Sys2Proof.Machine

/-- `CleanEntry` (R212): the three latches 0 and no radio activity pending. DESIGN CHOICE (log entry 34): R212 says nothing of power
or of a run that has left the specified behaviour; the radio is also powered and not `strayed`. -/
def Radio.clean (r : Radio) : Prop :=
  r.rstate = .disabled ∧ r.ev = Latches.clear ∧ r.pending = [] ∧ r.powered = true ∧ r.strayed = false

/-- `SEQ` while a command stands at a step (R122, R123, R126). -/
def seqAt (c : Cmd) (n : Nat) : Seq :=
  match c, n with
  | .txp, 9 => .warmingUp
  | .txp, 10 | .txp, 11 | .txp, 12 => .armed
  | .txp, 13 => .transmitting
  | .txs, 9 => .chained
  | _, _ => .idle

/-- The sequencer between commands (R10, R11, R13). -/
def Sequencer.resting (q : Sequencer) : Prop := q.step = 0 ∧ q.seq = .idle ∧ q.pollcnt = 0

/-- The sequencer with a command in progress: `STEP` a step of its micro-program, `SEQ` as the tables say, the length
checked, no operands where there are none (R12), nothing counted yet at step 0. -/
def Sequencer.working (maxPacketLen : Nat) (q : Sequencer) : Prop :=
  q.step < (program q.cmd).length ∧ q.seq = seqAt q.cmd q.step ∧
  (q.cmd.isTx = true → 1 ≤ q.step → q.len.toNat < maxPacketLen - 1) ∧
  (q.cmd.isTx = false → q.hold = false ∧ q.len = 0) ∧
  (q.step = 0 → q.pollcnt = 0)

/-- `POLLCNT` counts below `WAIT_BOUND`; unbounded, it and `TIMEOUT` do not occur (R17, R180, R196). -/
def Sequencer.countsWithin (bound : Option Nat) (q : Sequencer) : Prop :=
  match bound with
  | none => q.pollcnt = 0 ∧ q.result ≠ .timeout
  | some n => q.pollcnt < n

/-- The invariant of the machine: parameters within R5; `TXBUF` in canonical form with nothing at or past its last byte
(R41); the sequencer resting or working. -/
def State.Inv (s : State) : Prop :=
  s.cfg.wf = true ∧
  s.txbuf.wf = true ∧
  (∀ c ∈ s.txbuf, c.1 + 1 < s.cfg.maxPacketLen) ∧
  s.sq.countsWithin s.cfg.waitBound ∧
  (s.sq.busy = false → s.sq.resting) ∧
  (s.sq.busy = true → s.sq.working s.cfg.maxPacketLen)

/-- A radio that owes nothing and stands in a state with given latches. -/
def Radio.stands (r : Radio) (st : RState) (ev : Latches) : Prop := r.rstate = st ∧ r.ev = ev

/-- The latches with one of them set. -/
def Latches.only (e : PortEvent) : Latches := Latches.clear.put e true

/-- The radio and its latches at each step of a `TXP` that began from clean entry (R122, R163 to R166). -/
def txpRadioAt (n : Nat) (r : Radio) : Prop :=
  match n with
  | 0 | 1 | 5 | 6 | 7 | 8 => r.stands .disabled Latches.clear
  | 9 => r.stands .txRampUp Latches.clear ∨ r.stands .txIdle (Latches.only .txready)
  | 10 => r.stands .txIdle (Latches.only .txready)
  | 11 | 12 => r.stands .txIdle Latches.clear
  | 13 => r.stands .tx Latches.clear ∨ r.stands .txIdle (Latches.only .phyend)
  | 14 => r.stands .txIdle (Latches.only .phyend)
  | 15 | 16 => r.stands .txIdle Latches.clear
  | 17 => r.stands .txDisable Latches.clear ∨ r.stands .disabled (Latches.only .disabled)
  | 18 => r.stands .disabled (Latches.only .disabled)
  | _ => False

/-- A `TXP` in progress, on a configured radio, that began from clean entry and has seen genuine events only. -/
def State.genuineTxp (s : State) : Prop :=
  s.sq.busy = true ∧ s.sq.cmd = .txp ∧ s.sq.profile ≠ .none ∧ txpRadioAt s.sq.step s.radio ∧
  s.radio.pending = [] ∧ s.radio.powered = true ∧ s.radio.strayed = false ∧
  (8 ≤ s.sq.step → s.radio.regs.shorts = [])

/-- During a `CFG`: unpowered between the two writes of `POWER`, clean after the second (R101, R169). -/
def State.cfgPowerAt (s : State) : Prop :=
  s.sq.busy = true → s.sq.cmd.isCfg = true →
    ((s.sq.step = 5 ∨ s.sq.step = 6) → s.radio.powered = false) ∧
    (7 ≤ s.sq.step → s.radio.clean ∧ s.radio.regs.shorts = [])

/-- During a transmit command: the length byte in place once the frame is built, the packet pointer and the shortcut set
once they are written (R48, R49, R122, R126). -/
def State.windowAt (s : State) : Prop :=
  s.sq.busy = true → s.sq.cmd.isTx = true →
    (6 ≤ s.sq.step → s.txbuf.read 0 = some (lengthByte s.sq.len)) ∧
    (7 ≤ s.sq.step → s.radio.regs.pktptr = s.cfg.txbufAddr) ∧
    (8 ≤ s.sq.step → s.radio.regs.shorts = if s.sq.cmd = .txp then [] else shortsChain)

/-- A turn in which the reset input is asserted comes next. -/
def State.resetNext (s : State) : Prop := ∃ ts, s.turns = .reset :: ts

/-- The turns in which the sequencer moves. -/
def seqTurns (n : Nat) : List Turn := List.replicate n .sequencer

/-- A radio that answers: an internal completion, any shortcut delivered in the same step. -/
def radioCompletes : Turn := .radio (.complete true false)

/-- A radio that answers in `Cca` with a busy channel. -/
def radioFindsBusy : Turn := .radio (.complete false false)

/-- The words one `TXP` puts on the port: the read of `STATE`, `PKTPTR`, `SHORTS`, one `TXEN`, `a` and one more reads of `TXREADY` and its clear,
the hold if asked for, one `START`, the same of `PHYEND`, and the final Disable (R122). -/
def txpWords (h : Bool) (a b c : Nat) : List Byte :=
  [0x2F, 0x0E, 0x0D, 0x40] ++ List.replicate (a + 1) 0x60 ++ [0x80] ++ (if h then [0xA2] else []) ++ [0x41] ++
    List.replicate (b + 1) 0x61 ++ [0x81, 0x2F, 0x42] ++ List.replicate (c + 1) 0x62 ++ [0x82]

/-- The moves of one `TXP` with a radio that responds after `a`, `b` and `c` unsuccessful polls of `txready`, `phyend` and
`disabled` (R122, R172). -/
def txpTurns (h : Bool) (a b c : Nat) : List Turn :=
  seqTurns (7 + a) ++ [radioCompletes] ++ seqTurns (if h then 4 else 3) ++ seqTurns b ++ [radioCompletes] ++
    seqTurns 4 ++ seqTurns c ++ [radioCompletes] ++ seqTurns 2

end Sys2Proof.Machine
end

