-- ==== Sys2Proof/Certificates/Slice0/Obligations.lean ====
section
/-! DEFINITION. The statements for the provers, from the numbered rules of spec/. Where a statement says that `exec i s` answers
`{ s with … }`, everything it does not name is unchanged: its frame is the equation. -/

open Sys2Proof Sys2Proof.Machine

/-! ### Encodings -/

/-- Decode and encode agree (30_encoding.md, both formats): every encodable instruction, with every operand, is what
its wire decodes to, and a wire that decodes is its instruction's wire, up to the operand `DISABLE` and `CFG` ignore. -/
def Obligations.DecodeAndEncodeAgree : Prop :=
  (∀ i w, encode i = some w → decode w = .ok i) ∧
  (∀ w i, decode w = .ok i → encode i = some w.canonical)

/-- Words written out from the patterns of R60 and R62. R64 gives the images no numbers: that 1 beside `REGWR SHORTS` stands for
`SHORTS_CHAIN` is the model's choice (log entry 7). -/
def Obligations.WordsOfTheSpecDecode : Prop :=
  decode ⟨.command, 0b00000000, 7⟩ = .ok .disable ∧
  decode ⟨.command, 0b00001001, 0⟩ = .ok .cfgLr ∧
  decode ⟨.command, 0b00001010, 10⟩ = .ok (.txp true 10) ∧
  decode ⟨.command, 0b00010010, 65535⟩ = .ok (.txs false 65535) ∧
  decode ⟨.micro, 0b00001101, 1⟩ = .ok (.regwrShorts .chain) ∧
  decode ⟨.micro, 0b00101111, 0⟩ = .ok .regrdState ∧
  decode ⟨.micro, 0b01000011, 0⟩ = .ok .taskRxen ∧
  decode ⟨.micro, 0b01100010, 0⟩ = .ok .evrdDisabled ∧
  decode ⟨.micro, 0b10000001, 0⟩ = .ok .evclrPhyend ∧
  decode ⟨.micro, 0b10100010, 0⟩ = .ok .delayHoldCarrier

/-- R69: seven legal command words; every other one, offered with `BUSY = 0`, is rejected with `REJECTED_BADCMD`, issues
nothing and changes nothing else of the block. That the host's offer is used up is the model's choice (log entry 9). `STEP` is 0 with
`BUSY = 0` (R13). -/
def Obligations.ReservedCommandWordsAreRejected : Prop :=
  (∀ cmd len, (∃ i, decode ⟨.command, cmd, len⟩ = .ok i) ↔
    cmd.toNat ∈ [0x00, 0x01, 0x02, 0x09, 0x0A, 0x12, 0x1A]) ∧
  (∀ (s : State) t cmd len, takeTurn s = .sequencer t → t.sq.busy = false → t.sq.step = 0 →
    t.host.offer = some ⟨cmd, len⟩ → cmd.toNat ∉ [0x00, 0x01, 0x02, 0x09, 0x0A, 0x12, 0x1A] →
    traceEntry s = none ∧
    step s = .next
      { t with
        sq := { t.sq with result := .rejectedBadcmd }
        host := { t.host with offer := none } })

/-- R70: no trace of the block holds a word but the twenty-nine of V-UOP, and the decoder of the register port gives no
other word a meaning. -/
def Obligations.TracesHoldOnlyIssuedWords : Prop :=
  (∀ n (s : State), ∀ e ∈ traceOf n s, e.word.toNat ∈
    [0x00, 0x01, 0x03, 0x04, 0x05, 0x06, 0x07, 0x08, 0x09, 0x0A, 0x0B, 0x0C, 0x0D, 0x0E, 0x2F,
     0x40, 0x41, 0x42, 0x43, 0x60, 0x61, 0x62, 0x80, 0x81, 0x82, 0xA0, 0xA1, 0xA2, 0xA3]) ∧
  (∀ word img, word.toNat ∉
    [0x00, 0x01, 0x03, 0x04, 0x05, 0x06, 0x07, 0x08, 0x09, 0x0A, 0x0B, 0x0C, 0x0D, 0x0E, 0x2F,
     0x40, 0x41, 0x42, 0x43, 0x60, 0x61, 0x62, 0x80, 0x81, 0x82, 0xA0, 0xA1, 0xA2, 0xA3] →
    decode ⟨.micro, word, img⟩ = .error .neverIssued)

/-! ### Steps and commands -/

/-- At the sequencer's turn a step is `exec` of the command at the port (`BUSY = 0`), or `exec` of the row's
micro-operation followed by the row's `advance` (`BUSY = 1`), or the length check; with nothing to do it waits. -/
def Obligations.StepRunsTheFetchedInstruction : Prop :=
  ∀ (s : State) t, takeTurn s = .sequencer t →
    (∀ o i, t.sq.busy = false → t.host.offer = some o → decode ⟨.command, o.cmd, o.len⟩ = .ok i →
      step s = exec i t) ∧
    (t.sq.busy = false → t.host.offer = none → step s = .next t) ∧
    (∀ r i, t.sq.busy = true → rowAt t.sq.cmd t.sq.step = some r → r.act = .run i →
      (∀ u, exec i t = .next u → step s = .next (advance u)) ∧
      (∀ f, exec i t = .fault f → step s = .fault f) ∧
      (∀ q, exec i t = .refused q → step s = .refused q)) ∧
    (∀ r, t.sq.busy = true → rowAt t.sq.cmd t.sq.step = some r → r.act = .lengthCheck →
      step s = .next (lengthCheck t))

/-- The word a fetched instruction is placed with is the word its step runs: `withFetchWord` puts a command at the
command port and selects the step of a micro-operation. -/
def Obligations.PlacedWordRunsNext : Prop :=
  ∀ (s : State) nbits w i, decodeTableWord nbits w = some i →
    ∃ t, takeTurn (s.withFetchWord nbits w) = .sequencer t ∧
      (fetch t = .command i ∨ fetch t = .micro i)

/-- R60: acceptance, for each command: `BUSY <- 1; CMD, HOLD, LEN <- decoded; STEP <- 0`; `SEQ`, `RESULT`, `PROFILE`,
`TXBUF` and the radio are unchanged. The model's choices: the offer is used up, a transmit command takes the offered payload and the others keep
the payload buffer (log entry 9), and `POLLCNT` is 0 (log entry 28). -/
def Obligations.CommandsAreAccepted : Prop :=
  ∀ (s : State), s.sq.busy = false →
    exec .disable s = .next
      { s with
        sq := { s.sq with busy := true, cmd := .disable, hold := false, len := 0, step := 0, pollcnt := 0 }
        host := { s.host with offer := none } } ∧
    exec .cfgStd s = .next
      { s with
        sq := { s.sq with busy := true, cmd := .cfgStd, hold := false, len := 0, step := 0, pollcnt := 0 }
        host := { s.host with offer := none } } ∧
    exec .cfgLr s = .next
      { s with
        sq := { s.sq with busy := true, cmd := .cfgLr, hold := false, len := 0, step := 0, pollcnt := 0 }
        host := { s.host with offer := none } } ∧
    (∀ h len, exec (.txp h len) s = .next
      { s with
        sq := { s.sq with busy := true, cmd := .txp, hold := h, len := len, step := 0, pollcnt := 0 }
        host :=
          { s.host with
            offer := none, payload := s.host.offerData, payloadTouched := s.host.offerTouched } }) ∧
    (∀ h len, exec (.txs h len) s = .next
      { s with
        sq := { s.sq with busy := true, cmd := .txs, hold := h, len := len, step := 0, pollcnt := 0 }
        host :=
          { s.host with
            offer := none, payload := s.host.offerData, payloadTouched := s.host.offerTouched } })

/-- R60: with `BUSY = 1` a command has no effect and the host's offer stays; R12: `CMD`, `HOLD` and `LEN` are constant
until the command ends. -/
def Obligations.CommandInProgressIsNotDisturbed : Prop :=
  (∀ (s : State) i, s.sq.busy = true → (i = .disable ∨ i = .cfgStd ∨ i = .cfgLr ∨ (∃ h len, i = .txp h len) ∨
    ∃ h len, i = .txs h len) → exec i s = .next s) ∧
  (∀ (s : State) t, s.sq.busy = true → ¬ s.resetNext → step s = .next t →
    t.sq.cmd = s.sq.cmd ∧ t.sq.hold = s.sq.hold ∧ t.sq.len = s.sq.len ∧
    (s.host.offer ≠ none → t.host.offer = s.host.offer))

/-- R121, R181, R188: at step 0 of `TXP` and `TXS` a payload of `MAX_PACKET_LEN - 1` bytes or more ends the command:
`RESULT <- REJECTED_OVERSIZE; BUSY <- 0; STEP <- 0`, no micro-operation, nothing else; a shorter one goes on to step 1. That `POLLCNT` is 0 with
the move to step 1 is the model's choice (log entry 28). -/
def Obligations.LengthCheckRejectsOversize : Prop :=
  ∀ (s : State) t, takeTurn s = .sequencer t → t.sq.busy = true → t.sq.cmd.isTx = true → t.sq.step = 0 →
    traceEntry s = none ∧
    (t.cfg.maxPacketLen - 1 ≤ t.sq.len.toNat →
      step s = .next { t with sq := { t.sq with result := .rejectedOversize, busy := false, step := 0 } }) ∧
    (t.sq.len.toNat < t.cfg.maxPacketLen - 1 →
      step s = .next { t with sq := { t.sq with step := 1, pollcnt := 0 } })

/-! ### Micro-operations -/

/-- R80 with R20, R21, R25, R29: the one-field registers written in `Disabled` take the image's code; nothing else changes
but the free-value counter. `POWER_ON` on a radio that is on is such a write (log entry 13). -/
def Obligations.OneFieldRegistersAreWritten : Prop :=
  ∀ (s : State), s.radio.rstate = .disabled →
    (∀ img, exec (.regwrMode img) s = .next
      { s with
        radio := { s.radio with regs := { s.radio.regs with
          mode := match img with | .std => s.cfg.codes.modeStd | .lr => s.cfg.codes.modeLr } }
        tick := s.tick + 1 }) ∧
    (∀ img, exec (.regwrCrccfg img) s = .next
      { s with
        radio := { s.radio with regs := { s.radio.regs with
          crclen := match img with | .std => s.cfg.codes.crcLenStd | .lr => s.cfg.codes.crcDisabled } }
        tick := s.tick + 1 }) ∧
    exec .regwrCrcpoly s = .next
      { s with
        radio := { s.radio with regs := { s.radio.regs with crcpoly := s.cfg.codes.crcPolyStd } }
        tick := s.tick + 1 } ∧
    exec .regwrCrcseed s = .next
      { s with
        radio := { s.radio with regs := { s.radio.regs with crcseed := s.cfg.codes.crcSeedStd } }
        tick := s.tick + 1 } ∧
    (∀ img, exec (.regwrTxpower img) s = .next
      { s with
        radio := { s.radio with regs := { s.radio.regs with
          txpower := match img with | .std => s.cfg.codes.txpower0dbm | .lr => s.cfg.codes.txpower8dbm } }
        tick := s.tick + 1 }) ∧
    (s.radio.powered = true → exec (.regwrPower .on) s = .next
      { s with
        radio := { s.radio with regs := { s.radio.regs with power := s.cfg.codes.powerOn } }
        tick := s.tick + 1 })

/-- R80 with R23 and R24: the packet-layout registers written in `Disabled`. `PKTLAY0_STD` determines `LFLEN` and `CRCINC`
only: for the other three fields the statement promises nothing. -/
def Obligations.PacketLayoutRegistersAreWritten : Prop :=
  ∀ (s : State), s.radio.rstate = .disabled →
    (∃ l, l.lflen = s.cfg.codes.pktlay0Std.lflen ∧ l.crcinc = s.cfg.codes.pktlay0Std.crcinc ∧
      exec (.regwrPktlay0 .std) s = .next
        { s with
          radio := { s.radio with regs := { s.radio.regs with pktlay0 := l } }
          tick := s.tick + 1 }) ∧
    exec (.regwrPktlay0 .lr) s = .next
      { s with
        radio := { s.radio with regs := { s.radio.regs with pktlay0 := s.cfg.codes.pktlay0Lr } }
        tick := s.tick + 1 } ∧
    exec .regwrPktlay1 s = .next
      { s with
        radio := { s.radio with regs := { s.radio.regs with pktlay1 := s.cfg.codes.pktlay1Lr } }
        tick := s.tick + 1 }

/-- R80 with R26 and R28: the channel-assessment and address registers written in `Disabled`. -/
def Obligations.AssessmentAndAddressRegistersAreWritten : Prop :=
  ∀ (s : State), s.radio.rstate = .disabled →
    exec .regwrCcacfg s = .next
      { s with
        radio := { s.radio with regs := { s.radio.regs with
          ccamode := s.cfg.codes.ccaModeEd, thresholds := s.cfg.codes.ccaThresholdsStd } }
        tick := s.tick + 1 } ∧
    exec .regwrAddrbase s = .next
      { s with
        radio := { s.radio with regs := { s.radio.regs with addrBase := s.cfg.codes.addrBaseLr } }
        tick := s.tick + 1 } ∧
    exec .regwrAddrprefix s = .next
      { s with
        radio := { s.radio with regs := { s.radio.regs with addrPrefix := s.cfg.codes.addrPrefixLr } }
        tick := s.tick + 1 }

/-- R67, R103, R104: with the parameters of R5, `REGWR FREQ` written in `Disabled` stores the pair of the profile's
frequency; LongRange's is always `(F_LR_MHZ - 2360, true)`. Outside the domain it has no pair (R185). For an `F_STD_MHZ` above 65535, which the 16 bits
of R67 and R100 do not hold and R5 allows, the exact pair is the model's choice (log entry 31). -/
def Obligations.FrequencyRegisterIsWritten : Prop :=
  ∀ (s : State), s.radio.rstate = .disabled →
    (s.cfg.wf = true → s.cfg.fStdMhz < 2400 → exec (.regwrFreq .std) s = .next
      { s with
        radio := { s.radio with regs := { s.radio.regs with
          freqValue := s.cfg.fStdMhz - 2360, freqBand := true } }
        tick := s.tick + 1 }) ∧
    (s.cfg.wf = true → 2400 ≤ s.cfg.fStdMhz → exec (.regwrFreq .std) s = .next
      { s with
        radio := { s.radio with regs := { s.radio.regs with
          freqValue := s.cfg.fStdMhz - 2400, freqBand := false } }
        tick := s.tick + 1 }) ∧
    (s.cfg.wf = true → exec (.regwrFreq .lr) s = .next
      { s with
        radio := { s.radio with regs := { s.radio.regs with
          freqValue := s.cfg.fLrMhz - 2360, freqBand := true } }
        tick := s.tick + 1 }) ∧
    (s.cfg.inFreqDomain s.cfg.fStdMhz = false →
      exec (.regwrFreq .std) s = .refused .frequencyOutsideDomain) ∧
    (s.cfg.inFreqDomain s.cfg.fLrMhz = false →
      exec (.regwrFreq .lr) s = .refused .frequencyOutsideDomain)

/-- R80 with R30, R31, R127: `SHORTS` and `PKTPTR` are written in every radio state, and nothing else changes. -/
def Obligations.ShortsAndPacketPointerAreWritten : Prop :=
  ∀ (s : State),
    exec (.regwrShorts .empty) s = .next
      { s with radio := { s.radio with regs := { s.radio.regs with shorts := [] } } } ∧
    exec (.regwrShorts .chain) s = .next
      { s with radio := { s.radio with regs := { s.radio.regs with
        shorts :=
          [(.rxReady, .ccaStart), (.ccaIdle, .port .txen), (.port .txready, .port .start),
           (.ccaBusy, .port .disable), (.port .phyend, .port .disable)] } } } ∧
    exec .regwrPktptr s = .next
      { s with radio := { s.radio with regs := { s.radio.regs with pktptr := s.cfg.txbufAddr } } }

/-- R169: `POWER_OFF` followed by `POWER_ON` resets the peripheral: `RSTATE = Disabled`, latches 0, `SHORTS = {}`. Each completes,
and nothing but the radio and the free-value counter changes. That a `POWER_OFF` outside `Disabled`, which R171 leaves open, still
takes the power away and writes `POWER`, so that the reset comes whatever the radio was doing, is the model's choice (log entries 11
and 13). -/
def Obligations.PowerTransitionResetsTheRadio : Prop :=
  ∀ (s : State), ∃ t u,
    exec (.regwrPower .off) s = .next t ∧ exec (.regwrPower .on) t = .next u ∧
    t.radio.powered = false ∧ t.radio.regs.power = s.cfg.codes.powerOff ∧
    (s.radio.rstate = .disabled → t.radio =
      { s.radio with powered := false, regs := { s.radio.regs with power := s.cfg.codes.powerOff } }) ∧
    t = { s with radio := t.radio, tick := s.tick + 1 } ∧
    u.radio.clean ∧ u.radio.regs.shorts = [] ∧ u.radio.regs.power = s.cfg.codes.powerOn ∧
    u = { s with radio := u.radio, tick := s.tick + 2 }

/-- R171, R173: a configuration write while the radio is not `Disabled` still completes for the sequencer; it may do anything
to the radio's state and to the register written, but clears no latch. R171 calls the effect unspecified: that no other register is
touched is the model's choice (log entry 11), and that power and the pending triggers are kept too (log entry 10). -/
def Obligations.WriteOutsideDisabledStaysInTheRadio : Prop :=
  ∀ (s : State) i, s.radio.rstate ≠ .disabled → (s.radio.powered = true ∨ i ≠ .regwrPower .on) → s.cfg.wf = true →
    (i = .regwrPower .on ∨ (∃ p, i = .regwrMode p) ∨ (∃ p, i = .regwrPktlay0 p) ∨ i = .regwrPktlay1 ∨
      (∃ p, i = .regwrCrccfg p) ∨ i = .regwrCrcpoly ∨ i = .regwrCrcseed ∨ i = .regwrCcacfg ∨
      (∃ p, i = .regwrFreq p) ∨ i = .regwrAddrbase ∨ i = .regwrAddrprefix ∨ ∃ p, i = .regwrTxpower p) →
    ∃ t, exec i s = .next t ∧
      t = { s with radio := t.radio, tick := s.tick + 1 } ∧
      t.radio.strayed = true ∧ t.radio.powered = s.radio.powered ∧ t.radio.pending = s.radio.pending ∧
      (∀ e, s.radio.ev.get e = true → t.radio.ev.get e = true) ∧
      t.radio.regs.shorts = s.radio.regs.shorts ∧ t.radio.regs.pktptr = s.radio.regs.pktptr ∧
      t.radio.regs.modcfg = s.radio.regs.modcfg ∧
      (i ≠ .regwrPower .on → t.radio.regs.power = s.radio.regs.power) ∧
      ((∀ p, i ≠ .regwrMode p) → t.radio.regs.mode = s.radio.regs.mode) ∧
      ((∀ p, i ≠ .regwrPktlay0 p) → t.radio.regs.pktlay0 = s.radio.regs.pktlay0) ∧
      (i ≠ .regwrPktlay1 → t.radio.regs.pktlay1 = s.radio.regs.pktlay1) ∧
      ((∀ p, i ≠ .regwrCrccfg p) → t.radio.regs.crclen = s.radio.regs.crclen) ∧
      (i ≠ .regwrCrcpoly → t.radio.regs.crcpoly = s.radio.regs.crcpoly) ∧
      (i ≠ .regwrCrcseed → t.radio.regs.crcseed = s.radio.regs.crcseed) ∧
      (i ≠ .regwrCcacfg → t.radio.regs.ccamode = s.radio.regs.ccamode ∧
        t.radio.regs.thresholds = s.radio.regs.thresholds) ∧
      ((∀ p, i ≠ .regwrFreq p) → t.radio.regs.freqValue = s.radio.regs.freqValue ∧
        t.radio.regs.freqBand = s.radio.regs.freqBand) ∧
      (i ≠ .regwrAddrbase → t.radio.regs.addrBase = s.radio.regs.addrBase) ∧
      (i ≠ .regwrAddrprefix → t.radio.regs.addrPrefix = s.radio.regs.addrPrefix) ∧
      ((∀ p, i ≠ .regwrTxpower p) → t.radio.regs.txpower = s.radio.regs.txpower)

/-- R162, R164, R166, R167: what a triggered task does to a powered radio in the states those rules give; a
`disable` in `TxDisable`, in `RxDisable` and in a further state of the radio (R161) follows log entry 12, the model's choice. That
`START` empties `air`, the record of the bytes the radio has read, is the model's choice (log entry 24). Outside the case of R130, of which the
next statement speaks. -/
def Obligations.TasksMoveTheRadio : Prop :=
  ∀ (s : State), s.radio.powered = true → s.unconfiguredTx = false →
    (s.radio.rstate = .disabled → exec .taskTxen s = .next
      { s with radio := { s.radio with rstate := .txRampUp }, tick := s.tick + 1 }) ∧
    (s.radio.rstate = .txIdle → exec .taskStart s = .next
      { s with radio := { s.radio with rstate := .tx, air := [] }, tick := s.tick + 1 }) ∧
    (s.radio.rstate = .disabled → exec .taskRxen s = .next
      { s with radio := { s.radio with rstate := .rxRampUp }, tick := s.tick + 1 }) ∧
    (s.radio.rstate ∈ [.txRampUp, .txIdle, .tx, .txDisable] ∨ (∃ n, s.radio.rstate = .other n) → exec .taskDisable s = .next
      { s with radio := { s.radio with rstate := .txDisable }, tick := s.tick + 1 }) ∧
    (s.radio.rstate ∈ [.rxRampUp, .rxIdle, .cca, .rxDisable] → exec .taskDisable s = .next
      { s with radio := { s.radio with rstate := .rxDisable }, tick := s.tick + 1 })

/-- R171, R173, R130: a trigger in a state with no reaction, without power, or of a transmit command with no profile applied, completes for
the sequencer; the radio may change state and set latches, but clears none and keeps its registers. That the registers, the pending
triggers and the bytes read are kept is the model's choice (log entries 10 and 30). -/
def Obligations.UndescribedTriggersStayInTheRadio : Prop :=
  ∀ (s : State) i,
    ((i = .taskTxen ∧ (s.radio.powered = false ∨ s.unconfiguredTx = true ∨ s.radio.rstate ≠ .disabled)) ∨
     (i = .taskStart ∧ (s.radio.powered = false ∨ s.unconfiguredTx = true ∨ s.radio.rstate ≠ .txIdle)) ∨
     (i = .taskRxen ∧ (s.radio.powered = false ∨ s.unconfiguredTx = true ∨ s.radio.rstate ≠ .disabled)) ∨
     (i = .taskDisable ∧ (s.radio.powered = false ∨ s.unconfiguredTx = true ∨ s.radio.rstate = .disabled))) →
    ∃ t, exec i s = .next t ∧ t = { s with radio := t.radio, tick := s.tick + 1 } ∧
      t.radio.strayed = true ∧ t.radio.regs = s.radio.regs ∧ t.radio.powered = s.radio.powered ∧
      t.radio.pending = s.radio.pending ∧ t.radio.air = s.radio.air ∧
      (∀ e, s.radio.ev.get e = true → t.radio.ev.get e = true)

/-- R83: `EVRD e` returns the latch and writes nothing; reading does not clear it. -/
def Obligations.EventReadReturnsTheLatch : Prop :=
  ∀ (s : State),
    exec .evrdTxready s = .next { s with portVal := .latch s.radio.ev.txready } ∧
    exec .evrdPhyend s = .next { s with portVal := .latch s.radio.ev.phyend } ∧
    exec .evrdDisabled s = .next { s with portVal := .latch s.radio.ev.disabled }

/-- R84: `EVCLR e` clears the named latch and nothing else. -/
def Obligations.EventClearClearsOneLatch : Prop :=
  ∀ (s : State),
    exec .evclrTxready s = .next
      { s with radio := { s.radio with ev := { s.radio.ev with txready := false } } } ∧
    exec .evclrPhyend s = .next
      { s with radio := { s.radio with ev := { s.radio.ev with phyend := false } } } ∧
    exec .evclrDisabled s = .next
      { s with radio := { s.radio with ev := { s.radio.ev with disabled := false } } }

/-- R81: `REGRD STATE` returns the radio's state at the moment of the read and changes nothing. R85: a `DELAY` writes no
state. -/
def Obligations.StateReadAndDelaysWriteNothing : Prop :=
  ∀ (s : State),
    exec .regrdState s = .next { s with portVal := .state s.radio.rstate } ∧
    exec .delayPowerOff s = .next s ∧ exec .delayPowerOn s = .next s ∧
    exec .delayHoldCarrier s = .next s ∧ exec .delayShortsTx s = .next s

/-! ### Functions and pseudo-operations -/

/-- R100: `FREQMAP` inside its domain gives `(f - 2360, true)` below 2400 and `(f - 2400, false)` from 2400 on, changing no
state but the encoder's output lines; outside the domain it has no value; inside it the pair determines `f`. -/
def Obligations.FreqmapMapsItsDomain : Prop :=
  (∀ (s : State) f, 2360 ≤ f.toNat → f.toNat ≤ s.cfg.freqMaxMhz → f.toNat < 2400 →
    exec (.freqmap f) s = .next { s with freqOut := (f.toNat - 2360, true) }) ∧
  (∀ (s : State) f, 2400 ≤ f.toNat → f.toNat ≤ s.cfg.freqMaxMhz →
    exec (.freqmap f) s = .next { s with freqOut := (f.toNat - 2400, false) }) ∧
  (∀ (s : State) f, f.toNat < 2360 ∨ s.cfg.freqMaxMhz < f.toNat →
    exec (.freqmap f) s = .refused .frequencyOutsideDomain) ∧
  (∀ (s : State) f g t u, exec (.freqmap f) s = .next t → exec (.freqmap g) s = .next u →
    t.freqOut = u.freqOut → f = g)

/-- R120, R41: `FRAME` with `L < MAX_PACKET_LEN - 1` completes: `TXBUF[0] = L + 2`, `TXBUF[1 + i] = data[i]` for the payload
the host kept in place, and every other byte reads as before. Nothing but `TXBUF` and the free-value counter changes. -/
def Obligations.FrameFillsTheBuffer : Prop :=
  ∀ (s : State), s.cfg.maxPacketLen ≤ 255 → s.sq.len.toNat < s.cfg.maxPacketLen - 1 →
    ∃ m, exec .frame s = .next { s with txbuf := m, tick := s.tick + 1 } ∧
      (s.txbuf.wf = true → m.wf = true) ∧
      (∃ b, m.read 0 = some b ∧ b.toNat = s.sq.len.toNat + 2) ∧
      (∀ i, i < s.sq.len.toNat → s.host.payloadTouched = false → i < s.host.payload.length →
        m.read (1 + i) = s.host.payload[i]?) ∧
      (∀ a, s.sq.len.toNat < a → m.read a = s.txbuf.read a)

/-- A `FRAME` whose length check was left out faults exactly when it would need an index past the buffer's end (R14). -/
def Obligations.FrameFaultsPastTheBuffer : Prop :=
  ∀ (s : State), exec .frame s = .fault .outsideTxbuf ↔ s.cfg.maxPacketLen ≤ s.sq.len.toNat

/-- R86: `WaitAck(e)` polls: a read of 0 leaves it at its first step, whatever the number of repeats; a read of 1 takes it
to its second, which clears the latch and ends it. R196, the variant: with `WAIT_BOUND = some n` reads of 0 are counted and the `n`-th ends
it in `TIMEOUT`. That its place is held in `sub`, and where `POLLCNT` is set to 0, is the model's choice (log entries 8 and 28). -/
def Obligations.WaitAckPollsThenClears : Prop :=
  ∀ (s : State) e,
    (s.sub = 0 → s.radio.ev.get e = false →
      (s.cfg.waitBound = none → exec (.waitAck e) s = .next { s with portVal := .latch false }) ∧
      (s.cfg.waitBound = some (s.sq.pollcnt + 1) → exec (.waitAck e) s = .next
        { s with
          portVal := .latch false
          sq := { s.sq with result := .timeout, busy := false, step := 0, seq := .idle, pollcnt := 0 } }) ∧
      (∀ n, s.cfg.waitBound = some n → n ≠ s.sq.pollcnt + 1 → exec (.waitAck e) s = .next
        { s with portVal := .latch false, sq := { s.sq with pollcnt := s.sq.pollcnt + 1 } })) ∧
    (s.sub = 0 → s.radio.ev.get e = true → exec (.waitAck e) s = .next
      { s with portVal := .latch true, sub := 1, sq := { s.sq with pollcnt := 0 } }) ∧
    (s.sub = 1 → ∃ t, exec (.waitAck e) s = .next t ∧
      t = { s with radio := { s.radio with ev := t.radio.ev }, sub := 0, sq := { s.sq with pollcnt := 0 } } ∧
      t.radio.ev.get e = false ∧ ∀ e', e' ≠ e → t.radio.ev.get e' = s.radio.ev.get e')

/-- R101: `POWER_CYCLE` is its four micro-operations in order: off, delay, on, delay; it ends with the radio reset (R169).
The model's choices: by itself it takes one operation at a time, its place held in `sub` (log entry 8), and a `POWER_OFF` outside
`Disabled` still takes the power away (log entries 11 and 13). -/
def Obligations.PowerCycleIsItsFourOperations : Prop :=
  ∀ (s : State), s.sub = 0 → ∃ t1 t2 t3 t4,
    exec .powerCycle s = .next t1 ∧ exec .powerCycle t1 = .next t2 ∧
    exec .powerCycle t2 = .next t3 ∧ exec .powerCycle t3 = .next t4 ∧
    exec (.regwrPower .off) s = .next { t1 with sub := 0 } ∧ t1.sub = 1 ∧
    exec .delayPowerOff t1 = .next { t2 with sub := 1 } ∧ t2.sub = 2 ∧
    exec (.regwrPower .on) t2 = .next { t3 with sub := 2 } ∧ t3.sub = 3 ∧
    exec .delayPowerOn t3 = .next { t4 with sub := 3 } ∧ t4.sub = 0 ∧
    t4.radio.clean ∧ t4.radio.regs.shorts = [] ∧
    t4 = { s with radio := t4.radio, tick := s.tick + 2 }

/-- R150: `DIS`, step by step: already disabled it is one read and touches no latch; otherwise it triggers, polls (R196 in the variant with
`WAIT_BOUND` finite), and clears `EV[DISABLED]`. That its place is held in `sub`, and where `POLLCNT` is set to 0, is the model's choice (log
entries 8 and 28). -/
def Obligations.DisIsItsFourSteps : Prop :=
  ∀ (s : State),
    (s.sub = 0 → s.radio.rstate = .disabled →
      exec .dis s = .next { s with portVal := .state .disabled }) ∧
    (s.sub = 0 → s.radio.rstate ≠ .disabled →
      exec .dis s = .next
        { s with portVal := .state s.radio.rstate, sub := 1, sq := { s.sq with pollcnt := 0 } }) ∧
    (s.sub = 1 → ∃ t, exec .taskDisable s = .next t ∧
      exec .dis s = .next { t with sub := 2, sq := { s.sq with pollcnt := 0 } }) ∧
    (s.sub = 2 → s.radio.ev.disabled = false →
      (s.cfg.waitBound = none → exec .dis s = .next { s with portVal := .latch false }) ∧
      (s.cfg.waitBound = some (s.sq.pollcnt + 1) → exec .dis s = .next
        { s with
          portVal := .latch false
          sub := 0
          sq := { s.sq with result := .timeout, busy := false, step := 0, seq := .idle, pollcnt := 0 } }) ∧
      (∀ n, s.cfg.waitBound = some n → n ≠ s.sq.pollcnt + 1 → exec .dis s = .next
        { s with portVal := .latch false, sq := { s.sq with pollcnt := s.sq.pollcnt + 1 } })) ∧
    (s.sub = 2 → s.radio.ev.disabled = true →
      exec .dis s = .next { s with portVal := .latch true, sub := 3, sq := { s.sq with pollcnt := 0 } }) ∧
    (s.sub = 3 → exec .dis s = .next
      { s with
        radio := { s.radio with ev := { s.radio.ev with disabled := false } }
        sub := 0
        sq := { s.sq with pollcnt := 0 } })

/-! ### The machine -/

/-- R36, R210: what the reset leaves of the sequencer, and the invariant. `CMD`, `TXBUF` and the radio are unspecified there and
the statement says nothing of them. -/
def Obligations.ResetMeetsTheInvariant : Prop :=
  State.reset.sq.seq = .idle ∧ State.reset.sq.busy = false ∧ State.reset.sq.step = 0 ∧
  State.reset.sq.hold = false ∧ State.reset.sq.len = 0 ∧ State.reset.sq.result = .none ∧
  State.reset.sq.profile = .none ∧ State.reset.cfg.waitBound = none ∧ State.reset.Inv

/-- R8, R13: from every state of the invariant a step answers a next state, and the invariant holds there: the machine
never faults, is never stuck, and always has a step, whatever the agents' moves. -/
def Obligations.EveryStepGoesOnAndKeepsTheInvariant : Prop :=
  ∀ (s : State), s.Inv → ∃ t, step s = .next t ∧ t.Inv

/-- R210: the reset input, in any state, a hung wait included, puts the sequencer at its reset values, abandons the
command without a micro-operation, and leaves the radio and the parameters as they were; with nothing offered the
block then waits. `CMD` and `TXBUF` are unspecified afterwards and the statement says nothing of them. That the host's side, a held
offer included, is left as it was is the model's choice (log entry 21). -/
def Obligations.ResetInputLeavesTheRadio : Prop :=
  ∀ (s : State) ts, s.turns = .reset :: ts →
    traceEntry s = none ∧
    ∃ t, step s = .next t ∧
      t.sq.seq = .idle ∧ t.sq.busy = false ∧ t.sq.step = 0 ∧ t.sq.hold = false ∧ t.sq.len = 0 ∧
      t.sq.result = .none ∧ t.sq.profile = .none ∧
      t.radio = s.radio ∧ t.cfg = s.cfg ∧ t.host = s.host ∧ t.turns = ts ∧
      (ts = [] → s.host.offer = none → step t = .next t)

/-- R123: `SEQ` changes at the six steps of the table and at no other (beside the reset input); and at those six, at the
sequencer's turn, it does. Unbounded waits. -/
def Obligations.SeqChangesOnlyByTheTable : Prop :=
  (∀ (s : State) t, s.Inv → s.cfg.waitBound = none → ¬ s.resetNext → step s = .next t → t.sq.seq ≠ s.sq.seq →
    s.sq.busy = true ∧
    ((s.sq.seq = .idle ∧ t.sq.seq = .warmingUp ∧ s.sq.cmd = .txp ∧ s.sq.step = 8) ∨
     (s.sq.seq = .warmingUp ∧ t.sq.seq = .armed ∧ s.sq.cmd = .txp ∧ s.sq.step = 9 ∧
        s.radio.ev.txready = true) ∨
     (s.sq.seq = .armed ∧ t.sq.seq = .transmitting ∧ s.sq.cmd = .txp ∧ s.sq.step = 12) ∨
     (s.sq.seq = .transmitting ∧ t.sq.seq = .idle ∧ s.sq.cmd = .txp ∧ s.sq.step = 13 ∧
        s.radio.ev.phyend = true) ∨
     (s.sq.seq = .idle ∧ t.sq.seq = .chained ∧ s.sq.cmd = .txs ∧ s.sq.step = 8) ∨
     (s.sq.seq = .chained ∧ t.sq.seq = .idle ∧ s.sq.cmd = .txs ∧ s.sq.step = 9))) ∧
  (∀ (s : State) u t, s.Inv → takeTurn s = .sequencer u → s.sq.busy = true → step s = .next t →
    (s.sq.cmd = .txp → s.sq.step = 8 → s.sq.seq = .idle ∧ t.sq.seq = .warmingUp) ∧
    (s.sq.cmd = .txp → s.sq.step = 9 → s.radio.ev.txready = true →
      s.sq.seq = .warmingUp ∧ t.sq.seq = .armed) ∧
    (s.sq.cmd = .txp → s.sq.step = 12 → s.sq.seq = .armed ∧ t.sq.seq = .transmitting) ∧
    (s.sq.cmd = .txp → s.sq.step = 13 → s.radio.ev.phyend = true →
      s.sq.seq = .transmitting ∧ t.sq.seq = .idle) ∧
    (s.sq.cmd = .txs → s.sq.step = 8 → s.sq.seq = .idle ∧ t.sq.seq = .chained) ∧
    (s.sq.cmd = .txs → s.sq.step = 9 → s.sq.seq = .chained ∧ t.sq.seq = .idle))

/-- R13: while a command is in progress `STEP` never moves backward and never passes 18. -/
def Obligations.StepNeverMovesBackward : Prop :=
  ∀ (s : State) t, s.Inv → s.sq.busy = true → step s = .next t → t.sq.busy = true →
    s.sq.step ≤ t.sq.step ∧ t.sq.step ≤ 18

/-- R15, R16, R69, R180, R182: `RESULT` is written only by the step that ends a command or turns one away, `PROFILE` only by the completing
step of a `CFG` (beside the reset input). With `BUSY = 0` only the sequencer's turn with a reserved word at the port changes `RESULT`, to
`REJECTED_BADCMD`: no move of the host or the radio, no wait and no acceptance does. With unbounded waits the step that ends a command writes `REJECTED_OVERSIZE` at step 0 of a
transmit command, `OK_UNVERIFIED` for a `TXS` always (R126), and `OK` for a `TXP`, `DISABLE` and `CFG`. -/
def Obligations.ResultAndProfileAreWrittenAtTheEnd : Prop :=
  ∀ (s : State) t, s.Inv → ¬ s.resetNext → step s = .next t →
    (t.sq.result ≠ s.sq.result → t.sq.busy = false) ∧
    (t.sq.result ≠ s.sq.result → s.sq.busy = false →
      t.sq.result = .rejectedBadcmd ∧ (∃ u, takeTurn s = .sequencer u) ∧
      ∃ o, s.host.offer = some o ∧ o.cmd.toNat ∉ [0x00, 0x01, 0x02, 0x09, 0x0A, 0x12, 0x1A]) ∧
    (t.sq.profile ≠ s.sq.profile →
      s.sq.busy = true ∧ s.sq.step = 15 ∧ t.sq.busy = false ∧ t.sq.result = .ok ∧
      ((s.sq.cmd = .cfgStd ∧ t.sq.profile = .standard) ∨ (s.sq.cmd = .cfgLr ∧ t.sq.profile = .longRange))) ∧
    (s.cfg.waitBound = none → s.sq.busy = true → t.sq.busy = false →
      (s.sq.cmd.isTx = true ∧ s.sq.step = 0 ∧ s.cfg.maxPacketLen - 1 ≤ s.sq.len.toNat ∧
        t.sq.result = .rejectedOversize) ∨
      (s.sq.cmd = .txs ∧ 1 ≤ s.sq.step ∧ t.sq.result = .okUnverified) ∨
      (s.sq.cmd = .txp ∧ 1 ≤ s.sq.step ∧ t.sq.result = .ok) ∨
      ((s.sq.cmd = .disable ∨ s.sq.cmd = .cfgStd ∨ s.sq.cmd = .cfgLr) ∧ t.sq.result = .ok))

/-- R15, R180: the codes of `RESULT` are 0 to 5 in the order of R180's table, so that the host reads one of those six and never 6 or 7, and
different outcomes read differently. -/
def Obligations.ResultCodesAreTheTable : Prop :=
  (Result.none.code.toNat = 0 ∧ Result.ok.code.toNat = 1 ∧ Result.okUnverified.code.toNat = 2 ∧
    Result.rejectedOversize.code.toNat = 3 ∧ Result.timeout.code.toNat = 4 ∧ Result.rejectedBadcmd.code.toNat = 5) ∧
  (∀ (s : State), (resultRead s).toNat ≤ 5) ∧
  (∀ (s t : State), resultRead s = resultRead t → s.sq.result = t.sq.result)

/-- R16, R130: the sequencer never reads `PROFILE`. From two states that differ in it only, a step issues the same micro-operation, shows the same
on the port, and leaves the same sequencer but for `PROFILE` itself, the same buffer and the same host's side: a transmit command with no
profile applied runs as any other. -/
def Obligations.SequencerNeverReadsProfile : Prop :=
  ∀ (s s' : State) p, s' = { s with sq := { s.sq with profile := p } } →
    issued s' = issued s ∧ traceEntry s' = traceEntry s ∧
    (∀ t, step s = .next t → ∃ t', step s' = .next t' ∧
      t'.sq = { t.sq with profile := t'.sq.profile } ∧ t'.txbuf = t.txbuf ∧ t'.host = t.host ∧ t'.portVal = t.portVal ∧
      (t'.sq.profile = t.sq.profile ∨ (t'.sq.profile = p ∧ t.sq.profile = s.sq.profile)))

/-- R14, U11: `TXBUF` is written by the frame-build step and by nothing else (beside the reset input, after which it is
unspecified), and the arbitrary content where nothing has been written stays as it is. -/
def Obligations.OnlyTheFrameStepWritesTheBuffer : Prop :=
  ∀ (s : State) t, ¬ s.resetNext → step s = .next t →
    (t.txbuf ≠ s.txbuf → issued s = some .frame) ∧ t.txSeed = s.txSeed

/-- No step changes the parameters (R4), and every step of the machine keeps the buffer's canonical form. -/
def Obligations.ParametersAndCanonicalFormAreKept : Prop :=
  ∀ (s : State) t, step s = .next t → t.cfg = s.cfg ∧ (s.txbuf.wf = true → t.txbuf.wf = true)

/-- R160, R173, R35: a turn of the radio changes nothing but the radio, clears no latch, writes no register, and without
power does nothing at all. That registers and power are kept also in a run that has left the specified behaviour is the model's choice
(log entry 10). -/
def Obligations.RadioTurnsTouchOnlyTheRadio : Prop :=
  ∀ (s : State) a ts, s.turns = .radio a :: ts →
    ∃ t, step s = .next t ∧
      t = { s with radio := t.radio, turns := ts, tick := s.tick + 1 } ∧
      (∀ e, s.radio.ev.get e = true → t.radio.ev.get e = true) ∧
      t.radio.regs = s.radio.regs ∧ t.radio.powered = s.radio.powered ∧
      (s.radio.powered = false → t.radio = s.radio)

/-- R163, R165 to R168: with `SHORTS = {}` and nothing pending a completion fires its event and triggers nothing; the receiver's two
completions end in `RxIdle` and set no latch of the port. -/
def Obligations.CompletionsWithoutShortcuts : Prop :=
  ∀ (s : State) idle now ts t, s.turns = .radio (.complete idle now) :: ts → s.radio.powered = true →
    s.radio.pending = [] → s.radio.regs.shorts = [] → step s = .next t →
    (s.radio.rstate = .txRampUp → t.radio =
      { s.radio with rstate := .txIdle, ev := { s.radio.ev with txready := true } }) ∧
    (s.radio.rstate = .tx → t.radio =
      { s.radio with rstate := .txIdle, ev := { s.radio.ev with phyend := true } }) ∧
    (s.radio.rstate = .txDisable ∨ s.radio.rstate = .rxDisable → t.radio =
      { s.radio with rstate := .disabled, ev := { s.radio.ev with disabled := true } }) ∧
    (s.radio.rstate = .rxRampUp → t.radio = { s.radio with rstate := .rxIdle }) ∧
    (s.radio.rstate = .cca → t.radio = { s.radio with rstate := .rxIdle }) ∧
    (s.radio.rstate = .disabled ∨ s.radio.rstate = .txIdle ∨ s.radio.rstate = .rxIdle →
      t.radio = s.radio)

/-- R167, R168: with `SHORTS = SHORTS_CHAIN` each completion's event triggers the chain's next task, in the same step or, deferred, as
what the radio does next; the latches are set all the same. That a delivered `START` empties `air`, the record of the bytes the radio has read,
is the model's choice (log entry 24). -/
def Obligations.CompletionsWithTheChain : Prop :=
  ∀ (s : State) idle ts t u, s.radio.powered = true → s.radio.pending = [] → s.radio.regs.shorts = shortsChain →
    step { s with turns := .radio (.complete idle false) :: ts } = .next t →
    step { s with turns := .radio (.complete idle true) :: ts } = .next u →
    (s.radio.rstate = .rxRampUp → t.radio = { s.radio with rstate := .cca } ∧
      u.radio = { s.radio with rstate := .rxIdle, pending := [.ccaStart] }) ∧
    (s.radio.rstate = .cca → idle = true → t.radio = { s.radio with rstate := .txRampUp } ∧
      u.radio = { s.radio with rstate := .rxIdle, pending := [.port .txen] }) ∧
    (s.radio.rstate = .cca → idle = false → t.radio = { s.radio with rstate := .rxDisable } ∧
      u.radio = { s.radio with rstate := .rxIdle, pending := [.port .disable] }) ∧
    (s.radio.rstate = .txRampUp →
      t.radio = { s.radio with rstate := .tx, air := [], ev := { s.radio.ev with txready := true } } ∧
      u.radio =
        { s.radio with rstate := .txIdle, pending := [.port .start], ev := { s.radio.ev with txready := true } }) ∧
    (s.radio.rstate = .tx →
      t.radio = { s.radio with rstate := .txDisable, ev := { s.radio.ev with phyend := true } } ∧
      u.radio =
        { s.radio with rstate := .txIdle, pending := [.port .disable], ev := { s.radio.ev with phyend := true } }) ∧
    (s.radio.rstate = .txDisable ∨ s.radio.rstate = .rxDisable →
      t.radio = { s.radio with rstate := .disabled, ev := { s.radio.ev with disabled := true } } ∧
      u.radio = t.radio) ∧
    (∀ task, u.radio.pending = [task] → ∀ v, step { u with turns := .radio (.complete idle true) :: ts } = .next v →
      v.radio = t.radio)

/-- R170, R42: in `Tx` the radio's reader sees the bytes of `TXBUF` by index from the address in `PKTPTR`, as many after the
length byte as that byte says and no more; outside `Tx` it reads nothing. A byte nothing has written since the reset is the arbitrary one
that stands there (U11): the same at every read, whatever the free-value counter. The record `air` of what is read is the model's choice (log
entry 24), and so is that a transmit command before any `CFG`, of which R130 and U9 promise nothing, and a run that has left the specified
behaviour keep to these bounds too (log entries 30 and 10). Which length byte counts, the one standing in the buffer at the read, is the model's
choice where a reset in `Tx` has changed it since the packet began (log entry 35). -/
def Obligations.RadioReadsTheFrameOnlyInTx : Prop :=
  ∀ (s : State) i ts t, s.turns = .radio (.read i) :: ts → s.radio.powered = true → s.radio.pending = [] →
    step s = .next t →
    (s.radio.rstate ≠ .tx → t.radio = s.radio) ∧
    (∀ first b, s.radio.rstate = .tx → s.radio.regs.pktptr = s.cfg.txbufAddr → s.txbuf.read 0 = some first →
      i ≤ first.toNat → i < s.cfg.maxPacketLen → s.txbuf.read i = some b →
      t.radio = { s.radio with air := s.radio.air ++ [(i, b)] }) ∧
    (∀ first, s.radio.rstate = .tx → s.radio.regs.pktptr = s.cfg.txbufAddr → s.txbuf.read 0 = some first →
      i ≤ first.toNat → i < s.cfg.maxPacketLen → s.txbuf.read i = none →
      t.radio = { s.radio with air := s.radio.air ++ [(i, Config.txbufByte s.txSeed i)] }) ∧
    (∀ first, s.radio.rstate = .tx → s.radio.regs.pktptr = s.cfg.txbufAddr → s.txbuf.read 0 = some first →
      0 < s.cfg.maxPacketLen → first.toNat < i → t.radio = s.radio)

/-- R130, U9: while a transmit command runs with no profile applied, the radio's turn may take it to any state, set any latches and leave any
triggers pending. That it clears no latch and keeps its registers and power (R173 and the model's choice), and that this begins at
step 1, is log entry 30. -/
def Obligations.UnconfiguredRadioMayDoAnything : Prop :=
  ∀ (s : State), s.unconfiguredTx = true → s.radio.powered = true →
    ∀ q l next, (∀ e, s.radio.ev.get e = true → Latches.get l e = true) →
      ∃ a, ∀ ts, step { s with turns := .radio a :: ts } = .next
        { s with
          radio := { s.radio with rstate := q, ev := l, pending := next, strayed := true }
          turns := ts
          tick := s.tick + 1 }

/-- R183, R86: an awaited latch that is 0 leaves the machine where it is, the read value apart, for as long as the
sequencer moves: after any number of its turns it still polls. -/
def Obligations.PollingNeverTimesOut : Prop :=
  ∀ (s : State) r i yes no n, s.cfg.waitBound = none → s.sq.busy = true → s.turns = [] →
    rowAt s.sq.cmd s.sq.step = some r → r.act = .run i → r.next = .ifSet yes no → backOf i s = .latch false →
    Host.Core.run Sys2Proof.core (n + 1) s = .next { s with portVal := .latch false }

/-- R196, the variant that is not this hardware: with `WAIT_BOUND = some n` the read of 0 with `POLLCNT = n - 1` ends the
command, `RESULT <- TIMEOUT; BUSY <- 0; STEP <- 0; SEQ <- Idle`, issuing nothing more; an earlier one is counted; and
`POLLCNT` is 0 wherever `STEP` has just changed, so on entry to a wait. That `POLLCNT` is 0 together with `TIMEOUT`, and after every
change of `STEP` and not at a wait's entry only, is the model's choice (log entry 28). -/
def Obligations.BoundedWaitEndsInTimeout : Prop :=
  (∀ (s : State) t r i yes no n, takeTurn s = .sequencer t → t.cfg.waitBound = some n → 1 ≤ n → t.sq.busy = true →
    rowAt t.sq.cmd t.sq.step = some r → r.act = .run i → r.next = .ifSet yes no → backOf i t = .latch false →
    (t.sq.pollcnt = n - 1 → step s = .next
      { t with
        portVal := .latch false
        sq := { t.sq with result := .timeout, busy := false, step := 0, seq := .idle, pollcnt := 0 } }) ∧
    (t.sq.pollcnt ≠ n - 1 → step s = .next
      { t with portVal := .latch false, sq := { t.sq with pollcnt := t.sq.pollcnt + 1 } })) ∧
  (∀ (s : State) t, s.Inv → step s = .next t → t.sq.step ≠ s.sq.step → t.sq.pollcnt = 0)

/-- R86, R124: in every micro-program the row after a polling row, where the read of 1 leads, clears the latch the poll
read. -/
def Obligations.EveryWaitIsAcknowledged : Prop :=
  ∀ c n r yes no, rowAt c n = some r → r.next = .ifSet yes no →
    yes = .step (n + 1) ∧ no = .step n ∧
    ∃ q, rowAt c (n + 1) = some q ∧
      ((r.act = .run .evrdTxready ∧ q.act = .run .evclrTxready) ∨
       (r.act = .run .evrdPhyend ∧ q.act = .run .evclrPhyend) ∨
       (r.act = .run .evrdDisabled ∧ q.act = .run .evclrDisabled))

/-- R87: with `BUSY = 0` the port is silent; with `BUSY = 1` a step issues the row's word and no other. -/
def Obligations.PortShowsOnlyTheRow : Prop :=
  ∀ (s : State) e, traceEntry s = some e →
    s.sq.busy = true ∧ ∃ r i w, rowAt s.sq.cmd s.sq.step = some r ∧ r.act = .run i ∧
      encode i = some w ∧ e.word = w.word ∧ e.image = w.operand

/-- R105, R169, R212: along a `CFG` the radio is unpowered between the two writes of `POWER` and clean after the second,
whatever the radio, the host and the schedule do, and the command that ends there ends with `CleanEntry`. R169 is the spec's own
assumption, and that it holds also of a `POWER_OFF` outside `Disabled`, which R171 leaves open, is the model's choice (log entries 11 and
13), and so is that `CleanEntry` takes in power and the mark `strayed` (log entry 34). -/
def Obligations.CfgEstablishesCleanEntry : Prop :=
  (∀ (s : State) t, s.Inv → s.cfgPowerAt → step s = .next t → t.cfgPowerAt) ∧
  (∀ (s : State) t, s.Inv → s.cfgPowerAt → ¬ s.resetNext → s.sq.busy = true → s.sq.cmd.isCfg = true →
    step s = .next t → t.sq.busy = false → s.cfg.waitBound = none →
    t.sq.result = .ok ∧ t.radio.clean ∧ t.radio.regs.shorts = [])

/-- R124, R130, R212: a `TXP` accepted at clean entry, with a profile applied, keeps to the radio states and latches of its table whatever the schedule,
sees genuine events only, and ends with `CleanEntry` again: rejected, or `OK`. That `CleanEntry` takes in power and the mark `strayed` is the
model's choice (log entry 34). -/
def Obligations.TxpKeepsCleanEntry : Prop :=
  (∀ (s : State) h len t, s.radio.clean → s.sq.busy = false → s.sq.profile ≠ .none → exec (.txp h len) s = .next t → t.genuineTxp) ∧
  (∀ (s : State) t, s.Inv → s.cfg.waitBound = none → s.genuineTxp → ¬ s.resetNext → step s = .next t →
    (t.sq.busy = true → t.genuineTxp) ∧
    (t.sq.busy = false → t.radio.clean ∧
      ((t.sq.result = .ok ∧ s.sq.step = 18) ∨ (t.sq.result = .rejectedOversize ∧ s.sq.step = 0))))

/-- R48, R49: from the frame build to the end of a transmit command the length byte stays in place, from its write the
packet pointer, and from its write the shortcut set, whatever the schedule. That they stand also in a run that has left the specified
behaviour (a trigger under R215, an unconfigured radio) is the model's choice (log entries 10 and 30). -/
def Obligations.WindowIsStable : Prop :=
  ∀ (s : State) t, s.Inv → s.windowAt → step s = .next t → t.windowAt

/-- R122, R172: a `TXP` offered at clean entry, with a profile applied (R130), to a radio that responds, its moves those of `txpTurns` (the model's
form of `RADIO_RESPONDS`, log entry 4), after any numbers of unsuccessful polls, completes:
`RESULT = OK`, the radio disabled, the latches 0, the frame in `TXBUF`, `PKTPTR` at it. The port shows the words of `txpWords` and no others, so
exactly one enable trigger and one start trigger (R82). Powered and not `strayed` at clean entry is the model's choice (log entry 34). -/
def Obligations.TxpCompletesWithARespondingRadio : Prop :=
  ∀ (s : State) (h : Bool) (len : Half) a b c rest, s.Inv → s.cfg.waitBound = none → s.radio.clean → s.sq.busy = false →
    s.sq.profile ≠ .none → s.host.offer = some ⟨if h then 0x0A else 0x02, len⟩ → s.host.offerTouched = false →
    s.host.offerData.length = len.toNat → len.toNat < s.cfg.maxPacketLen - 1 →
    s.turns = txpTurns h a b c ++ rest →
    (traceOf (txpTurns h a b c).length s).map (·.word) = txpWords h a b c ∧
    ∃ t, Host.Core.run Sys2Proof.core (txpTurns h a b c).length s = .next t ∧
      t.turns = rest ∧ t.sq.busy = false ∧ t.sq.seq = .idle ∧ t.sq.result = .ok ∧
      t.sq.profile = s.sq.profile ∧ t.radio.clean ∧ t.radio.regs.shorts = [] ∧
      t.radio.regs.pktptr = s.cfg.txbufAddr ∧
      (∃ b0, t.txbuf.read 0 = some b0 ∧ b0.toNat = len.toNat + 2) ∧
      (∀ i, i < len.toNat → t.txbuf.read (1 + i) = s.host.offerData[i]?) ∧
      (∀ i, len.toNat < i → t.txbuf.read i = s.txbuf.read i)

/-- R126, R128, R184: the same `TXS`, from the same state, with two fixed schedules in which the chain ends before the command's last read of
`STATE`: in one the channel is idle and the packet is sent, in the other it is busy and none is. Both complete with `OK_UNVERIFIED` and the same
six words on the port, and the two states differ in the latches, in what the radio has read in its packet, and in the free-value
counter, and in nothing else. Powered and not `strayed` at clean entry is the model's choice (log entry 34). -/
def Obligations.TxsCannotTellWhetherAPacketWasSent : Prop :=
  ∀ (s : State) (h : Bool) (len : Half), s.Inv → s.cfg.waitBound = none → s.radio.clean → s.sq.busy = false →
    s.sq.profile ≠ .none → s.host.offer = some ⟨if h then 0x1A else 0x12, len⟩ → len.toNat < s.cfg.maxPacketLen - 1 →
    ∀ sent refused,
      sent = { s with turns := seqTurns 7 ++ List.replicate 5 radioCompletes } →
      refused = { s with turns := seqTurns 7 ++ [radioCompletes, radioFindsBusy, radioCompletes] } →
      ∃ t u,
        Host.Core.run Sys2Proof.core 14 sent = .next t ∧ Host.Core.run Sys2Proof.core 12 refused = .next u ∧
        t = { u with
          radio := { u.radio with ev := t.radio.ev, air := t.radio.air }
          tick := t.tick } ∧
        t.sq.busy = false ∧ t.sq.result = .okUnverified ∧
        traceOf 14 sent = traceOf 12 refused ∧
        (traceOf 14 sent).map (·.word) = [0x2F, 0x0E, 0x0D, 0x43, 0xA3, 0x2F] ∧
        t.radio.rstate = .disabled ∧ t.radio.regs.shorts = shortsChain ∧
        t.radio.ev = { txready := true, phyend := true, disabled := true } ∧
        u.radio.ev = { txready := false, phyend := false, disabled := true }

/-- R126, R128: the third run a model must admit. The same `TXS` whose delay ends while the radio is ramping up its receiver, assessing,
ramping up its transmitter, or sending (`k` of the chain's completions have happened, 0 to 3): steps 11 to 13 cut it off. Nine words,
`OK_UNVERIFIED` all the same, the radio `Disabled` with `phyend` never raised. The schedule is fixed but for `k`. Powered and not `strayed` at clean entry is the model's choice (log entry 34). -/
def Obligations.TxsIsCutOffByTheForcedDisable : Prop :=
  ∀ (s : State) (h : Bool) (len : Half) k, s.Inv → s.cfg.waitBound = none → s.radio.clean → s.sq.busy = false →
    s.sq.profile ≠ .none → s.host.offer = some ⟨if h then 0x1A else 0x12, len⟩ → len.toNat < s.cfg.maxPacketLen - 1 →
    k ≤ 3 →
    s.turns = seqTurns 7 ++ List.replicate k radioCompletes ++ seqTurns 3 ++ [radioCompletes] ++ seqTurns 2 →
    (traceOf (13 + k) s).map (·.word) = [0x2F, 0x0E, 0x0D, 0x43, 0xA3, 0x2F, 0x42, 0x62, 0x82] ∧
    ∃ t, Host.Core.run Sys2Proof.core (13 + k) s = .next t ∧
      t.turns = [] ∧ t.sq.busy = false ∧ t.sq.seq = .idle ∧ t.sq.result = .okUnverified ∧
      t.sq.profile = s.sq.profile ∧ t.radio.rstate = .disabled ∧
      t.radio.ev = { txready := decide (k = 3), phyend := false, disabled := false } ∧
      t.radio.regs.shorts = shortsChain

/-- R103: `CFG.STD` offered with the radio `Disabled` issues its thirteen words in order and leaves the Standard profile's
images in the registers it writes, `PROFILE = Standard`, `RESULT = OK`. Only the sequencer moves. The clean radio and the empty
`SHORTS` at the end come from R169, the spec's own assumption (log entry 13). For an `F_STD_MHZ` above 65535 the exact `FREQ` pair is the
model's choice (log entry 31). -/
def Obligations.CfgStdAppliesItsProfile : Prop :=
  ∀ (s : State) len, s.Inv → s.cfg.waitBound = none → s.sq.busy = false → s.turns = [] → s.radio.rstate = .disabled →
    s.host.offer = some ⟨0x01, len⟩ →
    (traceOf 14 s).map (·.word) =
      [0x2F, 0x00, 0xA0, 0x00, 0xA1, 0x01, 0x03, 0x05, 0x06, 0x07, 0x08, 0x09, 0x0C] ∧
    ∃ t, Host.Core.run Sys2Proof.core 14 s = .next t ∧
      t.sq.busy = false ∧ t.sq.seq = .idle ∧ t.sq.result = .ok ∧ t.sq.profile = .standard ∧
      t.txbuf = s.txbuf ∧ t.radio.clean ∧ t.radio.regs.shorts = [] ∧
      t.radio.regs.power = s.cfg.codes.powerOn ∧
      t.radio.regs.mode = s.cfg.codes.modeStd ∧
      t.radio.regs.pktlay0.lflen = s.cfg.codes.pktlay0Std.lflen ∧
      t.radio.regs.pktlay0.crcinc = s.cfg.codes.pktlay0Std.crcinc ∧
      t.radio.regs.crclen = s.cfg.codes.crcLenStd ∧
      t.radio.regs.crcpoly = s.cfg.codes.crcPolyStd ∧
      t.radio.regs.crcseed = s.cfg.codes.crcSeedStd ∧
      t.radio.regs.ccamode = s.cfg.codes.ccaModeEd ∧
      t.radio.regs.thresholds = s.cfg.codes.ccaThresholdsStd ∧
      some (t.radio.regs.freqValue, t.radio.regs.freqBand) = freqMap s.cfg s.cfg.fStdMhz ∧
      t.radio.regs.txpower = s.cfg.codes.txpower0dbm

/-- R104: `CFG.LR` offered with the radio `Disabled` issues its thirteen words in order and leaves the LongRange profile's
images in the registers it writes, `PROFILE = LongRange`, `RESULT = OK`. Only the sequencer moves. The clean radio and the empty
`SHORTS` at the end come from R169, the spec's own assumption (log entry 13). -/
def Obligations.CfgLrAppliesItsProfile : Prop :=
  ∀ (s : State) len, s.Inv → s.cfg.waitBound = none → s.sq.busy = false → s.turns = [] → s.radio.rstate = .disabled →
    s.host.offer = some ⟨0x09, len⟩ →
    (traceOf 14 s).map (·.word) =
      [0x2F, 0x00, 0xA0, 0x00, 0xA1, 0x01, 0x05, 0x03, 0x04, 0x0A, 0x0B, 0x09, 0x0C] ∧
    ∃ t, Host.Core.run Sys2Proof.core 14 s = .next t ∧
      t.sq.busy = false ∧ t.sq.seq = .idle ∧ t.sq.result = .ok ∧ t.sq.profile = .longRange ∧
      t.txbuf = s.txbuf ∧ t.radio.clean ∧ t.radio.regs.shorts = [] ∧
      t.radio.regs.power = s.cfg.codes.powerOn ∧
      t.radio.regs.mode = s.cfg.codes.modeLr ∧
      t.radio.regs.crclen = s.cfg.codes.crcDisabled ∧
      t.radio.regs.pktlay0 = s.cfg.codes.pktlay0Lr ∧
      t.radio.regs.pktlay1 = s.cfg.codes.pktlay1Lr ∧
      t.radio.regs.addrBase = s.cfg.codes.addrBaseLr ∧
      t.radio.regs.addrPrefix = s.cfg.codes.addrPrefixLr ∧
      t.radio.regs.freqValue = s.cfg.fLrMhz - 2360 ∧ t.radio.regs.freqBand = true ∧
      t.radio.regs.txpower = s.cfg.codes.txpower8dbm

/-- R151, R152: `DISABLE` with the radio already `Disabled` is one read of `STATE` and changes nothing but `RESULT <- OK` and the
command's own latches (only the sequencer moves; the offer is used up, log entry 9); in any other state of the radio, the receiver's and
a ramp-down among them, it takes the trigger, the wait and the clear, on the fixed schedule in which the radio answers once, after the trigger;
a second `DISABLE` is then again the one read. A `disable` in `TxDisable`, in `RxDisable` and in a further state follows log entry 12, the
model's choice. -/
def Obligations.DisableIsIdempotent : Prop :=
  (∀ (s : State) len, s.Inv → s.sq.busy = false → s.turns = [] → s.radio.rstate = .disabled →
    s.host.offer = some ⟨0x00, len⟩ →
    traceOf 2 s = [⟨0x2F, 0, .state .disabled⟩] ∧
    Host.Core.run Sys2Proof.core 2 s = .next
      { s with
        sq := { s.sq with cmd := .disable, hold := false, len := 0, result := .ok }
        host := { s.host with offer := none }
        portVal := .state .disabled }) ∧
  (∀ (s : State) len, s.Inv → s.sq.busy = false → s.radio.rstate ≠ .disabled →
    s.radio.powered = true → s.radio.pending = [] → s.radio.ev.disabled = false →
    (s.radio.regs.shorts = [] ∨ s.radio.regs.shorts = shortsChain) →
    s.host.offer = some ⟨0x00, len⟩ → s.turns = seqTurns 3 ++ [radioCompletes] ++ seqTurns 2 →
    (traceOf 6 s).map (·.word) = [0x2F, 0x42, 0x62, 0x82] ∧
    ∃ t, Host.Core.run Sys2Proof.core 6 s = .next t ∧ t.Inv ∧ t.turns = [] ∧ t.sq.busy = false ∧
      t.sq.result = .ok ∧ t.sq.profile = s.sq.profile ∧ t.txbuf = s.txbuf ∧
      t.radio.rstate = .disabled ∧ t.radio.ev = s.radio.ev ∧ t.radio.regs = s.radio.regs)
end

