-- ==== Sys2Proof/Laws/State.lean ====
section
/-! SUPPORT. One lemma per field and update of the state, true by `rfl`. -/

namespace Sys2Proof.Machine

@[simp] theorem State.withSq_cfg (s : State) (q : Sequencer) : (s.withSq q).cfg = s.cfg := rfl
@[simp] theorem State.withSq_sq (s : State) (q : Sequencer) : (s.withSq q).sq = q := rfl
@[simp] theorem State.withSq_txbuf (s : State) (q : Sequencer) : (s.withSq q).txbuf = s.txbuf := rfl
@[simp] theorem State.withSq_txSeed (s : State) (q : Sequencer) : (s.withSq q).txSeed = s.txSeed := rfl
@[simp] theorem State.withSq_host (s : State) (q : Sequencer) : (s.withSq q).host = s.host := rfl
@[simp] theorem State.withSq_radio (s : State) (q : Sequencer) : (s.withSq q).radio = s.radio := rfl
@[simp] theorem State.withSq_portVal (s : State) (q : Sequencer) : (s.withSq q).portVal = s.portVal := rfl
@[simp] theorem State.withSq_freqOut (s : State) (q : Sequencer) : (s.withSq q).freqOut = s.freqOut := rfl
@[simp] theorem State.withSq_sub (s : State) (q : Sequencer) : (s.withSq q).sub = s.sub := rfl
@[simp] theorem State.withSq_turns (s : State) (q : Sequencer) : (s.withSq q).turns = s.turns := rfl
@[simp] theorem State.withSq_tick (s : State) (q : Sequencer) : (s.withSq q).tick = s.tick := rfl

@[simp] theorem State.withRadio_cfg (s : State) (r : Radio) : (s.withRadio r).cfg = s.cfg := rfl
@[simp] theorem State.withRadio_sq (s : State) (r : Radio) : (s.withRadio r).sq = s.sq := rfl
@[simp] theorem State.withRadio_txbuf (s : State) (r : Radio) : (s.withRadio r).txbuf = s.txbuf := rfl
@[simp] theorem State.withRadio_txSeed (s : State) (r : Radio) : (s.withRadio r).txSeed = s.txSeed := rfl
@[simp] theorem State.withRadio_host (s : State) (r : Radio) : (s.withRadio r).host = s.host := rfl
@[simp] theorem State.withRadio_radio (s : State) (r : Radio) : (s.withRadio r).radio = r := rfl
@[simp] theorem State.withRadio_portVal (s : State) (r : Radio) : (s.withRadio r).portVal = s.portVal := rfl
@[simp] theorem State.withRadio_freqOut (s : State) (r : Radio) : (s.withRadio r).freqOut = s.freqOut := rfl
@[simp] theorem State.withRadio_sub (s : State) (r : Radio) : (s.withRadio r).sub = s.sub := rfl
@[simp] theorem State.withRadio_turns (s : State) (r : Radio) : (s.withRadio r).turns = s.turns := rfl
@[simp] theorem State.withRadio_tick (s : State) (r : Radio) : (s.withRadio r).tick = s.tick := rfl

@[simp] theorem State.withPort_cfg (s : State) (v : ReadVal) : (s.withPort v).cfg = s.cfg := rfl
@[simp] theorem State.withPort_sq (s : State) (v : ReadVal) : (s.withPort v).sq = s.sq := rfl
@[simp] theorem State.withPort_txbuf (s : State) (v : ReadVal) : (s.withPort v).txbuf = s.txbuf := rfl
@[simp] theorem State.withPort_txSeed (s : State) (v : ReadVal) : (s.withPort v).txSeed = s.txSeed := rfl
@[simp] theorem State.withPort_host (s : State) (v : ReadVal) : (s.withPort v).host = s.host := rfl
@[simp] theorem State.withPort_radio (s : State) (v : ReadVal) : (s.withPort v).radio = s.radio := rfl
@[simp] theorem State.withPort_portVal (s : State) (v : ReadVal) : (s.withPort v).portVal = v := rfl
@[simp] theorem State.withPort_freqOut (s : State) (v : ReadVal) : (s.withPort v).freqOut = s.freqOut := rfl
@[simp] theorem State.withPort_sub (s : State) (v : ReadVal) : (s.withPort v).sub = s.sub := rfl
@[simp] theorem State.withPort_turns (s : State) (v : ReadVal) : (s.withPort v).turns = s.turns := rfl
@[simp] theorem State.withPort_tick (s : State) (v : ReadVal) : (s.withPort v).tick = s.tick := rfl

@[simp] theorem State.withSub_cfg (s : State) (n : Nat) : (s.withSub n).cfg = s.cfg := rfl
@[simp] theorem State.withSub_sq (s : State) (n : Nat) : (s.withSub n).sq = s.sq := rfl
@[simp] theorem State.withSub_txbuf (s : State) (n : Nat) : (s.withSub n).txbuf = s.txbuf := rfl
@[simp] theorem State.withSub_txSeed (s : State) (n : Nat) : (s.withSub n).txSeed = s.txSeed := rfl
@[simp] theorem State.withSub_host (s : State) (n : Nat) : (s.withSub n).host = s.host := rfl
@[simp] theorem State.withSub_radio (s : State) (n : Nat) : (s.withSub n).radio = s.radio := rfl
@[simp] theorem State.withSub_portVal (s : State) (n : Nat) : (s.withSub n).portVal = s.portVal := rfl
@[simp] theorem State.withSub_freqOut (s : State) (n : Nat) : (s.withSub n).freqOut = s.freqOut := rfl
@[simp] theorem State.withSub_sub (s : State) (n : Nat) : (s.withSub n).sub = n := rfl
@[simp] theorem State.withSub_turns (s : State) (n : Nat) : (s.withSub n).turns = s.turns := rfl
@[simp] theorem State.withSub_tick (s : State) (n : Nat) : (s.withSub n).tick = s.tick := rfl

@[simp] theorem State.withTxbuf_cfg (s : State) (m : Memory) : (s.withTxbuf m).cfg = s.cfg := rfl
@[simp] theorem State.withTxbuf_sq (s : State) (m : Memory) : (s.withTxbuf m).sq = s.sq := rfl
@[simp] theorem State.withTxbuf_txbuf (s : State) (m : Memory) : (s.withTxbuf m).txbuf = m := rfl
@[simp] theorem State.withTxbuf_txSeed (s : State) (m : Memory) : (s.withTxbuf m).txSeed = s.txSeed := rfl
@[simp] theorem State.withTxbuf_host (s : State) (m : Memory) : (s.withTxbuf m).host = s.host := rfl
@[simp] theorem State.withTxbuf_radio (s : State) (m : Memory) : (s.withTxbuf m).radio = s.radio := rfl
@[simp] theorem State.withTxbuf_portVal (s : State) (m : Memory) : (s.withTxbuf m).portVal = s.portVal := rfl
@[simp] theorem State.withTxbuf_freqOut (s : State) (m : Memory) : (s.withTxbuf m).freqOut = s.freqOut := rfl
@[simp] theorem State.withTxbuf_sub (s : State) (m : Memory) : (s.withTxbuf m).sub = s.sub := rfl
@[simp] theorem State.withTxbuf_turns (s : State) (m : Memory) : (s.withTxbuf m).turns = s.turns := rfl
@[simp] theorem State.withTxbuf_tick (s : State) (m : Memory) : (s.withTxbuf m).tick = s.tick := rfl

@[simp] theorem State.withTxSeed_cfg (s : State) (n : Nat) : (s.withTxSeed n).cfg = s.cfg := rfl
@[simp] theorem State.withTxSeed_sq (s : State) (n : Nat) : (s.withTxSeed n).sq = s.sq := rfl
@[simp] theorem State.withTxSeed_txbuf (s : State) (n : Nat) : (s.withTxSeed n).txbuf = s.txbuf := rfl
@[simp] theorem State.withTxSeed_txSeed (s : State) (n : Nat) : (s.withTxSeed n).txSeed = n := rfl
@[simp] theorem State.withTxSeed_host (s : State) (n : Nat) : (s.withTxSeed n).host = s.host := rfl
@[simp] theorem State.withTxSeed_radio (s : State) (n : Nat) : (s.withTxSeed n).radio = s.radio := rfl
@[simp] theorem State.withTxSeed_portVal (s : State) (n : Nat) : (s.withTxSeed n).portVal = s.portVal := rfl
@[simp] theorem State.withTxSeed_freqOut (s : State) (n : Nat) : (s.withTxSeed n).freqOut = s.freqOut := rfl
@[simp] theorem State.withTxSeed_sub (s : State) (n : Nat) : (s.withTxSeed n).sub = s.sub := rfl
@[simp] theorem State.withTxSeed_turns (s : State) (n : Nat) : (s.withTxSeed n).turns = s.turns := rfl
@[simp] theorem State.withTxSeed_tick (s : State) (n : Nat) : (s.withTxSeed n).tick = s.tick := rfl

@[simp] theorem State.withHost_cfg (s : State) (h : HostSide) : (s.withHost h).cfg = s.cfg := rfl
@[simp] theorem State.withHost_sq (s : State) (h : HostSide) : (s.withHost h).sq = s.sq := rfl
@[simp] theorem State.withHost_txbuf (s : State) (h : HostSide) : (s.withHost h).txbuf = s.txbuf := rfl
@[simp] theorem State.withHost_txSeed (s : State) (h : HostSide) : (s.withHost h).txSeed = s.txSeed := rfl
@[simp] theorem State.withHost_host (s : State) (h : HostSide) : (s.withHost h).host = h := rfl
@[simp] theorem State.withHost_radio (s : State) (h : HostSide) : (s.withHost h).radio = s.radio := rfl
@[simp] theorem State.withHost_portVal (s : State) (h : HostSide) : (s.withHost h).portVal = s.portVal := rfl
@[simp] theorem State.withHost_freqOut (s : State) (h : HostSide) : (s.withHost h).freqOut = s.freqOut := rfl
@[simp] theorem State.withHost_sub (s : State) (h : HostSide) : (s.withHost h).sub = s.sub := rfl
@[simp] theorem State.withHost_turns (s : State) (h : HostSide) : (s.withHost h).turns = s.turns := rfl
@[simp] theorem State.withHost_tick (s : State) (h : HostSide) : (s.withHost h).tick = s.tick := rfl

@[simp] theorem State.withTurns_cfg (s : State) (ts : List Turn) : (s.withTurns ts).cfg = s.cfg := rfl
@[simp] theorem State.withTurns_sq (s : State) (ts : List Turn) : (s.withTurns ts).sq = s.sq := rfl
@[simp] theorem State.withTurns_txbuf (s : State) (ts : List Turn) : (s.withTurns ts).txbuf = s.txbuf := rfl
@[simp] theorem State.withTurns_txSeed (s : State) (ts : List Turn) : (s.withTurns ts).txSeed = s.txSeed := rfl
@[simp] theorem State.withTurns_host (s : State) (ts : List Turn) : (s.withTurns ts).host = s.host := rfl
@[simp] theorem State.withTurns_radio (s : State) (ts : List Turn) : (s.withTurns ts).radio = s.radio := rfl
@[simp] theorem State.withTurns_portVal (s : State) (ts : List Turn) : (s.withTurns ts).portVal = s.portVal := rfl
@[simp] theorem State.withTurns_freqOut (s : State) (ts : List Turn) : (s.withTurns ts).freqOut = s.freqOut := rfl
@[simp] theorem State.withTurns_sub (s : State) (ts : List Turn) : (s.withTurns ts).sub = s.sub := rfl
@[simp] theorem State.withTurns_turns (s : State) (ts : List Turn) : (s.withTurns ts).turns = ts := rfl
@[simp] theorem State.withTurns_tick (s : State) (ts : List Turn) : (s.withTurns ts).tick = s.tick := rfl

@[simp] theorem State.spend_cfg (s : State) : (s.spend).cfg = s.cfg := rfl
@[simp] theorem State.spend_sq (s : State) : (s.spend).sq = s.sq := rfl
@[simp] theorem State.spend_txbuf (s : State) : (s.spend).txbuf = s.txbuf := rfl
@[simp] theorem State.spend_txSeed (s : State) : (s.spend).txSeed = s.txSeed := rfl
@[simp] theorem State.spend_host (s : State) : (s.spend).host = s.host := rfl
@[simp] theorem State.spend_radio (s : State) : (s.spend).radio = s.radio := rfl
@[simp] theorem State.spend_portVal (s : State) : (s.spend).portVal = s.portVal := rfl
@[simp] theorem State.spend_freqOut (s : State) : (s.spend).freqOut = s.freqOut := rfl
@[simp] theorem State.spend_sub (s : State) : (s.spend).sub = s.sub := rfl
@[simp] theorem State.spend_turns (s : State) : (s.spend).turns = s.turns := rfl
@[simp] theorem State.spend_tick (s : State) : (s.spend).tick = s.tick + 1 := rfl

end Sys2Proof.Machine
end

