-- ==== Sys2Proof/Laws/Memory.lean ====
section
/-! SUPPORT. `TXBUF`: read after write, and that every write keeps the canonical form. -/

namespace Sys2Proof.Machine

theorem Memory.read_write_same (m : Memory) (a : Nat) (b : Byte) : (m.write a b).read a = some b := by
  induction m with
  | nil => simp [Memory.write, Memory.read]
  | cons c m ih =>
    simp only [Memory.write]
    split
    · simp [Memory.read]
    · split
      · simp [Memory.read]
      · next h1 h2 => simp [Memory.read, Ne.symm h2, ih]

theorem Memory.read_write_other (m : Memory) (a a' : Nat) (b : Byte) (h : a' ≠ a) :
    (m.write a b).read a' = m.read a' := by
  induction m with
  | nil => simp [Memory.write, Memory.read, Ne.symm h]
  | cons c m ih =>
    simp only [Memory.write]
    split
    · simp [Memory.read, Ne.symm h]
    · split
      · next h1 h2 => simp [Memory.read, ← h2, Ne.symm h]
      · simp [Memory.read, ih]

/-- The first index a list holds is at least the smaller of the written one and the old first. -/
theorem Memory.write_head (m : Memory) (a : Nat) (b : Byte) (d : Host.Cell) (m' : Memory)
    (h : m.write a b = d :: m') : d.1 = a ∨ ∃ c t, m = c :: t ∧ d.1 = c.1 := by
  cases m with
  | nil => simp [Memory.write] at h; exact .inl (by rw [← h.1])
  | cons c t =>
    simp only [Memory.write] at h
    split at h
    · simp at h; exact .inl (by rw [← h.1])
    · split at h
      · simp at h; exact .inl (by rw [← h.1])
      · simp at h; exact .inr ⟨c, t, rfl, by rw [← h.1]⟩

theorem Memory.wf_cons (c : Host.Cell) (m : Memory) :
    Memory.wf (c :: m) = true ↔ (∀ d t, m = d :: t → c.1 < d.1) ∧ m.wf = true := by
  cases m <;> simp [Memory.wf]

theorem Memory.wf_write (m : Memory) (a : Nat) (b : Byte) (h : m.wf = true) :
    (m.write a b).wf = true := by
  induction m with
  | nil => rfl
  | cons c m ih =>
    obtain ⟨hc, hm⟩ := (Memory.wf_cons c m).1 h
    simp only [Memory.write]
    split
    · next hlt => exact (Memory.wf_cons _ _).2 ⟨by rintro d t ⟨⟩; exact hlt, h⟩
    · split
      · next heq => exact (Memory.wf_cons _ _).2 ⟨fun d t e => by simpa [heq] using hc d t e, hm⟩
      · next h1 h2 =>
        refine (Memory.wf_cons _ _).2 ⟨fun d t e => ?_, ih hm⟩
        rcases Memory.write_head m a b d t e with hd | ⟨c', t', he, hd⟩
        · omega
        · have := hc c' t' he; omega

theorem Memory.mem_write (m : Memory) (a : Nat) (b : Byte) (c : Host.Cell) (h : c ∈ m.write a b) :
    c = (a, b) ∨ c ∈ m := by
  induction m with
  | nil => simpa [Memory.write] using h
  | cons d m ih =>
    simp only [Memory.write] at h
    split at h
    · simpa using h
    · split at h
      · simp at h; rcases h with h | h <;> simp [h]
      · simp at h
        rcases h with h | h
        · simp [h]
        · rcases ih h with h | h <;> simp [h]

/-- A run of byte writes succeeds exactly when it fits (R14). -/
theorem Memory.writeBytes_isSome (size i : Nat) (bs : List Byte) (m : Memory) :
    (Memory.writeBytes size i bs m).isSome = true ↔ bs = [] ∨ i + bs.length ≤ size := by
  induction bs generalizing i m with
  | nil => simp [Memory.writeBytes]
  | cons b bs ih =>
    simp only [Memory.writeBytes]
    split
    · rw [ih]; cases bs <;> simp <;> omega
    · simp; omega

theorem Memory.wf_writeBytes (size i : Nat) (bs : List Byte) (m m' : Memory)
    (h : Memory.writeBytes size i bs m = some m') (hm : m.wf = true) : m'.wf = true := by
  induction bs generalizing i m with
  | nil => simp [Memory.writeBytes] at h; rw [← h]; exact hm
  | cons b bs ih =>
    simp only [Memory.writeBytes] at h
    split at h
    · exact ih _ _ h (Memory.wf_write m i b hm)
    · cases h

/-- Everything a run of byte writes can do to a read. -/
theorem Memory.read_writeBytes (size i : Nat) (bs : List Byte) (m m' : Memory)
    (h : Memory.writeBytes size i bs m = some m') (a : Nat) :
    m'.read a = if i ≤ a ∧ a < i + bs.length then bs[a - i]? else m.read a := by
  induction bs generalizing i m with
  | nil => simp [Memory.writeBytes] at h; rw [← h]; rw [if_neg (by simp)]
  | cons b bs ih =>
    simp only [Memory.writeBytes] at h
    split at h
    · rw [ih _ _ h]
      by_cases ha : a = i
      · subst ha; rw [if_neg (by omega), if_pos (by simp), Memory.read_write_same]; simp
      · rw [Memory.read_write_other _ _ _ _ ha]
        by_cases h1 : i + 1 ≤ a ∧ a < i + 1 + bs.length
        · rw [if_pos h1, if_pos (by simp; omega), show a - i = (a - (i + 1)) + 1 by omega]
          simp
        · rw [if_neg h1, if_neg (by simp; omega)]
    · cases h

theorem Memory.mem_writeBytes (size i : Nat) (bs : List Byte) (m m' : Memory)
    (h : Memory.writeBytes size i bs m = some m') (c : Host.Cell) (hc : c ∈ m') :
    (i ≤ c.1 ∧ c.1 < i + bs.length) ∨ c ∈ m := by
  induction bs generalizing i m with
  | nil => simp [Memory.writeBytes] at h; rw [h]; exact .inr hc
  | cons b bs ih =>
    simp only [Memory.writeBytes] at h
    split at h
    · rcases ih _ _ h with h1 | h1
      · left; simp; omega
      · rcases Memory.mem_write _ _ _ _ h1 with h2 | h2
        · left; rw [h2]; simp
        · exact .inr h2
    · cases h

/-- The buffer after reset is in canonical form. -/
theorem reset_txbuf_wf : State.reset.txbuf.wf = true := rfl

end Sys2Proof.Machine
end

