-- ==== Sys2Proof/Laws/Radio.lean ====
section
/-! SUPPORT. What the radio's operations leave alone: its registers, its power, and every latch that is set. -/

namespace Sys2Proof.Machine

/-- No latch of `l` is clear in `l'` (R173). -/
def Latches.le (l l' : Latches) : Prop := ∀ e, l.get e = true → l'.get e = true

theorem Latches.le_refl (l : Latches) : l.le l := fun _ h => h

theorem Latches.le_trans {a b c : Latches} (h : a.le b) (h' : b.le c) : a.le c :=
  fun e he => h' e (h e he)

theorem Latches.le_orWith (l f : Latches) : l.le (l.orWith f) := by
  intro e h; cases e <;> simp_all [Latches.get, Latches.orWith]

theorem Latches.le_put_true (l : Latches) (e : PortEvent) : l.le (l.put e true) := by
  intro e' h; cases e <;> cases e' <;> simp_all [Latches.get, Latches.put]

/-- What a reaction, a completion or a read of the radio keeps. -/
def Radio.keeps (r r' : Radio) : Prop :=
  r'.regs = r.regs ∧ r'.powered = r.powered ∧ r.ev.le r'.ev

theorem Radio.keeps_refl (r : Radio) : r.keeps r := ⟨rfl, rfl, Latches.le_refl _⟩

theorem Radio.keeps_trans {a b c : Radio} (h : a.keeps b) (h' : b.keeps c) : a.keeps c :=
  ⟨h'.1.trans h.1, h'.2.1.trans h.2.1, Latches.le_trans h.2.2 h'.2.2⟩

theorem Radio.unspecified_keeps (tick : Nat) (r : Radio) : r.keeps (r.unspecified tick) :=
  ⟨rfl, rfl, Latches.le_orWith _ _⟩

theorem Radio.react_keeps (v : Bool) (t : RadioTask) (tick : Nat) (r : Radio) :
    r.keeps (r.react v t tick) := by
  have hu := Radio.unspecified_keeps tick r
  unfold Radio.react
  split
  · exact hu
  · split <;> split <;> first
      | exact hu
      | exact ⟨rfl, rfl, Latches.le_refl _⟩
      | (split <;> first | exact hu | exact ⟨rfl, rfl, Latches.le_refl _⟩)

theorem Radio.latch_keeps (e : RadioEvent) (r : Radio) : r.keeps (r.latch e) := by
  cases e <;> first
    | exact Radio.keeps_refl r
    | exact ⟨rfl, rfl, Latches.le_put_true _ _⟩

theorem Radio.foldl_react_keeps (tick : Nat) (ts : List RadioTask) (r : Radio) :
    r.keeps (ts.foldl (fun r' t => r'.react true t tick) r) := by
  induction ts generalizing r with
  | nil => exact Radio.keeps_refl r
  | cons t ts ih => exact Radio.keeps_trans (Radio.react_keeps true t tick r) (ih _)

theorem Radio.fire_keeps (e : RadioEvent) (d : Bool) (tick : Nat) (r : Radio) : r.keeps (r.fire e d tick) := by
  unfold Radio.fire
  split
  · exact Radio.keeps_trans (Radio.latch_keeps e r) ⟨rfl, rfl, Latches.le_refl _⟩
  · exact Radio.keeps_trans (Radio.latch_keeps e r) (Radio.foldl_react_keeps _ _ _)

theorem Radio.complete_keeps (i d : Bool) (tick : Nat) (r : Radio) : r.keeps (r.complete i d tick) := by
  unfold Radio.complete
  split <;> first
    | exact Radio.keeps_refl r
    | exact Radio.keeps_trans ⟨rfl, rfl, Latches.le_refl _⟩ (Radio.fire_keeps _ _ _ _)

theorem radioReads_keeps (i : Nat) (s : State) : s.radio.keeps (radioReads i s) := by
  unfold radioReads
  split <;> exact ⟨rfl, rfl, Latches.le_refl _⟩

/-- A turn of the radio (R160, R173). -/
theorem radioTurn_keeps (a : RadioAct) (s : State) : s.radio.keeps (radioTurn a s) := by
  have hr (t : RadioTask) (ts : List RadioTask) :
      s.radio.keeps (Radio.react true t s.tick { s.radio with pending := ts }) :=
    Radio.keeps_trans ⟨rfl, rfl, Latches.le_refl _⟩ (Radio.react_keeps _ _ _ _)
  unfold radioTurn
  split
  · exact Radio.keeps_refl _
  · cases a <;> simp only <;> split
    · exact hr _ _
    · exact Radio.complete_keeps _ _ _ _
    · exact hr _ _
    · exact radioReads_keeps _ _
    · exact ⟨rfl, rfl, Latches.le_orWith _ _⟩
    · exact Radio.keeps_refl _

/-- Without power the radio takes no step (R169). -/
theorem radioTurn_unpowered (a : RadioAct) (s : State) (h : s.radio.powered = false) :
    radioTurn a s = s.radio := by simp [radioTurn, h]

/-- A clean radio takes no step of its own: nothing takes it out of `Disabled` but a trigger (R162). -/
theorem radioTurn_clean (a : RadioAct) (s : State) (h : s.radio.clean) (hu : s.unconfiguredTx = false) :
    radioTurn a s = s.radio := by
  obtain ⟨h1, _, h3, h4, h5⟩ := h
  cases a <;> simp [radioTurn, h3, h4, h5, hu, Radio.complete, radioReads, h1]

/-- Outside a transmit command, and with a profile applied, the radio is held to its rules (R130). -/
theorem State.unconfiguredTx_eq_false {s : State} (h : s.sq.cmd.isTx = false ∨ s.sq.profile ≠ .none) :
    s.unconfiguredTx = false := by
  rcases h with h | h <;> simp [State.unconfiguredTx, h]

/-- A trigger delivered to a radio that is held to its rules (R82). -/
theorem trigger_of_configured (t : PortTask) {s : State} (h : s.unconfiguredTx = false) :
    trigger t s = (s.withRadio (s.radio.react false (.port t) s.tick)).spend := by
  simp [trigger, h]

/-- A trigger of a transmit command on an unconfigured radio (R130). -/
theorem trigger_of_unconfigured (t : PortTask) {s : State} (h : s.unconfiguredTx = true) :
    trigger t s = (s.withRadio (s.radio.unspecified s.tick)).spend := by
  simp [trigger, h]

/-- A powered radio, outside a run that has strayed, with `SHORTS = {}` and nothing pending: everything its turn can do
(R163 to R167). -/
theorem radioTurn_noShorts (a : RadioAct) (s : State) (hp : s.radio.pending = []) (hs : s.radio.strayed = false)
    (hu : s.unconfiguredTx = false) (hw : s.radio.powered = true) (hr : s.radio.regs.shorts = []) :
    radioTurn a s = s.radio ∨
    (∃ x, radioTurn a s = { s.radio with air := x }) ∨
    (s.radio.rstate = .txRampUp ∧
      radioTurn a s = { s.radio with rstate := .txIdle, ev := s.radio.ev.put .txready true }) ∨
    (s.radio.rstate = .tx ∧
      radioTurn a s = { s.radio with rstate := .txIdle, ev := s.radio.ev.put .phyend true }) ∨
    ((s.radio.rstate = .txDisable ∨ s.radio.rstate = .rxDisable) ∧
      radioTurn a s = { s.radio with rstate := .disabled, ev := s.radio.ev.put .disabled true }) ∨
    (s.radio.rstate = .rxRampUp ∧ radioTurn a s = { s.radio with rstate := .rxIdle }) ∨
    (s.radio.rstate = .cca ∧ radioTurn a s = { s.radio with rstate := .rxIdle }) := by
  cases a with
  | stray r f n => exact .inl (by simp [radioTurn, hw, hs, hu])
  | read i =>
    simp only [radioTurn, hw, hp, radioReads]
    split
    · simp_all
    · split
      · exact .inr (.inl ⟨_, rfl⟩)
      · exact .inl rfl
  | complete i d =>
    have hf (e : RadioEvent) (q : RState) :
        Radio.fire e d s.tick { s.radio with rstate := q } = Radio.latch e { s.radio with rstate := q } := by
      cases d <;> cases e <;> simp [Radio.fire, Radio.latch, tasksOf, hr, hp]
    have ht : radioTurn (.complete i d) s = s.radio.complete i d s.tick := by simp [radioTurn, hw, hp]
    rw [ht]
    unfold Radio.complete
    split <;> simp_all [Radio.latch]
    cases i <;> simp

/-- A register write leaves the sequencer's part, the buffer and the host alone. -/
theorem configWrite_sq (f g : Regs → Regs) (s : State) : (configWrite f g s).sq = s.sq := by
  unfold configWrite; split <;> rfl

end Sys2Proof.Machine
end

