-- ==== Sys2Proof/Laws/Step.lean ====
section
/-! SUPPORT. Everything a step can do, said once (`step_cases`), and what a micro-operation leaves alone
(`exec_micro_keeps`). -/

namespace Sys2Proof.Machine

/-- The sequencer's turn uses up at most its own entry of `turns`. -/
theorem takeTurn_sequencer {s u : State} (h : takeTurn s = .sequencer u) :
    u = s.withTurns u.turns ∧ ((s.turns = [] ∧ u.turns = []) ∨ s.turns = .sequencer :: u.turns) := by
  unfold takeTurn at h
  split at h <;> cases h
  · next h => exact ⟨by cases s; simp_all [State.withTurns], .inl ⟨h, h⟩⟩
  · next h => exact ⟨rfl, .inr h⟩

/-- The other agents' turns. -/
theorem takeTurn_other {s u : State} (h : takeTurn s = .other u) :
    (∃ a ts, s.turns = .radio a :: ts ∧ u = ((s.withRadio (radioTurn a s)).spend.withTurns ts)) ∨
    (∃ hs ts, (s.host.offer ≠ none → hs.offer = s.host.offer) ∧ u = ((s.withHost hs).withTurns ts) ∧
      (∀ ts', s.turns ≠ .reset :: ts') ∧ ∀ a ts', s.turns ≠ .radio a :: ts') ∨
    (∃ ts, s.turns = .reset :: ts ∧ u = (blockReset s).withTurns ts) := by
  unfold takeTurn at h
  split at h <;> cases h
  · next a ts h => exact .inl ⟨a, ts, h, rfl⟩
  · next o d ts h =>
    refine .inr (.inl ?_)
    simp only [h]
    cases ho : s.host.offer with
    | none =>
      refine ⟨{ s.host with offer := some o, offerData := d, offerTouched := false }, ts, by simp, ?_,
        by simp, by simp⟩
      simp only [hostOffers, ho]
    | some o' => exact ⟨s.host, ts, by simp [ho], by simp only [hostOffers, ho]; rfl, by simp, by simp⟩
  · next d ts h =>
    exact .inr (.inl ⟨{ s.host with offerData := d, offerTouched := s.host.offerTouched || s.host.offer.isSome }, ts,
      fun _ => rfl, rfl, by simp [h], by simp [h]⟩)
  · next d ts h =>
    exact .inr (.inl ⟨{ s.host with payload := d, payloadTouched := s.host.payloadTouched || framePending s }, ts,
      fun _ => rfl, rfl, by simp [h], by simp [h]⟩)
  · next ts h => exact .inr (.inr ⟨ts, h, rfl⟩)

/-- Everything a step that answers a next state can be. -/
theorem step_cases {s t : State} (h : step s = .next t) :
    takeTurn s = .other t ∨
    ∃ u, takeTurn s = .sequencer u ∧
      ((u.sq.busy = false ∧ u.host.offer = none ∧ t = u) ∨
       (∃ o e, u.sq.busy = false ∧ u.host.offer = some o ∧ decode ⟨.command, o.cmd, o.len⟩ = .error e ∧
          t = rejectBadCommand u) ∨
       (∃ o i, u.sq.busy = false ∧ u.host.offer = some o ∧ decode ⟨.command, o.cmd, o.len⟩ = .ok i ∧
          exec i u = .next t) ∨
       (∃ r, u.sq.busy = true ∧ rowAt u.sq.cmd u.sq.step = some r ∧ r.act = .lengthCheck ∧ t = lengthCheck u) ∨
       (∃ r i v, u.sq.busy = true ∧ rowAt u.sq.cmd u.sq.step = some r ∧ r.act = .run i ∧
          exec i u = .next v ∧ t = advance v)) := by
  unfold step at h
  split at h
  · next u hu => cases h; exact .inl hu
  · next u hu =>
    refine .inr ⟨u, hu, ?_⟩
    unfold fetch at h
    cases hb : u.sq.busy <;> simp only [hb, if_true, if_false, Bool.false_eq_true] at h
    · cases ho : u.host.offer with
      | none => simp only [ho] at h; cases h; exact .inl ⟨rfl, rfl, rfl⟩
      | some o =>
        simp only [ho] at h
        cases hd : decode ⟨.command, o.cmd, o.len⟩ with
        | error e => simp only [hd] at h; cases h; exact .inr (.inl ⟨o, e, rfl, rfl, hd, rfl⟩)
        | ok i => simp only [hd] at h; exact .inr (.inr (.inl ⟨o, i, rfl, rfl, hd, h⟩))
    · cases hr : rowAt u.sq.cmd u.sq.step with
      | none => simp only [hr] at h; cases h
      | some r =>
        simp only [hr] at h
        cases ha : r.act with
        | lengthCheck =>
          simp only [ha] at h; cases h
          exact .inr (.inr (.inr (.inl ⟨r, rfl, rfl, ha, rfl⟩)))
        | run i =>
          simp only [ha] at h
          cases he : exec i u with
          | next v =>
            simp only [he] at h; cases h
            exact .inr (.inr (.inr (.inr ⟨r, i, v, rfl, rfl, ha, he, rfl⟩)))
          | fault f => simp only [he] at h; cases h
          | refused f => simp only [he] at h; cases h

/-- The five host commands, as syntax. -/
def isCommand : Instr → Bool
  | .disable | .cfgStd | .cfgLr | .txp _ _ | .txs _ _ => true
  | .regwrPower _ | .regwrMode _ | .regwrPktlay0 _ | .regwrPktlay1 | .regwrCrccfg _ | .regwrCrcpoly
  | .regwrCrcseed | .regwrCcacfg | .regwrFreq _ | .regwrAddrbase | .regwrAddrprefix
  | .regwrTxpower _ | .regwrShorts _ | .regwrPktptr | .regrdState
  | .taskTxen | .taskStart | .taskDisable | .taskRxen
  | .evrdTxready | .evrdPhyend | .evrdDisabled | .evclrTxready | .evclrPhyend | .evclrDisabled
  | .delayPowerOff | .delayPowerOn | .delayHoldCarrier | .delayShortsTx
  | .freqmap _ | .frame | .waitAck _ | .powerCycle | .dis => false

/-- The instructions that write the sequencer's part: the commands, and the two pseudo-operations that wait (`POLLCNT`, R196). -/
def movesSequencer : Instr → Bool
  | .waitAck _ | .dis => true
  | i => isCommand i

/-- What every instruction but those keeps: the parameters, the sequencer's part, the host's side, the moves to
come and the unwritten content of `TXBUF`. -/
def State.sequencerSame (s t : State) : Prop :=
  t.cfg = s.cfg ∧ t.sq = s.sq ∧ t.host = s.host ∧ t.turns = s.turns ∧ t.txSeed = s.txSeed

theorem configWrite_same (f g : Regs → Regs) (s : State) :
    s.sequencerSame (configWrite f g s) ∧ (configWrite f g s).txbuf = s.txbuf := by
  unfold configWrite; split <;> exact ⟨⟨rfl, rfl, rfl, rfl, rfl⟩, rfl⟩

theorem powerOn_same (s : State) : s.sequencerSame (powerOn s) ∧ (powerOn s).txbuf = s.txbuf := by
  unfold powerOn; split
  · exact configWrite_same _ _ _
  · exact ⟨⟨rfl, rfl, rfl, rfl, rfl⟩, rfl⟩

/-- A micro-operation, a function or `POWER_CYCLE` that answers a next state. -/
theorem exec_micro_keeps {i : Instr} {s t : State} (hi : movesSequencer i = false) (h : exec i s = .next t) :
    s.sequencerSame t ∧ (i ≠ .frame → t.txbuf = s.txbuf) := by
  have hc := configWrite_same
  have hp := powerOn_same s
  cases i <;> first
    | (simp [movesSequencer, isCommand] at hi; done)
    | (cases h; exact ⟨⟨rfl, rfl, rfl, rfl, rfl⟩, fun _ => rfl⟩)
    | (simp only [exec, execRegwrMode, execRegwrPktlay0, execRegwrPktlay1, execRegwrCrccfg, execRegwrCrcpoly,
        execRegwrCrcseed, execRegwrCcacfg, execRegwrAddrbase, execRegwrAddrprefix, execRegwrTxpower,
        Host.Outcome.next.injEq] at h
       rw [← h]; exact ⟨(hc _ _ _).1, fun _ => (hc _ _ _).2⟩)
    | skip
  case regwrPower img =>
    cases img <;> cases h
    · exact ⟨⟨rfl, rfl, rfl, rfl, rfl⟩, fun _ => rfl⟩
    · exact ⟨hp.1, fun _ => hp.2⟩
  case regwrFreq img =>
    simp only [exec, execRegwrFreq] at h
    split at h <;> cases h
    exact ⟨(hc _ _ _).1, fun _ => (hc _ _ _).2⟩
  case freqmap f =>
    simp only [exec, execFreqmap] at h
    split at h <;> cases h
    exact ⟨⟨rfl, rfl, rfl, rfl, rfl⟩, fun _ => rfl⟩
  case frame =>
    simp only [exec, execFrame] at h
    split at h <;> cases h
    exact ⟨⟨rfl, rfl, rfl, rfl, rfl⟩, by simp⟩
  case powerCycle =>
    simp only [exec, execPowerCycle] at h
    split at h <;> cases h <;> first
      | exact ⟨⟨rfl, rfl, rfl, rfl, rfl⟩, fun _ => rfl⟩
      | exact ⟨hp.1, fun _ => hp.2⟩

/-- A `FRAME` that answers a next state. -/
theorem execFrame_next {s t : State} (h : execFrame s = .next t) :
    ∃ m, Memory.writeBytes s.cfg.maxPacketLen 0 (frameBytes s) s.txbuf = some m ∧ t = (s.withTxbuf m).spend := by
  unfold execFrame at h
  split at h <;> cases h
  exact ⟨_, ‹_›, rfl⟩

/-- A word at the command port decodes to a command, or to nothing (R60, R69). -/
theorem decodeCommand_isCommand {cmd : Byte} {len : Half} {i : Instr} (h : decodeCommand cmd len = .ok i) :
    isCommand i = true := by
  unfold decodeCommand at h
  split at h
  · cases h
  · split at h <;> cases h <;> rfl

end Sys2Proof.Machine
end

