-- ==== Sys2Proof/Laws/MicroProgram.lean ====
section
/-! SUPPORT. The micro-program tables, checked once as data: where a row may lead, and that `SEQ` is there what the tables
say. -/

namespace Sys2Proof.Machine

/-- Every encodable frequency parameter has a pair (R5, R100). -/
theorem freqMap_profile {p : Params} (h : p.wf = true) (sel : ProfileSel) :
    ∃ v b, freqMap p (profileMhz p sel) = some (v, b) := by
  simp only [Params.wf, Bool.and_eq_true, decide_eq_true_eq] at h
  obtain ⟨⟨⟨-, hL⟩, hS⟩, -⟩ := h
  have hd : p.inFreqDomain (profileMhz p sel) = true := by
    have h1 : 2360 ≤ profileMhz p sel := by cases sel <;> simp only [profileMhz] <;> omega
    have h2 : profileMhz p sel ≤ p.freqMaxMhz := by cases sel <;> simp only [profileMhz] <;> omega
    simp [Params.inFreqDomain, h1, h2]
  simp only [freqMap, hd, if_true]
  split <;> exact ⟨_, _, rfl⟩

/-- A target that a row of command `c` may lead to with `SEQ = q`. -/
def targetOk (c : Cmd) (q : Seq) (n : Nat) : Target → Bool
  | .step m => decide (n ≤ m ∧ 1 ≤ m ∧ m < (program c).length ∧ q = seqAt c m)
  | .done => decide (q = .idle) && (!c.isCfg || decide (n = 15))

/-- What the tables promise of the row at a step (R13, R123): targets inside the program and not backward, `SEQ` as the
table has it, a poll that waits where it stands. -/
def rowOk (c : Cmd) (n : Nat) (r : Row) : Bool :=
  match r.next with
  | .go k =>
    targetOk c (seqAfter c n true (seqAt c n)) n k && targetOk c (seqAfter c n false (seqAt c n)) n k
  | .ifDisabled yes no | .ifHold yes no =>
    targetOk c (seqAfter c n true (seqAt c n)) n yes && targetOk c (seqAfter c n false (seqAt c n)) n yes &&
    targetOk c (seqAfter c n true (seqAt c n)) n no && targetOk c (seqAfter c n false (seqAt c n)) n no
  | .ifSet yes no =>
    targetOk c (seqAfter c n true (seqAt c n)) n yes && decide (no = .step n) &&
    decide (seqAfter c n false (seqAt c n) = seqAt c n)

theorem program_rows_ok (c : Cmd) :
    ((List.range 19).all fun n =>
      match rowAt c n with
      | some r => rowOk c n r
      | none => true) = true := by
  cases c <;> decide

theorem program_length_le (c : Cmd) : (program c).length ≤ 19 := by cases c <;> decide

theorem rowAt_lt {c : Cmd} {n : Nat} {r : Row} (h : rowAt c n = some r) : n < (program c).length := by
  unfold rowAt at h
  exact (List.getElem?_eq_some_iff.1 h).1

theorem rowAt_isSome {c : Cmd} {n : Nat} (h : n < (program c).length) : ∃ r, rowAt c n = some r :=
  ⟨_, List.getElem?_eq_getElem h⟩

theorem rowAt_ok {c : Cmd} {n : Nat} {r : Row} (h : rowAt c n = some r) : rowOk c n r = true := by
  have hl := rowAt_lt h
  have hn : n ∈ List.range 19 := List.mem_range.2 (Nat.lt_of_lt_of_le hl (program_length_le c))
  simpa [h] using List.all_eq_true.1 (program_rows_ok c) n hn

/-- No row of a micro-program runs a command or a waiting pseudo-operation. -/
theorem program_rows_micro (c : Cmd) :
    ((program c).all fun r =>
      match r.act with
      | .run i => !movesSequencer i
      | .lengthCheck => c.isTx) = true := by
  cases c <;> decide

theorem row_not_mover {c : Cmd} {n : Nat} {r : Row} {i : Instr} (h : rowAt c n = some r)
    (ha : r.act = .run i) : movesSequencer i = false := by
  have hm : r ∈ program c := by
    obtain ⟨hl, he⟩ := List.getElem?_eq_some_iff.1 h
    exact he ▸ List.getElem_mem hl
  have := List.all_eq_true.1 (program_rows_micro c) r hm
  simpa [ha] using this

/-- Everything a polling read of 0 can do: nothing, the end of the command, or one count (R86, R196). -/
theorem pollMissed_cases (s : State) :
    (s.cfg.waitBound = none ∧ pollMissed s = s) ∨
    (s.cfg.waitBound = some (s.sq.pollcnt + 1) ∧ pollMissed s = timeOut s) ∨
    (∃ n, s.cfg.waitBound = some n ∧ s.sq.pollcnt + 1 ≠ n ∧
      pollMissed s = s.withSq { s.sq with pollcnt := s.sq.pollcnt + 1 }) := by
  unfold pollMissed
  cases h : s.cfg.waitBound with
  | none => exact .inl ⟨rfl, rfl⟩
  | some n =>
    by_cases hn : s.sq.pollcnt + 1 = n
    · exact .inr (.inl ⟨by rw [hn], by simp only [if_pos hn]⟩)
    · exact .inr (.inr ⟨n, rfl, hn, by simp only [if_neg hn]⟩)

/-- What the rest of a sequencer step leaves alone. -/
theorem advance_keeps (v : State) :
    advance v = v.withSq (advance v).sq := by
  have hf : ∀ k (s : State), follow k s = s.withSq (follow k s).sq := by
    intro k s; cases k <;> rfl
  have hp : ∀ (s : State), pollMissed s = s.withSq (pollMissed s).sq := by
    intro s; unfold pollMissed
    split
    · rfl
    · split <;> rfl
  unfold advance
  split
  · rfl
  · simp only
    split
    · exact hf _ _
    · exact hf _ _
    · split
      · exact hf _ _
      · exact hp _
    · exact hf _ _

/-- Everything the rest of a sequencer step can be, for the row at `STEP`: the target reached, with `SEQ` moved by the table;
or a poll missed. -/
theorem advance_cases {v : State} {r : Row} (h : rowAt v.sq.cmd v.sq.step = some r) :
    (∃ k hit, advance v =
        follow k (v.withSq { v.sq with seq := seqAfter v.sq.cmd v.sq.step hit v.sq.seq }) ∧
      (r.next = .go k ∨ (∃ x, r.next = .ifDisabled k x ∧ v.portVal = .state .disabled) ∨
        (∃ x, r.next = .ifDisabled x k ∧ v.portVal ≠ .state .disabled) ∨
        (∃ x, r.next = .ifSet k x ∧ hit = true ∧ v.portVal = .latch true) ∨
        (∃ x, r.next = .ifHold k x ∧ v.sq.hold = true) ∨ ∃ x, r.next = .ifHold x k ∧ v.sq.hold = false)) ∨
    (∃ yes no, r.next = .ifSet yes no ∧ v.portVal ≠ .latch true ∧ advance v =
      pollMissed (v.withSq { v.sq with seq := seqAfter v.sq.cmd v.sq.step false v.sq.seq })) := by
  unfold advance
  simp only [h]
  cases hn : r.next with
  | go k => exact .inl ⟨k, _, rfl, .inl rfl⟩
  | ifDisabled y n =>
    by_cases hd : v.portVal = .state .disabled
    · exact .inl ⟨y, decide (v.portVal = .latch true), by simp only [if_pos hd], .inr (.inl ⟨n, rfl, hd⟩)⟩
    · exact .inl ⟨n, decide (v.portVal = .latch true), by simp only [if_neg hd], .inr (.inr (.inl ⟨y, rfl, hd⟩))⟩
  | ifSet y n =>
    by_cases hd : v.portVal = .latch true
    · exact .inl ⟨y, true, by simp [hd], .inr (.inr (.inr (.inl ⟨n, rfl, rfl, hd⟩)))⟩
    · exact .inr ⟨y, n, rfl, hd, by simp [hd]⟩
  | ifHold y n =>
    cases hh : v.sq.hold
    · exact .inl ⟨n, _, rfl, .inr (.inr (.inr (.inr (.inr ⟨y, rfl, rfl⟩))))⟩
    · exact .inl ⟨y, _, rfl, .inr (.inr (.inr (.inr (.inl ⟨n, rfl, rfl⟩))))⟩

end Sys2Proof.Machine
end

