-- ==== Sys2Proof/Laws/PerInstr.lean ====
section
/-! SUPPORT. The family `TableWord`: an instruction's encoded word is its row of spec/opcode_table.json, on the port of
its format, and the rows of format FN have no word. The rows are copied here from the table, not from the
encoder. -/

namespace Sys2Proof.Laws

/-- A row's format, mask and match; `none` for format FN. -/
def opcodeRow : Instr → Option (Port × Byte × Byte)
  | .disable => some (.command, 0xFF, 0x00)
  | .cfgStd => some (.command, 0xFF, 0x01)
  | .cfgLr => some (.command, 0xFF, 0x09)
  | .txp _ _ => some (.command, 0xF7, 0x02)
  | .txs _ _ => some (.command, 0xF7, 0x12)
  | .regwrPower _ => some (.micro, 0xFF, 0x00)
  | .regwrMode _ => some (.micro, 0xFF, 0x01)
  | .regwrPktlay0 _ => some (.micro, 0xFF, 0x03)
  | .regwrPktlay1 => some (.micro, 0xFF, 0x04)
  | .regwrCrccfg _ => some (.micro, 0xFF, 0x05)
  | .regwrCrcpoly => some (.micro, 0xFF, 0x06)
  | .regwrCrcseed => some (.micro, 0xFF, 0x07)
  | .regwrCcacfg => some (.micro, 0xFF, 0x08)
  | .regwrFreq _ => some (.micro, 0xFF, 0x09)
  | .regwrAddrbase => some (.micro, 0xFF, 0x0A)
  | .regwrAddrprefix => some (.micro, 0xFF, 0x0B)
  | .regwrTxpower _ => some (.micro, 0xFF, 0x0C)
  | .regwrShorts _ => some (.micro, 0xFF, 0x0D)
  | .regwrPktptr => some (.micro, 0xFF, 0x0E)
  | .regrdState => some (.micro, 0xFF, 0x2F)
  | .taskTxen => some (.micro, 0xFF, 0x40)
  | .taskStart => some (.micro, 0xFF, 0x41)
  | .taskDisable => some (.micro, 0xFF, 0x42)
  | .taskRxen => some (.micro, 0xFF, 0x43)
  | .evrdTxready => some (.micro, 0xFF, 0x60)
  | .evrdPhyend => some (.micro, 0xFF, 0x61)
  | .evrdDisabled => some (.micro, 0xFF, 0x62)
  | .evclrTxready => some (.micro, 0xFF, 0x80)
  | .evclrPhyend => some (.micro, 0xFF, 0x81)
  | .evclrDisabled => some (.micro, 0xFF, 0x82)
  | .delayPowerOff => some (.micro, 0xFF, 0xA0)
  | .delayPowerOn => some (.micro, 0xFF, 0xA1)
  | .delayHoldCarrier => some (.micro, 0xFF, 0xA2)
  | .delayShortsTx => some (.micro, 0xFF, 0xA3)
  | .freqmap _ => none
  | .frame => none
  | .waitAck _ => none
  | .powerCycle => none
  | .dis => none

/-- The encoded word lies in the row. -/
def TableWord.Statement (i : Instr) : Prop :=
  match opcodeRow i, encode i with
  | some (p, mask, row), some w => w.port = p ∧ w.word &&& mask = row
  | none, none => True
  | _, _ => False

theorem TableWord.disable : TableWord.Statement .disable := ⟨rfl, by decide⟩
theorem TableWord.cfgStd : TableWord.Statement .cfgStd := ⟨rfl, by decide⟩
theorem TableWord.cfgLr : TableWord.Statement .cfgLr := ⟨rfl, by decide⟩
theorem TableWord.txp (h : Bool) (len : Half) : TableWord.Statement (.txp h len) := by cases h <;> exact ⟨rfl, by dsimp only; decide⟩
theorem TableWord.txs (h : Bool) (len : Half) : TableWord.Statement (.txs h len) := by cases h <;> exact ⟨rfl, by dsimp only; decide⟩
theorem TableWord.regwrPower (img : PowerImage) : TableWord.Statement (.regwrPower img) := by cases img <;> exact ⟨rfl, by decide⟩
theorem TableWord.regwrMode (img : ProfileSel) : TableWord.Statement (.regwrMode img) := by cases img <;> exact ⟨rfl, by decide⟩
theorem TableWord.regwrPktlay0 (img : ProfileSel) : TableWord.Statement (.regwrPktlay0 img) := by cases img <;> exact ⟨rfl, by decide⟩
theorem TableWord.regwrPktlay1 : TableWord.Statement .regwrPktlay1 := ⟨rfl, by decide⟩
theorem TableWord.regwrCrccfg (img : ProfileSel) : TableWord.Statement (.regwrCrccfg img) := by cases img <;> exact ⟨rfl, by decide⟩
theorem TableWord.regwrCrcpoly : TableWord.Statement .regwrCrcpoly := ⟨rfl, by decide⟩
theorem TableWord.regwrCrcseed : TableWord.Statement .regwrCrcseed := ⟨rfl, by decide⟩
theorem TableWord.regwrCcacfg : TableWord.Statement .regwrCcacfg := ⟨rfl, by decide⟩
theorem TableWord.regwrFreq (img : ProfileSel) : TableWord.Statement (.regwrFreq img) := by cases img <;> exact ⟨rfl, by decide⟩
theorem TableWord.regwrAddrbase : TableWord.Statement .regwrAddrbase := ⟨rfl, by decide⟩
theorem TableWord.regwrAddrprefix : TableWord.Statement .regwrAddrprefix := ⟨rfl, by decide⟩
theorem TableWord.regwrTxpower (img : ProfileSel) : TableWord.Statement (.regwrTxpower img) := by cases img <;> exact ⟨rfl, by decide⟩
theorem TableWord.regwrShorts (img : ShortsImage) : TableWord.Statement (.regwrShorts img) := by cases img <;> exact ⟨rfl, by decide⟩
theorem TableWord.regwrPktptr : TableWord.Statement .regwrPktptr := ⟨rfl, by decide⟩
theorem TableWord.regrdState : TableWord.Statement .regrdState := ⟨rfl, by decide⟩
theorem TableWord.taskTxen : TableWord.Statement .taskTxen := ⟨rfl, by decide⟩
theorem TableWord.taskStart : TableWord.Statement .taskStart := ⟨rfl, by decide⟩
theorem TableWord.taskDisable : TableWord.Statement .taskDisable := ⟨rfl, by decide⟩
theorem TableWord.taskRxen : TableWord.Statement .taskRxen := ⟨rfl, by decide⟩
theorem TableWord.evrdTxready : TableWord.Statement .evrdTxready := ⟨rfl, by decide⟩
theorem TableWord.evrdPhyend : TableWord.Statement .evrdPhyend := ⟨rfl, by decide⟩
theorem TableWord.evrdDisabled : TableWord.Statement .evrdDisabled := ⟨rfl, by decide⟩
theorem TableWord.evclrTxready : TableWord.Statement .evclrTxready := ⟨rfl, by decide⟩
theorem TableWord.evclrPhyend : TableWord.Statement .evclrPhyend := ⟨rfl, by decide⟩
theorem TableWord.evclrDisabled : TableWord.Statement .evclrDisabled := ⟨rfl, by decide⟩
theorem TableWord.delayPowerOff : TableWord.Statement .delayPowerOff := ⟨rfl, by decide⟩
theorem TableWord.delayPowerOn : TableWord.Statement .delayPowerOn := ⟨rfl, by decide⟩
theorem TableWord.delayHoldCarrier : TableWord.Statement .delayHoldCarrier := ⟨rfl, by decide⟩
theorem TableWord.delayShortsTx : TableWord.Statement .delayShortsTx := ⟨rfl, by decide⟩
theorem TableWord.freqmap (f : Half) : TableWord.Statement (.freqmap f) := trivial
theorem TableWord.frame : TableWord.Statement .frame := trivial
theorem TableWord.waitAck (e : PortEvent) : TableWord.Statement (.waitAck e) := trivial
theorem TableWord.powerCycle : TableWord.Statement .powerCycle := trivial
theorem TableWord.dis : TableWord.Statement .dis := trivial

end Sys2Proof.Laws
end

