-- ==== Sys2Proof/Tests/Slice0.lean ====
section
/-! SUPPORT. Tests: decoding by words written out from 30_encoding.md, one step of each instruction on a small state, and a
state that meets the hypotheses of each statement. Expected values: 95_test_vectors.md (the vector is named), with its parameter set
`ILLUS`, or hand calculation from the rule named. -/

namespace Sys2Proof.Tests

open Sys2Proof.Machine

/-- Field codes, all different. -/
def illusCodes : Codes :=
  { powerOff := 70, powerOn := 71, modeStd := 10, modeLr := 11
    pktlay0Std := { lflen := 20, crcinc := 21 }
    pktlay0Lr := { lflen := 22, crcinc := 23, sfields := 24, plen := 25, termlen := 26 }
    pktlay1Lr := { maxlen := 30, statlen := 31, balen := 32, whiteen := 33, endian := 34 }
    crcLenStd := 40, crcDisabled := 41, crcPolyStd := 42, crcSeedStd := 43
    ccaModeEd := 50, ccaThresholdsStd := 51, addrBaseLr := 0x1234, addrPrefixLr := 0x56
    txpower0dbm := 60, txpower8dbm := 61 }

/-- `ILLUS` (95_test_vectors.md). -/
def illus : Params :=
  { maxPacketLen := 64, fStdMhz := 2440, fLrMhz := 2395, freqMaxMhz := 2480, waitBound := none
    delays := { powerOff := 0, powerOn := 1, holdCarrier := 2, shortsTx := 3 }
    codes := illusCodes
    stateCodes :=
      { disabled := 0, txRampUp := 9, txIdle := 10, tx := 11, txDisable := 12, rxRampUp := 1, rxIdle := 2, cca := 3,
        rxDisable := 4 }
    shortBits :=
      #v[#v[0, 1, 2, 3, 4], #v[5, 6, 7, 8, 9], #v[10, 11, 12, 13, 14], #v[15, 16, 17, 18, 19], #v[20, 21, 22, 23, 24],
        #v[25, 26, 27, 28, 29]]
    regAddrs := #v[0, 4, 8, 12, 16, 20, 24, 28, 32, 36, 40, 44, 48, 52, 56, 60]
    fieldPositions := Vector.replicate 24 0
    txbufAddr := 0x1000 }

/-- The block resting with the Standard profile applied, the radio powered and `Disabled` with its latches clear. -/
def idle : State :=
  { cfg := illus
    sq := { Sequencer.reset with profile := .standard }
    txbuf := []
    txSeed := 0
    host := { offer := none, offerData := [], offerTouched := false, payload := [], payloadTouched := false }
    radio :=
      { rstate := .disabled, powered := true
        regs := { Regs.reset with power := 71 }
        ev := Latches.clear, pending := [], air := [], strayed := false }
    portVal := .none, freqOut := (0, false), sub := 0, turns := [], tick := 0 }

/-- `idle` with other parameters. -/
def idleOf (p : Params) : State := { idle with cfg := p }

/-- A command offered. -/
def offering (cmd : Byte) (len : Half) (data : List Byte) : State :=
  { idle with host := { idle.host with offer := some ⟨cmd, len⟩, offerData := data } }

/-- A command in progress at a step, with `SEQ` as its table has it there. -/
def running (c : Cmd) (n : Nat) (len : Half) : State :=
  { idle with sq := { idle.sq with busy := true, cmd := c, step := n, len := len, seq := seqAt c n } }

/-- The radio in another state, with other latches. -/
def radioAt (st : RState) (ev : Latches) (s : State) : State :=
  { s with radio := { s.radio with rstate := st, ev := ev } }

/-- The radio's power off. -/
def unpowered (s : State) : State := { s with radio := { s.radio with powered := false } }

/-- Agents' moves to come. -/
def withMoves (ts : List Turn) (s : State) : State := { s with turns := ts }

/-- What a next state shows. -/
def got {α : Type} (o : Answer) (f : State → α) : Option α :=
  match o with
  | .next t => some (f t)
  | .fault _ | .refused _ => none

/-- The fault of an answer. -/
def faultOf (o : Answer) : Option Fault :=
  match o with
  | .fault f => some f
  | .next _ | .refused _ => none

/-- The refusal of an answer. -/
def refusalOf (o : Answer) : Option Refusal :=
  match o with
  | .refused r => some r
  | .next _ | .fault _ => none

/-- What the sequencer finds when the turn is its own. -/
def sequencerState (s : State) : Option State :=
  match takeTurn s with
  | .sequencer t => some t
  | .other _ => none

/-- `State.Inv` as a check. -/
def invCheck (s : State) : Bool :=
  s.cfg.wf && s.txbuf.wf && s.txbuf.all (fun c => decide (c.1 + 1 < s.cfg.maxPacketLen)) &&
  (match s.cfg.waitBound with
   | none => decide (s.sq.pollcnt = 0 ∧ s.sq.result ≠ .timeout)
   | some n => decide (s.sq.pollcnt < n)) &&
  (s.sq.busy || decide (s.sq.step = 0 ∧ s.sq.seq = .idle ∧ s.sq.pollcnt = 0)) &&
  (!s.sq.busy ||
    (decide (s.sq.step < (program s.sq.cmd).length ∧ s.sq.seq = seqAt s.sq.cmd s.sq.step) &&
     (!s.sq.cmd.isTx || decide (s.sq.step < 1) || decide (s.sq.len.toNat < s.cfg.maxPacketLen - 1)) &&
     (s.sq.cmd.isTx || (!s.sq.hold && decide (s.sq.len = 0))) &&
     (!decide (s.sq.step = 0) || decide (s.sq.pollcnt = 0))))

theorem inv_of_check {s : State} (h : invCheck s = true) : s.Inv := by
  simp only [invCheck, Bool.and_eq_true] at h
  obtain ⟨⟨⟨⟨⟨h1, h2⟩, h3⟩, h4⟩, h5⟩, h6⟩ := h
  refine ⟨h1, h2, by simpa using h3, ?_, fun hb => ?_, fun hb => ?_⟩
  · unfold Sequencer.countsWithin
    cases hw : s.cfg.waitBound <;> simpa [hw] using h4
  · simpa [hb, Sequencer.resting] using h5
  · simp only [hb, Bool.not_true, Bool.false_or, Bool.and_eq_true, decide_eq_true_eq] at h6
    obtain ⟨⟨⟨⟨a, b⟩, c⟩, d⟩, e⟩ := h6
    refine ⟨a, b, fun ht hn => ?_, fun ht => ?_, fun hz => ?_⟩
    · have hn' : s.sq.step ≠ 0 := by omega
      simpa [ht, hn'] using c
    · simpa [ht] using d
    · simpa [hz] using e

/-! ### Well-formedness (R100's domain is the only operand check; R71) -/

theorem test_wellFormed_freqmap_bounds :
    (Instr.freqmap 2360).wellFormed illus = true ∧ (Instr.freqmap 2480).wellFormed illus = true := by decide

theorem test_illFormed_freqmap_below : (Instr.freqmap 2359).wellFormed illus = false := by decide

theorem test_illFormed_freqmap_above : (Instr.freqmap 2481).wellFormed illus = false := by decide

theorem test_wellFormed_oversize_txp : (Instr.txp false 65535).wellFormed illus = true := by decide

/-- R5: the parameter checks refuse each violated constraint. -/
theorem test_params_refused :
    illus.wf = true ∧ ({ illus with maxPacketLen := 1 } : Params).wf = false ∧
    ({ illus with maxPacketLen := 256 } : Params).wf = false ∧ ({ illus with fLrMhz := 2400 } : Params).wf = false ∧
    ({ illus with fStdMhz := 2481 } : Params).wf = false ∧ ({ illus with waitBound := some 0 } : Params).wf = false := by
  decide

/-! ### Decoding: words written bit by bit from R60 and R62; V-CMD, V-UOP -/

theorem test_decode_commands :
    decode ⟨.command, 0b00000000, 0⟩ = .ok .disable ∧ decode ⟨.command, 0b00000001, 0⟩ = .ok .cfgStd ∧
    decode ⟨.command, 0b00001001, 0⟩ = .ok .cfgLr ∧
    decode ⟨.command, 0b00000010, 10⟩ = .ok (.txp false 10) ∧
    decode ⟨.command, 0b00001010, 65535⟩ = .ok (.txp true 65535) ∧
    decode ⟨.command, 0b00010010, 0⟩ = .ok (.txs false 0) ∧
    decode ⟨.command, 0b00011010, 2⟩ = .ok (.txs true 2) := ⟨rfl, rfl, rfl, rfl, rfl, rfl, rfl⟩

theorem test_decode_reserved_commands :
    decode ⟨.command, 0x08, 0⟩ = .error .disableWithArgument ∧
    decode ⟨.command, 0x10, 0⟩ = .error .disableWithArgument ∧
    decode ⟨.command, 0x11, 0⟩ = .error .cfgWithMode ∧ decode ⟨.command, 0x19, 0⟩ = .error .cfgWithMode ∧
    decode ⟨.command, 0x03, 0⟩ = .error .reservedOp ∧ decode ⟨.command, 0x1F, 0⟩ = .error .reservedOp ∧
    decode ⟨.command, 0x22, 0⟩ = .error .reservedBits ∧ decode ⟨.command, 0x80, 0⟩ = .error .reservedBits ∧
    decode ⟨.command, 0xFF, 0⟩ = .error .reservedBits := ⟨rfl, rfl, rfl, rfl, rfl, rfl, rfl, rfl, rfl⟩

theorem test_decode_regwr :
    decode ⟨.micro, 0b00000000, 0⟩ = .ok (.regwrPower .off) ∧ decode ⟨.micro, 0b00000000, 1⟩ = .ok (.regwrPower .on) ∧
    decode ⟨.micro, 0b00000001, 0⟩ = .ok (.regwrMode .std) ∧
    decode ⟨.micro, 0b00000011, 1⟩ = .ok (.regwrPktlay0 .lr) ∧ decode ⟨.micro, 0b00000100, 0⟩ = .ok .regwrPktlay1 ∧
    decode ⟨.micro, 0b00000101, 1⟩ = .ok (.regwrCrccfg .lr) ∧ decode ⟨.micro, 0b00000110, 0⟩ = .ok .regwrCrcpoly ∧
    decode ⟨.micro, 0b00000111, 0⟩ = .ok .regwrCrcseed ∧ decode ⟨.micro, 0b00001000, 0⟩ = .ok .regwrCcacfg := by
  refine ⟨rfl, rfl, rfl, rfl, rfl, rfl, rfl, rfl, rfl⟩

theorem test_decode_regwr_high :
    decode ⟨.micro, 0b00001001, 0⟩ = .ok (.regwrFreq .std) ∧ decode ⟨.micro, 0b00001010, 0⟩ = .ok .regwrAddrbase ∧
    decode ⟨.micro, 0b00001011, 0⟩ = .ok .regwrAddrprefix ∧
    decode ⟨.micro, 0b00001100, 0⟩ = .ok (.regwrTxpower .std) ∧
    decode ⟨.micro, 0b00001101, 0⟩ = .ok (.regwrShorts .empty) ∧
    decode ⟨.micro, 0b00001110, 0⟩ = .ok .regwrPktptr ∧ decode ⟨.micro, 0b00001110, 1⟩ = .error .noSuchImage := by
  refine ⟨rfl, rfl, rfl, rfl, rfl, rfl, rfl⟩

theorem test_decode_regrd_task :
    decode ⟨.micro, 0b00101111, 0⟩ = .ok .regrdState ∧ decode ⟨.micro, 0b01000000, 0⟩ = .ok .taskTxen ∧
    decode ⟨.micro, 0b01000001, 0⟩ = .ok .taskStart ∧ decode ⟨.micro, 0b01000010, 0⟩ = .ok .taskDisable ∧
    decode ⟨.micro, 0b01000011, 0⟩ = .ok .taskRxen := ⟨rfl, rfl, rfl, rfl, rfl⟩

theorem test_decode_events :
    decode ⟨.micro, 0b01100000, 0⟩ = .ok .evrdTxready ∧ decode ⟨.micro, 0b01100001, 0⟩ = .ok .evrdPhyend ∧
    decode ⟨.micro, 0b01100010, 0⟩ = .ok .evrdDisabled ∧ decode ⟨.micro, 0b10000000, 0⟩ = .ok .evclrTxready ∧
    decode ⟨.micro, 0b10000001, 0⟩ = .ok .evclrPhyend ∧ decode ⟨.micro, 0b10000010, 0⟩ = .ok .evclrDisabled :=
  ⟨rfl, rfl, rfl, rfl, rfl, rfl⟩

theorem test_decode_delays :
    decode ⟨.micro, 0b10100000, 0⟩ = .ok .delayPowerOff ∧ decode ⟨.micro, 0b10100001, 0⟩ = .ok .delayPowerOn ∧
    decode ⟨.micro, 0b10100010, 0⟩ = .ok .delayHoldCarrier ∧ decode ⟨.micro, 0b10100011, 0⟩ = .ok .delayShortsTx :=
  ⟨rfl, rfl, rfl, rfl⟩

/-- V-UOP's examples of words that never appear in a trace. -/
theorem test_decode_never_issued :
    ([0x02, 0x0F, 0x20, 0x2E, 0x44, 0x63, 0x83, 0xA4, 0xC0, 0xFF] : List Byte).all
      (fun w => match decode ⟨.micro, w, 0⟩ with
        | .error .neverIssued => true
        | _ => false) = true := by decide

/-- A word of both ports is the command port's; a word of one port is that port's; the operand stands above the word. -/
theorem test_decode_table_words :
    decodeTableWord 8 0x00 = some .disable ∧ decodeTableWord 8 0x0D = some (.regwrShorts .empty) ∧
    decodeTableWord 24 0x10D = some (.regwrShorts .chain) ∧ decodeTableWord 24 0xA0A = some (.txp true 10) ∧
    decodeTableWord 8 0xC0 = none := by decide

/-! ### Commands: V-CMD, V-EXC -/

/-- R60, R61: `DISABLE` carries no operand. -/
theorem test_disable_accepted :
    got (step (offering 0x00 5 [])) (fun t => (t.sq.busy, t.sq.cmd, t.sq.len, t.host.offer)) =
      some (true, .disable, 0, none) := by decide

/-- V-EXC 6. -/
theorem test_cfgStd_ignores_length :
    got (step (offering 0x01 99 [])) (fun t => (t.sq.busy, t.sq.cmd, t.sq.len, t.sq.hold)) =
      some (true, .cfgStd, 0, false) := by decide

theorem test_cfgLr_accepted :
    got (step (offering 0x09 0 [])) (fun t => (t.sq.busy, t.sq.cmd, t.sq.step)) = some (true, .cfgLr, 0) := by decide

theorem test_txp_latches_hold_and_length :
    got (step (offering 0x0A 2 [1, 2])) (fun t => (t.sq.cmd, t.sq.hold, t.sq.len, t.host.payload)) =
      some (.txp, true, 2, [1, 2]) := by decide

theorem test_txs_latches_length :
    got (step (offering 0x12 2 [1, 2])) (fun t => (t.sq.cmd, t.sq.hold, t.sq.len, t.host.payload)) =
      some (.txs, false, 2, [1, 2]) := by decide

/-- V-EXC 4. -/
theorem test_busy_refuses_command :
    got (exec .disable (running .txp 9 10)) (fun t => t.sq) = some (running .txp 9 10).sq := by decide

/-- V-EXC 2: the command word is checked first. -/
theorem test_reserved_word_before_length :
    got (step (offering 0x03 65535 [])) (fun t => (t.sq.result, t.sq.busy)) = some (.rejectedBadcmd, false) := by decide

/-- V-TXP 6: `L = 63` under `ILLUS`. -/
theorem test_length_check_rejects_63 :
    got (step (running .txp 0 63)) (fun t => (t.sq.result, t.sq.busy, t.sq.step, t.txbuf)) =
      some (.rejectedOversize, false, 0, []) := by decide

/-- V-FRAME: `L = 62`. -/
theorem test_length_check_passes_62 :
    got (step (running .txs 0 62)) (fun t => (t.sq.step, t.sq.busy)) = some (1, true) := by decide

/-! ### Port micro-operations: V-PORT, and R64's images -/

theorem test_power_off :
    got (exec (.regwrPower .off) idle) (fun t => (t.radio.powered, t.radio.regs.power, t.radio.rstate)) =
      some (false, 70, .disabled) := by decide

/-- R169. -/
theorem test_power_on_after_off_resets :
    got (exec (.regwrPower .on) (unpowered (radioAt .tx ⟨true, true, true⟩ idle)))
      (fun t => (t.radio.powered, t.radio.rstate, t.radio.ev, t.radio.regs.power)) =
      some (true, .disabled, Latches.clear, 71) := by decide

theorem test_regwr_mode :
    got (exec (.regwrMode .lr) idle) (fun t => t.radio.regs.mode) = some 11 := by decide

theorem test_regwr_pktlay0_lr :
    got (exec (.regwrPktlay0 .lr) idle) (fun t => t.radio.regs.pktlay0) = some ⟨22, 23, 24, 25, 26⟩ := by decide

/-- R23, R80: the two fields Standard names. -/
theorem test_regwr_pktlay0_std :
    got (exec (.regwrPktlay0 .std) idle) (fun t => (t.radio.regs.pktlay0.lflen, t.radio.regs.pktlay0.crcinc)) =
      some (20, 21) := by decide

theorem test_regwr_pktlay1 :
    got (exec .regwrPktlay1 idle) (fun t => t.radio.regs.pktlay1) = some ⟨30, 31, 32, 33, 34⟩ := by decide

theorem test_regwr_crccfg :
    got (exec (.regwrCrccfg .std) idle) (fun t => t.radio.regs.crclen) = some 40 := by decide

theorem test_regwr_crcpoly :
    got (exec .regwrCrcpoly idle) (fun t => (t.radio.regs.crcpoly, t.radio.regs.crcseed)) = some (42, 0) := by decide

theorem test_regwr_crcseed :
    got (exec .regwrCrcseed idle) (fun t => (t.radio.regs.crcpoly, t.radio.regs.crcseed)) = some (0, 43) := by decide

theorem test_regwr_ccacfg :
    got (exec .regwrCcacfg idle) (fun t => (t.radio.regs.ccamode, t.radio.regs.thresholds)) = some (50, 51) := by decide

/-- V-CFG 1: `{VALUE = 40, BAND = false}`. -/
theorem test_regwr_freq_std :
    got (exec (.regwrFreq .std) idle) (fun t => (t.radio.regs.freqValue, t.radio.regs.freqBand)) =
      some (40, false) := by decide

/-- V-CFG 3: `{VALUE = 35, BAND = true}`. -/
theorem test_regwr_freq_lr :
    got (exec (.regwrFreq .lr) idle) (fun t => (t.radio.regs.freqValue, t.radio.regs.freqBand)) =
      some (35, true) := by decide

theorem test_regwr_addrbase :
    got (exec .regwrAddrbase idle) (fun t => (t.radio.regs.addrBase, t.radio.regs.addrPrefix)) =
      some (0x1234, 0) := by decide

theorem test_regwr_addrprefix :
    got (exec .regwrAddrprefix idle) (fun t => (t.radio.regs.addrBase, t.radio.regs.addrPrefix)) =
      some (0, 0x56) := by decide

theorem test_regwr_txpower :
    got (exec (.regwrTxpower .lr) idle) (fun t => t.radio.regs.txpower) = some 61 := by decide

/-- R127: the five pairs. -/
theorem test_regwr_shorts_chain :
    got (exec (.regwrShorts .chain) idle) (fun t => t.radio.regs.shorts) =
      some [(.rxReady, .ccaStart), (.ccaIdle, .port .txen), (.port .txready, .port .start),
        (.ccaBusy, .port .disable), (.port .phyend, .port .disable)] := by decide

/-- V-PORT 8: with the set cleared, a later `txready` triggers nothing. -/
theorem test_regwr_shorts_empty :
    got (exec (.regwrShorts .empty) { idle with radio := { idle.radio with rstate := .txRampUp, regs := { idle.radio.regs with shorts := shortsChain } } })
      (fun t => ((radioTurn (.complete true false) t).rstate, (radioTurn (.complete true false) t).ev.txready)) =
      some (.txIdle, true) := by decide

theorem test_regwr_pktptr :
    got (exec .regwrPktptr idle) (fun t => t.radio.regs.pktptr) = some 0x1000 := by decide

/-- V-PORT 9. -/
theorem test_regrd_state :
    got (exec .regrdState (radioAt .txIdle Latches.clear idle)) (fun t => (t.portVal, t.radio.rstate)) =
      some (.state .txIdle, .txIdle) := by decide

theorem test_task_txen :
    got (exec .taskTxen idle) (fun t => (t.radio.rstate, t.radio.ev, t.sq.seq)) =
      some (.txRampUp, Latches.clear, .idle) := by decide

theorem test_task_start :
    got (exec .taskStart (radioAt .txIdle Latches.clear idle)) (fun t => t.radio.rstate) = some .tx := by decide

/-- V-DIS 4: a packet is abandoned, its `phyend` does not fire. -/
theorem test_task_disable_in_tx :
    got (exec .taskDisable (radioAt .tx Latches.clear idle)) (fun t => (t.radio.rstate, t.radio.ev.phyend)) =
      some (.txDisable, false) := by decide

theorem test_task_disable_in_cca :
    got (exec .taskDisable (radioAt .cca Latches.clear idle)) (fun t => t.radio.rstate) = some .rxDisable := by decide

theorem test_task_rxen :
    got (exec .taskRxen idle) (fun t => t.radio.rstate) = some .rxRampUp := by decide

/-- V-PORT 1. -/
theorem test_evrd_txready_does_not_clear :
    got (exec .evrdTxready (radioAt .txIdle ⟨true, false, false⟩ idle)) (fun t => (t.portVal, t.radio.ev.txready)) =
      some (.latch true, true) := by decide

theorem test_evrd_phyend :
    got (exec .evrdPhyend (radioAt .txIdle ⟨true, false, true⟩ idle)) (fun t => t.portVal) =
      some (.latch false) := by decide

theorem test_evrd_disabled :
    got (exec .evrdDisabled (radioAt .disabled ⟨false, false, true⟩ idle)) (fun t => t.portVal) =
      some (.latch true) := by decide

/-- V-PORT 4. -/
theorem test_evclr_txready_only :
    got (exec .evclrTxready (radioAt .txIdle ⟨true, true, false⟩ idle)) (fun t => t.radio.ev) =
      some ⟨false, true, false⟩ := by decide

/-- V-PORT 2. -/
theorem test_evclr_phyend :
    got (exec .evclrPhyend (radioAt .txIdle ⟨true, true, true⟩ idle)) (fun t => t.radio.ev) =
      some ⟨true, false, true⟩ := by decide

/-- V-PORT 3. -/
theorem test_evclr_disabled_clear_stays_clear :
    got (exec .evclrDisabled idle) (fun t => t.radio.ev) = some Latches.clear := by decide

/-- V-PORT 11, 12: a delay is a step and nothing else. -/
theorem test_delays_write_nothing :
    [Instr.delayPowerOff, .delayPowerOn, .delayHoldCarrier, .delayShortsTx].all
      (fun i => got (exec i (radioAt .txRampUp Latches.clear idle)) (fun t => decide (t.radio.rstate = .txRampUp ∧ t.sq = idle.sq)) = some true) =
      true := by decide

/-! ### Functions and pseudo-operations: V-FREQ, V-FRAME, V-PORT, V-DIS -/

/-- S1 and V-FREQ. -/
theorem test_freqmap_points :
    [2360, 2361, 2395, 2399, 2400, 2401, 2440, 2480].map (fun f => got (exec (.freqmap f) idle) (fun t => t.freqOut)) =
      [some (0, true), some (1, true), some (35, true), some (39, true), some (0, false), some (1, false),
       some (40, false), some (80, false)] := by decide

theorem test_freqmap_outside :
    [2359, 0, 2481, 65535].map (fun f => refusalOf (exec (.freqmap f) idle)) =
      List.replicate 4 (some .frequencyOutsideDomain) := by decide

/-- V-FRAME's concrete frame; the bytes after it keep what they held. -/
theorem test_frame_concrete :
    got (exec .frame
        { running .txp 5 3 with
          txbuf := [(0, 0xEE), (1, 0xEE), (2, 0xEE), (3, 0xEE), (4, 0xEE)]
          host := { idle.host with payload := [0xDE, 0xAD, 0x42] } })
      (fun t => t.txbuf) =
      some [(0, 0x05), (1, 0xDE), (2, 0xAD), (3, 0x42), (4, 0xEE)] := by decide

/-- V-FRAME: `MAX_PACKET_LEN = 2`, `L = 0`; then an `L` whose frame the buffer has no room for. -/
theorem test_frame_small_buffer :
    got (exec .frame { running .txp 5 0 with cfg := { illus with maxPacketLen := 2 } }) (fun t => t.txbuf) =
      some [(0, 2)] ∧
    faultOf (exec .frame { running .txp 5 2 with cfg := { illus with maxPacketLen := 2 } }) = some .outsideTxbuf := by
  decide

/-- R66: no wrap at the largest length (V-FRAME, `M = 255`). -/
theorem test_length_byte_253 : lengthByte 253 = 0xFF ∧ lengthByte 0 = 2 := by decide

/-- V-PORT 5 and 6. -/
theorem test_waitAck_polls :
    got (exec (.waitAck .disabled) idle) (fun t => (t.sub, t.portVal)) = some (0, .latch false) ∧
    got (exec (.waitAck .disabled) (radioAt .disabled ⟨false, false, true⟩ idle)) (fun t => (t.sub, t.portVal)) =
      some (1, .latch true) := by decide

theorem test_waitAck_clears :
    got (exec (.waitAck .disabled) { radioAt .disabled ⟨true, false, true⟩ idle with sub := 1 })
      (fun t => (t.sub, t.radio.ev)) = some (0, ⟨true, false, false⟩) := by decide

theorem test_powerCycle_first_and_third :
    got (exec .powerCycle idle) (fun t => (t.sub, t.radio.powered)) = some (1, false) ∧
    got (exec .powerCycle { unpowered (radioAt .rxIdle ⟨true, true, true⟩ idle) with sub := 2 })
      (fun t => (t.sub, t.radio.powered, t.radio.rstate, t.radio.ev)) =
      some (3, true, .disabled, Latches.clear) := by decide

/-- V-DIS 2: already disabled, the latch stays set. -/
theorem test_dis_already_disabled :
    got (exec .dis (radioAt .disabled ⟨false, false, true⟩ idle)) (fun t => (t.sub, t.radio.ev.disabled)) =
      some (0, true) := by decide

/-- V-DIS 5: on a stale latch the wait ends while the radio is in `TxDisable`. -/
theorem test_dis_stale_latch :
    got (exec .dis { radioAt .txDisable ⟨false, false, true⟩ idle with sub := 2 })
      (fun t => (t.sub, t.radio.rstate)) = some (3, .txDisable) := by decide

/-- R86, R196: by themselves too the waits are bounded where `WAIT_BOUND` is (V-EXC 7), the third read of 0. -/
theorem test_waitAck_and_dis_time_out :
    let s := { idle with cfg := { illus with waitBound := some 3 }, sq := { idle.sq with pollcnt := 2 } }
    got (exec (.waitAck .phyend) s) (fun t => (t.sq.result, t.sub, t.sq.pollcnt)) = some (.timeout, 0, 0) ∧
    got (exec .dis { radioAt .txDisable Latches.clear s with sub := 2 }) (fun t => (t.sq.result, t.sub, t.sq.pollcnt)) =
      some (.timeout, 0, 0) ∧
    got (exec (.waitAck .phyend) { s with sq := { s.sq with pollcnt := 1 } }) (fun t => (t.sq.result, t.sub, t.sq.pollcnt)) =
      some (.none, 0, 2) := by decide

/-! ### Parameters and codes: R4, R15, R68, R180 -/

theorem test_result_codes :
    [Result.none, .ok, .okUnverified, .rejectedOversize, .timeout, .rejectedBadcmd].map Result.code = [0, 1, 2, 3, 4, 5] := by
  decide

/-- The maps of R4 read the record; the positions are the rows and columns of the tables above. -/
theorem test_parameter_maps :
    stateCode illus .disabled = 0 ∧ stateCode illus .txIdle = 10 ∧ stateCode illus (.other 77) = 77 ∧
    shortBit illus (.port .txready) (.port .start) = 17 ∧ shortBit illus .rxReady .ccaStart = 0 ∧
    regAddr illus .pktptr = 56 ∧ fieldPos illus .balen = 0 ∧ busValue illus (.state .tx) = 11 := by decide

/-- R68: one bit for each pair, the empty set all zero. -/
theorem test_shorts_word :
    shortsWord illus [] = 0 ∧ shortsWord illus shortsChain = 2 ^ 0 + 2 ^ 6 + 2 ^ 17 + 2 ^ 13 + 2 ^ 23 := by decide

/-! ### Steps of the micro-programs: V-TXP, V-TXS, V-CFG, V-EXC -/

/-- V-TXP, the columns 40, `60 -> 0`, `60 -> 1`. -/
theorem test_txp_seq_warming_and_armed :
    got (step (running .txp 8 10)) (fun t => (t.sq.step, t.sq.seq)) = some (9, .warmingUp) ∧
    got (step (radioAt .txRampUp Latches.clear (running .txp 9 10))) (fun t => (t.sq.step, t.sq.seq)) =
      some (9, .warmingUp) ∧
    got (step (radioAt .txIdle ⟨true, false, false⟩ (running .txp 9 10))) (fun t => (t.sq.step, t.sq.seq)) =
      some (10, .armed) := by decide

/-- V-TXP, the columns 80 (both values of `HOLD`), 41 and `61 -> 1`. -/
theorem test_txp_seq_transmitting :
    got (step (radioAt .txIdle ⟨true, false, false⟩ (running .txp 10 10))) (fun t => (t.sq.step, t.sq.seq)) =
      some (12, .armed) ∧
    got (step { running .txp 10 10 with sq := { (running .txp 10 10).sq with hold := true } })
      (fun t => (t.sq.step, t.sq.seq)) = some (11, .armed) ∧
    got (step (radioAt .txIdle Latches.clear (running .txp 12 10))) (fun t => (t.sq.step, t.sq.seq, t.radio.rstate)) =
      some (13, .transmitting, .tx) ∧
    got (step (radioAt .txIdle ⟨false, true, false⟩ (running .txp 13 10))) (fun t => (t.sq.step, t.sq.seq)) =
      some (14, .idle) := by decide

/-- V-TXP, column 82: `complete(OK)`; `HOLD` and `LEN` stay (P1). -/
theorem test_txp_completes :
    got (step (radioAt .disabled ⟨false, false, true⟩ (running .txp 18 10)))
      (fun t => (t.sq.busy, t.sq.result, t.sq.len, t.radio.ev)) = some (false, .ok, 10, Latches.clear) := by decide

/-- V-TXS 1: the last read of `STATE` completes with `OK_UNVERIFIED` and clears nothing. -/
theorem test_txs_completes_unverified :
    got (step (radioAt .disabled ⟨true, true, true⟩ (running .txs 10 10)))
      (fun t => (t.sq.busy, t.sq.result, t.radio.ev)) = some (false, .okUnverified, ⟨true, true, true⟩) := by decide

/-- V-TXS: `Chained` from the `RXEN` trigger to the end of the delay. -/
theorem test_txs_chained :
    got (step (running .txs 8 10)) (fun t => (t.sq.seq, t.radio.rstate)) = some (.chained, .rxRampUp) ∧
    got (step (running .txs 9 10)) (fun t => (t.sq.seq, t.sq.step)) = some (.idle, 10) := by decide

/-- V-CFG 1 and 2: the pre-Disable's two ways on. -/
theorem test_cfg_predisable :
    got (step (running .cfgStd 0 0)) (fun t => t.sq.step) = some 4 ∧
    got (step (radioAt .txIdle Latches.clear (running .cfgStd 0 0))) (fun t => t.sq.step) = some 1 := by decide

theorem test_cfg_completes :
    got (step { running .cfgStd 15 0 with sq := { (running .cfgStd 15 0).sq with profile := .none } })
      (fun t => (t.sq.busy, t.sq.result, t.sq.profile)) = some (false, .ok, .standard) ∧
    got (step (running .cfgLr 15 0)) (fun t => (t.sq.busy, t.sq.result, t.sq.profile)) =
      some (false, .ok, .longRange) := by decide

/-- V-EXC 7 and 8: the variant `WAIT_BOUND = some 3`, the third read. -/
theorem test_bounded_wait :
    got (step
        { radioAt .txRampUp Latches.clear (running .txp 9 10) with
          cfg := { illus with waitBound := some 3 }
          sq := { (running .txp 9 10).sq with pollcnt := 2 } })
      (fun t => (t.sq.result, t.sq.busy, t.sq.seq, t.radio.rstate)) = some (.timeout, false, .idle, .txRampUp) ∧
    got (step
        { radioAt .txIdle ⟨true, false, false⟩ (running .txp 9 10) with
          cfg := { illus with waitBound := some 3 }
          sq := { (running .txp 9 10).sq with pollcnt := 2 } })
      (fun t => (t.sq.busy, t.sq.step, t.sq.pollcnt)) = some (true, 10, 0) := by decide

/-! ### The other agents: R163 to R170, V-RESET -/

/-- V-TXS 1, P3: with the chain programmed an idle channel leads from `Cca` to `TxRampUp`, a busy one to the ramp-down. -/
theorem test_cca_verdicts :
    let s := { running .txs 9 10 with radio := { idle.radio with rstate := .cca, regs := { idle.radio.regs with shorts := shortsChain } } }
    (radioTurn (.complete true false) s).rstate = .txRampUp ∧
    (radioTurn (.complete false false) s).rstate = .rxDisable := by decide

/-- R168: a shortcut may be delivered as the radio's next step. -/
theorem test_shortcut_next_step :
    let s := { idle with radio := { idle.radio with rstate := .txRampUp, regs := { idle.radio.regs with shorts := shortsChain } } }
    (radioTurn (.complete true true) s).rstate = .txIdle ∧
    (radioTurn (.complete true true) s).pending = [.port .start] ∧
    (radioTurn (.complete true false) (s.withRadio (radioTurn (.complete true true) s))).rstate = .tx := by decide

/-- V-DIS 5: the genuine event after a stale one sets the latch again. -/
theorem test_disabled_event_sets_latch :
    (radioTurn (.complete true false) (radioAt .txDisable Latches.clear idle)).ev = ⟨false, false, true⟩ := by decide

/-- R169: without power the radio takes no step. -/
theorem test_unpowered_radio_stands :
    (radioTurn (.complete true false) (unpowered (radioAt .txDisable Latches.clear idle))).rstate = .txDisable := by decide

/-- R170: in `Tx` the reader sees `TXBUF` through `PKTPTR`, the length byte first. -/
theorem test_radio_reads_buffer :
    let s := { running .txp 13 1 with txbuf := [(0, 3), (1, 0x77)], radio := { idle.radio with rstate := .tx, regs := { idle.radio.regs with pktptr := 0x1000 } } }
    (radioTurn (.read 0) s).air = [(0, 3)] ∧ (radioTurn (.read 1) s).air = [(1, 0x77)] ∧
    (radioTurn (.read 4) s).air = [] := by decide

/-- U11: a byte nothing has written is the same at every read. -/
theorem test_unwritten_byte_stays :
    let s := { running .txp 13 1 with txbuf := [(0, 3)], radio := { idle.radio with rstate := .tx, regs := { idle.radio.regs with pktptr := 0x1000 } } }
    (radioTurn (.read 2) s).air = (radioTurn (.read 2) { s with tick := 7 }).air := rfl

/-- R130: a transmit command with no profile applied lets the radio do anything; with one it does not. -/
theorem test_unconfigured_radio_is_free :
    let s := { running .txp 9 1 with sq := { (running .txp 9 1).sq with profile := .none } }
    (radioTurn (.stray .tx ⟨true, true, true⟩ []) s).rstate = .tx ∧
    (radioTurn (.stray .tx ⟨true, true, true⟩ []) (running .txp 9 1)).rstate = .disabled := by decide

/-- V-RESET 2. -/
theorem test_reset_in_a_hang :
    got (step (withMoves [.reset] (radioAt .txRampUp Latches.clear (running .txp 9 10))))
      (fun t => (t.sq.seq, t.sq.busy, t.sq.len, t.radio.rstate)) = some (.idle, false, 0, .txRampUp) ∧
    traceEntry (withMoves [.reset] (running .txp 9 10)) = none := by decide

/-- R60: a command held at the port is not replaced; R53, R185: a payload changed while it must stand still is marked. -/
theorem test_host_moves :
    got (step (withMoves [.hostOffers ⟨0, 0⟩ []] (offering 0x02 1 [9]))) (fun t => t.host.offer) = some (some ⟨0x02, 1⟩) ∧
    got (step (withMoves [.hostEditsAccepted [7]] (running .txp 3 1))) (fun t => t.host.payloadTouched) = some true ∧
    got (step (withMoves [.hostEditsAccepted [7]] (running .txp 8 1))) (fun t => t.host.payloadTouched) = some false := by
  decide

/-! ### From reset -/

/-- V-RESET 1: with nothing offered the block waits. -/
theorem test_reset_waits :
    step State.reset = .next State.reset := rfl

/-- No profile is applied after reset, so nothing is promised of the radio (R130). -/
theorem test_withFetchWord_task :
    got (step (State.reset.withFetchWord 8 0x40)) (fun t => (t.radio.strayed, t.sq.seq, t.sq.step)) =
      some (true, .warmingUp, 9) := by decide

theorem test_withFetchWord_delay :
    got (step (State.reset.withFetchWord 8 0xA1)) (fun t => (t.radio.strayed, t.sq.cmd, t.sq.step)) =
      some (false, .cfgStd, 8) := by decide

theorem test_withFetchWord_command :
    got (step (State.reset.withFetchWord 8 0x1A)) (fun t => (t.sq.busy, t.sq.cmd, t.sq.hold)) = some (true, .txs, true) := by
  decide

/-- Every word of the table decodes. -/
theorem test_table_words_decode :
    ([0x00, 0x01, 0x09, 0x02, 0x12, 0x03, 0x04, 0x05, 0x06, 0x07, 0x08, 0x0A, 0x0B, 0x0C, 0x0D, 0x0E, 0x2F,
      0x40, 0x41, 0x42, 0x43, 0x60, 0x61, 0x62, 0x80, 0x81, 0x82, 0xA0, 0xA1, 0xA2, 0xA3] : List Nat).all
      (fun w => (decodeTableWord 8 w).isSome) = true := by decide


/-! ### Witnesses: for each statement with hypotheses, a state (and operands) that meets them, clause by clause -/

theorem idle_inv : idle.Inv := inv_of_check (by decide)

theorem idle_clean : idle.radio.clean := ⟨rfl, rfl, rfl, rfl, rfl⟩

theorem witness_DecodeAndEncodeAgree :
    encode (.regwrFreq .lr) = some ⟨.micro, 0x09, 1⟩ ∧ decode ⟨.command, 0x0A, 65535⟩ = .ok (.txp true 65535) :=
  ⟨rfl, rfl⟩

theorem witness_ReservedCommandWordsAreRejected :
    sequencerState (offering 0x03 5 []) = some (offering 0x03 5 []) ∧ (offering 0x03 5 []).sq.busy = false ∧
    (offering 0x03 5 []).sq.step = 0 ∧
    (0x03 : Byte).toNat ∉ [0x00, 0x01, 0x02, 0x09, 0x0A, 0x12, 0x1A] ∧
    (0x1A : Byte).toNat ∈ [0x00, 0x01, 0x02, 0x09, 0x0A, 0x12, 0x1A] := by decide

theorem witness_TracesHoldOnlyIssuedWords :
    (traceOf 1 (running .txp 8 10)).map (·.word) = [0x40] ∧ decode ⟨.micro, 0x44, 0⟩ = .error .neverIssued :=
  ⟨by decide, rfl⟩

/-- A command, nothing, a micro-operation that goes on, the length check; then the stops: a frame past the buffer, and a frequency outside the
domain. -/
theorem witness_StepRunsTheFetchedInstruction :
    (sequencerState (offering 0x02 5 []) = some (offering 0x02 5 []) ∧ (offering 0x02 5 []).sq.busy = false) ∧
    (sequencerState idle = some idle ∧ idle.host.offer = none) ∧
    (sequencerState (running .txp 8 5) = some (running .txp 8 5) ∧
      rowAt .txp 8 = some ⟨.run .taskTxen, .go (.step 9)⟩) ∧
    rowAt .txp 0 = some ⟨.lengthCheck, .go (.step 1)⟩ ∧
    (rowAt .txp 5 = some ⟨.run .frame, .go (.step 6)⟩ ∧
      faultOf (exec .frame (running .txp 5 64)) = some .outsideTxbuf) ∧
    (rowAt .cfgStd 14 = some ⟨.run (.regwrFreq .std), .go (.step 15)⟩ ∧
      refusalOf (exec (.regwrFreq .std) (idleOf { illus with fStdMhz := 2359 })) = some .frequencyOutsideDomain) := by
  decide

theorem witness_PlacedWordRunsNext :
    decodeTableWord 8 0x40 = some .taskTxen ∧ decodeTableWord 8 0x02 = some (.txp false 0) := by decide

theorem witness_CommandsAreAccepted : (offering 0x02 5 []).sq.busy = false := rfl

/-- An offer held while a command runs. -/
theorem witness_CommandInProgressIsNotDisturbed :
    (running .txp 9 10).sq.busy = true ∧
    got (step { running .txp 9 10 with host := (offering 0x00 0 []).host }) (fun t => t.host.offer) =
      some (some ⟨0x00, 0⟩) := by decide

/-- Both sides of the boundary: 63 and 62 under `ILLUS`. -/
theorem witness_LengthCheckRejectsOversize :
    sequencerState (running .txp 0 63) = some (running .txp 0 63) ∧ Cmd.txp.isTx = true ∧
    illus.maxPacketLen - 1 ≤ (running .txp 0 63).sq.len.toNat ∧
    (running .txs 0 62).sq.len.toNat < illus.maxPacketLen - 1 := by decide

theorem witness_RegistersWrittenInDisabled : idle.radio.rstate = .disabled ∧ idle.radio.powered = true := ⟨rfl, rfl⟩

/-- 2399 and 2400; 2359 and 2481 outside. -/
theorem witness_FrequencyRegisterIsWritten :
    (({ illus with fStdMhz := 2399 } : Params).wf = true ∧ ({ illus with fStdMhz := 2400 } : Params).wf = true) ∧
    ({ illus with fStdMhz := 2359 } : Params).inFreqDomain 2359 = false ∧
    ({ illus with fLrMhz := 2481 } : Params).inFreqDomain 2481 = false := by decide

/-- A powered radio in `TxIdle`; an unpowered one, for the writes that are not `POWER_ON`. -/
theorem witness_WriteOutsideDisabledStaysInTheRadio :
    (radioAt .txIdle Latches.clear idle).radio.rstate ≠ .disabled ∧ idle.radio.powered = true ∧
    (unpowered idle).radio.powered = false ∧ (Instr.regwrMode .std) ≠ .regwrPower .on ∧ idle.cfg.wf = true := by decide

/-- One state for each clause. -/
theorem witness_TasksMoveTheRadio :
    idle.radio.powered = true ∧ idle.unconfiguredTx = false ∧ (running .txp 8 1).unconfiguredTx = false ∧
    idle.radio.rstate = .disabled ∧
    (radioAt .txIdle Latches.clear idle).radio.rstate = .txIdle ∧
    (radioAt .txDisable Latches.clear idle).radio.rstate ∈ [RState.txRampUp, .txIdle, .tx, .txDisable] ∧
    (radioAt (.other 9) Latches.clear idle).radio.rstate = .other 9 ∧
    (radioAt .rxDisable Latches.clear idle).radio.rstate ∈ [RState.rxRampUp, .rxIdle, .cca, .rxDisable] := by decide

/-- `TXEN` and `START` in `TxRampUp`, `RXEN` in `Tx`, `DISABLE` in `Disabled`, all four without power and on an unconfigured
radio. -/
theorem witness_UndescribedTriggersStayInTheRadio :
    (radioAt .txRampUp Latches.clear idle).radio.rstate ≠ .disabled ∧
    (radioAt .txRampUp Latches.clear idle).radio.rstate ≠ .txIdle ∧
    (radioAt .tx Latches.clear idle).radio.rstate ≠ .disabled ∧ idle.radio.rstate = .disabled ∧
    (unpowered idle).radio.powered = false ∧
    ({ running .txp 8 1 with sq := { (running .txp 8 1).sq with profile := .none } } : State).unconfiguredTx = true := by decide

/-- 2360 and 2399; 2400 and 2480; 2359 and 2481; two results to compare. -/
theorem witness_FreqmapMapsItsDomain :
    ((2360 : Half).toNat < 2400 ∧ (2399 : Half).toNat < 2400) ∧
    (2400 ≤ (2400 : Half).toNat ∧ (2480 : Half).toNat ≤ idle.cfg.freqMaxMhz) ∧
    ((2359 : Half).toNat < 2360 ∧ idle.cfg.freqMaxMhz < (2481 : Half).toNat) ∧
    got (exec (.freqmap 2360) idle) (fun t => t.freqOut) = some (0, true) ∧
    got (exec (.freqmap 2400) idle) (fun t => t.freqOut) = some (0, false) := by decide

/-- `L = 62` with the host's bytes in place, an index inside and one outside the frame. -/
theorem witness_FrameFillsTheBuffer :
    let s := { running .txp 5 62 with host := { idle.host with payload := List.replicate 62 7 } }
    s.cfg.maxPacketLen ≤ 255 ∧ s.sq.len.toNat < s.cfg.maxPacketLen - 1 ∧ s.txbuf.wf = true ∧
    61 < s.sq.len.toNat ∧ s.host.payloadTouched = false ∧ 61 < s.host.payload.length ∧ s.sq.len.toNat < 63 := by decide

/-- The boundary: 64 faults, 63 does not. -/
theorem witness_FrameFaultsPastTheBuffer :
    faultOf (exec .frame (running .txp 5 64)) = some .outsideTxbuf ∧
    faultOf (exec .frame (running .txp 5 63)) = none := by decide

/-- Unbounded; the last of three reads and an earlier one; then the clause of each step. -/
theorem witness_WaitAckPollsThenClears :
    (idle.sub = 0 ∧ idle.radio.ev.get .phyend = false ∧ idle.cfg.waitBound = none) ∧
    (({ illus with waitBound := some 3 } : Params).waitBound = some (2 + 1) ∧ (3 : Nat) ≠ 0 + 1) ∧
    (radioAt .txIdle ⟨false, true, false⟩ idle).radio.ev.get .phyend = true ∧ ({ idle with sub := 1 } : State).sub = 1 := by
  decide

theorem witness_PowerCycleIsItsFourOperations : idle.sub = 0 := rfl

theorem witness_DisIsItsFourSteps :
    (idle.sub = 0 ∧ idle.radio.rstate = .disabled) ∧ (radioAt .tx Latches.clear idle).radio.rstate ≠ .disabled ∧
    ({ idle with sub := 1 } : State).sub = 1 ∧ (({ idle with sub := 2 } : State).sub = 2 ∧ idle.radio.ev.disabled = false) ∧
    (radioAt .disabled ⟨false, false, true⟩ idle).radio.ev.disabled = true ∧ ({ idle with sub := 3 } : State).sub = 3 := by
  decide

theorem witness_EveryStepGoesOnAndKeepsTheInvariant : idle.Inv ∧ (running .txp 9 10).Inv :=
  ⟨idle_inv, inv_of_check (by decide)⟩

theorem witness_ResetInputLeavesTheRadio : (withMoves [.reset] (running .txp 9 10)).turns = .reset :: [] := rfl

theorem not_resetNext {s : State} (h : s.turns = []) : ¬ s.resetNext := by
  rintro ⟨ts, ht⟩; simp [h] at ht

/-- The six changes of R123's table. -/
theorem witness_SeqChangesOnlyByTheTable :
    ((running .txp 8 10).Inv ∧ ¬ (running .txp 8 10).resetNext ∧ (running .txp 8 10).cfg.waitBound = none) ∧
    [running .txp 8 10, radioAt .txIdle ⟨true, false, false⟩ (running .txp 9 10), running .txp 12 10,
      radioAt .txIdle ⟨false, true, false⟩ (running .txp 13 10), running .txs 8 10, running .txs 9 10].all
      (fun s => got (step s) (fun t => decide (t.sq.seq ≠ s.sq.seq)) = some true) = true :=
  ⟨⟨inv_of_check (by decide), not_resetNext rfl, rfl⟩, by decide⟩

theorem witness_StepNeverMovesBackward :
    (running .txp 17 10).Inv ∧
    got (step (radioAt .disabled ⟨false, false, true⟩ (running .txp 17 10))) (fun t => (t.sq.busy, t.sq.step)) =
      some (true, 18) := ⟨inv_of_check (by decide), by decide⟩

theorem witness_ResultAndProfileAreWrittenAtTheEnd :
    (running .cfgLr 15 0).Inv ∧ ¬ (running .cfgLr 15 0).resetNext ∧
    got (step (running .cfgLr 15 0)) (fun t => (t.sq.result, t.sq.profile)) = some (.ok, .longRange) :=
  ⟨inv_of_check (by decide), not_resetNext rfl, by decide⟩

/-- From `BUSY = 0`: a reserved word at the port. -/
theorem witness_ReservedWordChangesTheResult :
    (offering 0x03 0 []).Inv ∧ ¬ (offering 0x03 0 []).resetNext ∧
    got (step (offering 0x03 0 [])) (fun t => (decide (t.sq.result ≠ (offering 0x03 0 []).sq.result))) = some true :=
  ⟨inv_of_check (by decide), not_resetNext rfl, by decide⟩

/-- An ending step of each outcome. -/
theorem witness_EndingStepsWriteTheirOutcome :
    ((running .txp 0 63).Inv ∧ (running .txp 18 10).Inv ∧ (running .txs 10 10).Inv ∧ (running .disable 0 0).Inv) ∧
    [running .txp 0 63, running .txp 18 10, running .txs 10 10, running .disable 0 0, running .cfgStd 15 0].all
      (fun s => got (step s) (fun t => t.sq.busy) = some false) = true :=
  ⟨⟨inv_of_check (by decide), inv_of_check (by decide), inv_of_check (by decide), inv_of_check (by decide)⟩, by decide⟩

/-- A triggering step and a completing one. -/
theorem witness_SequencerNeverReadsProfile :
    let s := running .txp 8 10
    (step { s with sq := { s.sq with profile := .none } } ≠ .refused .noMicroStep ∧
      (got (step s) (fun t => t.sq.step)) = some 9) ∧
    got (step (running .cfgLr 15 0)) (fun t => t.sq.profile) = some .longRange :=
  ⟨⟨nofun, by decide⟩, by decide⟩

theorem witness_UnconfiguredRadioMayDoAnything :
    let s := { running .txp 9 1 with sq := { (running .txp 9 1).sq with profile := .none } }
    s.unconfiguredTx = true ∧ s.radio.powered = true ∧ s.radio.ev.get .phyend = false := by decide

theorem witness_OnlyTheFrameStepWritesTheBuffer :
    ¬ (running .txp 5 0).resetNext ∧ got (step (running .txp 5 0)) (fun t => t.txbuf) = some [(0, 2)] ∧
    (running .txp 5 0).txbuf = [] := ⟨not_resetNext rfl, by decide, rfl⟩

theorem witness_ParametersAndCanonicalFormAreKept :
    got (step (running .txp 5 0)) (fun t => decide (t.cfg = illus)) = some true ∧ (running .txp 5 0).txbuf.wf = true := by
  decide

theorem witness_RadioTurnsTouchOnlyTheRadio :
    (withMoves [radioCompletes] idle).turns = .radio (.complete true false) :: [] ∧
    (withMoves [radioCompletes] (unpowered idle)).radio.powered = false := ⟨rfl, rfl⟩

/-- One state for each clause. -/
theorem witness_CompletionsWithoutShortcuts :
    [RState.txRampUp, .tx, .txDisable, .rxDisable, .rxRampUp, .cca, .disabled, .txIdle, .rxIdle].all
      (fun st =>
        let s := withMoves [radioCompletes] (radioAt st Latches.clear idle)
        decide (s.radio.powered = true ∧ s.radio.pending = [] ∧ s.radio.regs.shorts = [] ∧ s.radio.rstate = st) &&
          (got (step s) (fun _ => true)).isSome) = true := by decide

/-- The chain programmed, one state for each clause; both turns go on. -/
theorem witness_CompletionsWithTheChain :
    [RState.rxRampUp, .cca, .txRampUp, .tx, .txDisable, .rxDisable].all
      (fun st =>
        let s := { idle with radio := { idle.radio with rstate := st, regs := { idle.radio.regs with shorts := shortsChain } } }
        decide (s.radio.powered = true ∧ s.radio.pending = [] ∧ s.radio.regs.shorts = shortsChain) &&
          (got (step (withMoves [.radio (.complete true false)] s)) (fun _ => true)).isSome &&
          (got (step (withMoves [.radio (.complete false true)] s)) (fun _ => true)).isSome) = true := by decide

/-- The last byte the length byte announces, the first after it, and a radio outside `Tx`. -/
theorem witness_RadioReadsTheFrameOnlyInTx :
    let s := { running .txp 13 1 with
      txbuf := [(0, 3), (1, 0x77), (2, 8), (3, 9)]
      radio := { idle.radio with rstate := .tx, regs := { idle.radio.regs with pktptr := 0x1000 } } }
    s.radio.regs.pktptr = s.cfg.txbufAddr ∧ s.txbuf.read 0 = some 3 ∧ 3 ≤ (3 : Byte).toNat ∧ 3 < s.cfg.maxPacketLen ∧
    s.txbuf.read 3 = some 9 ∧ (3 : Byte).toNat < 4 ∧ idle.radio.rstate ≠ .tx ∧
    (Memory.read [(0, 3)] 3 = none ∧ Memory.read [(0, 3)] 0 = some 3) := by decide

theorem witness_PollingNeverTimesOut :
    (running .txp 9 10).cfg.waitBound = none ∧ (running .txp 9 10).sq.busy = true ∧ (running .txp 9 10).turns = [] ∧
    rowAt .txp 9 = some ⟨.run .evrdTxready, .ifSet (.step 10) (.step 9)⟩ ∧
    backOf .evrdTxready (running .txp 9 10) = .latch false := by decide

/-- `POLLCNT = 2`, the last read of three, and `POLLCNT = 0`. -/
theorem witness_BoundedWaitEndsInTimeout :
    let s := { running .txp 9 10 with cfg := { illus with waitBound := some 3 } }
    let s' := { s with sq := { s.sq with pollcnt := 2 } }
    sequencerState s' = some s' ∧ s'.cfg.waitBound = some 3 ∧ s'.sq.pollcnt = 3 - 1 ∧ s.sq.pollcnt ≠ 3 - 1 ∧
    rowAt s.sq.cmd s.sq.step = some ⟨.run .evrdTxready, .ifSet (.step 10) (.step 9)⟩ ∧
    backOf .evrdTxready s = .latch false ∧
    got (step (running .txp 8 10)) (fun t => decide (t.sq.step ≠ (running .txp 8 10).sq.step)) = some true := by decide

theorem witness_EveryWaitIsAcknowledged :
    rowAt .txp 13 = some ⟨.run .evrdPhyend, .ifSet (.step 14) (.step 13)⟩ ∧
    rowAt .cfgLr 2 = some ⟨.run .evrdDisabled, .ifSet (.step 3) (.step 2)⟩ := by decide

theorem witness_PortShowsOnlyTheRow :
    traceEntry (running .txs 7 10) = some ⟨0x0D, 1, .none⟩ := by decide

/-- The two `POWER` writes' window, and the completing step. -/
theorem witness_CfgEstablishesCleanEntry :
    ((running .cfgStd 5 0).Inv ∧ (unpowered (running .cfgStd 5 0)).cfgPowerAt) ∧
    (running .cfgLr 15 0).Inv ∧ (running .cfgLr 15 0).cfgPowerAt ∧ ¬ (running .cfgLr 15 0).resetNext ∧
    got (step (running .cfgLr 15 0)) (fun t => t.sq.busy) = some false :=
  ⟨⟨inv_of_check (by decide), fun _ _ => ⟨fun _ => rfl, fun h => absurd h (by decide)⟩⟩, inv_of_check (by decide),
    fun _ _ => ⟨fun h => absurd h (by decide), fun _ => ⟨⟨rfl, rfl, rfl, rfl, rfl⟩, rfl⟩⟩, not_resetNext rfl, by decide⟩

/-- Acceptance; the last step; the length check of an oversized payload. -/
theorem witness_TxpKeepsCleanEntry :
    (idle.radio.clean ∧ idle.sq.busy = false ∧ idle.sq.profile = .standard) ∧
    ((radioAt .disabled ⟨false, false, true⟩ (running .txp 18 10)).Inv ∧
      (radioAt .disabled ⟨false, false, true⟩ (running .txp 18 10)).genuineTxp ∧
      ¬ (radioAt .disabled ⟨false, false, true⟩ (running .txp 18 10)).resetNext) ∧
    ((running .txp 0 63).Inv ∧ (running .txp 0 63).genuineTxp) :=
  ⟨⟨idle_clean, rfl, rfl⟩,
    ⟨inv_of_check (by decide), ⟨rfl, rfl, nofun, ⟨rfl, rfl⟩, rfl, rfl, rfl, fun _ => rfl⟩, not_resetNext rfl⟩,
    inv_of_check (by decide), rfl, rfl, nofun, ⟨rfl, rfl⟩, rfl, rfl, rfl, fun h => absurd h (by decide)⟩

theorem witness_WindowIsStable :
    let s := { running .txs 9 2 with txbuf := [(0, 4), (1, 5), (2, 6)], radio := { idle.radio with rstate := .rxRampUp, regs := { idle.radio.regs with pktptr := 0x1000, shorts := shortsChain } } }
    s.Inv ∧ s.windowAt :=
  ⟨inv_of_check (by decide), fun _ _ => ⟨fun _ => by decide, fun _ => rfl, fun _ => by decide⟩⟩

/-- The largest payload, with and without the carrier hold. -/
theorem witness_TxpCompletesWithARespondingRadio :
    [false, true].all (fun h =>
      let s := withMoves (txpTurns h 2 0 1) (offering (if h then 0x0A else 0x02) 62 (List.replicate 62 7))
      invCheck s && decide (s.cfg.waitBound = none ∧ s.sq.busy = false ∧ s.sq.profile ≠ .none ∧ s.host.offerTouched = false ∧
        s.host.offerData.length = (62 : Half).toNat ∧ (62 : Half).toNat < s.cfg.maxPacketLen - 1 ∧
        s.turns = txpTurns h 2 0 1 ++ [])) = true ∧ idle.radio.clean :=
  ⟨by decide, idle_clean⟩

/-- Both values of `HOLD`, a small payload and the largest. -/
theorem witness_TxsCannotTellWhetherAPacketWasSent :
    (offering 0x12 2 [0x55, 0xAA]).sq.profile ≠ .none ∧ (offering 0x12 2 [0x55, 0xAA]).Inv ∧ (offering 0x12 2 [0x55, 0xAA]).radio.clean ∧
    (offering 0x1A 62 []).Inv ∧ (62 : Half).toNat < illus.maxPacketLen - 1 :=
  ⟨nofun, inv_of_check (by decide), idle_clean, inv_of_check (by decide), by decide⟩

/-- The receiver still ramping up (`k = 0`), and the frame being sent (`k = 3`). -/
theorem witness_TxsIsCutOffByTheForcedDisable :
    [0, 3].all (fun k =>
      let s := withMoves (seqTurns 7 ++ List.replicate k radioCompletes ++ seqTurns 3 ++ [radioCompletes] ++ seqTurns 2)
        (offering 0x1A 2 [0x55, 0xAA])
      invCheck s && decide (s.cfg.waitBound = none ∧ s.sq.busy = false ∧ s.sq.profile ≠ .none ∧
        (2 : Half).toNat < s.cfg.maxPacketLen - 1 ∧ k ≤ 3)) = true ∧ idle.radio.clean :=
  ⟨by decide, idle_clean⟩

theorem witness_CfgAppliesItsProfile :
    ((offering 0x01 9 []).Inv ∧ (offering 0x09 0 []).Inv) ∧ (offering 0x01 9 []).cfg.waitBound = none ∧
    (offering 0x01 9 []).turns = [] ∧ (offering 0x01 9 []).radio.rstate = .disabled :=
  ⟨⟨inv_of_check (by decide), inv_of_check (by decide)⟩, rfl, rfl, rfl⟩

/-- Already disabled; in `Cca` with the chain programmed. -/
theorem witness_DisableIsIdempotent :
    ((offering 0x00 0 []).Inv ∧ (offering 0x00 0 []).turns = []) ∧
    (let s := withMoves (seqTurns 3 ++ [radioCompletes] ++ seqTurns 2)
      { offering 0x00 0 [] with radio := { idle.radio with rstate := .cca, regs := { idle.radio.regs with shorts := shortsChain } } }
     s.Inv ∧ s.radio.rstate ≠ .disabled ∧ s.radio.ev.disabled = false ∧
     s.radio.regs.shorts = shortsChain) :=
  ⟨⟨inv_of_check (by decide), rfl⟩, inv_of_check (by decide), by decide, rfl, rfl⟩

end Sys2Proof.Tests
end

