-- ==== Sys2Proof/Proofs/Scope.lean ====
section
/-! SUPPORT. The scope family (00_scope.md R4, R5, R8; 10_state.md R10 to R17): a step keeps the parameters and `TXBUF`'s
canonical form, and from the invariant it always answers and lands in the invariant. The invariant's conjunct about the
sequencer has a name (`Sequencer.ok`), and each way a sequencer step can end has one lemma that re-establishes it. -/

namespace Sys2Proof.Machine

/-! ### Acceptance -/

theorem accept_of_idle (c : Cmd) (h : Bool) (len : Half) {s : State} (hb : s.sq.busy = false) :
    accept c h len s =
      (s.withSq { s.sq with busy := true, cmd := c, hold := h, len := len, step := 0, pollcnt := 0 }).withHost
        { s.host with offer := none } := by
  simp [accept, hb]

theorem acceptTx_of_idle (c : Cmd) (h : Bool) (len : Half) {s : State} (hb : s.sq.busy = false) :
    acceptTx c h len s =
      (s.withSq { s.sq with busy := true, cmd := c, hold := h, len := len, step := 0, pollcnt := 0 }).withHost
        { s.host with offer := none, payload := s.host.offerData, payloadTouched := s.host.offerTouched } := by
  simp only [acceptTx, hb, accept_of_idle c h len hb]
  rfl

/-- A host command at rest is accepted, whatever it is; only a transmit command carries operands (R60, R61). -/
theorem exec_command_accepts {i : Instr} {s : State} (hi : isCommand i = true) (hb : s.sq.busy = false) :
    ∃ c h len host, (c.isTx = false → h = false ∧ len = 0) ∧
      exec i s = .next
        ((s.withSq { s.sq with busy := true, cmd := c, hold := h, len := len, step := 0, pollcnt := 0 }).withHost
          host) := by
  cases i with
  | disable => exact ⟨.disable, false, 0, _, by simp, congrArg Host.Outcome.next (accept_of_idle _ _ _ hb)⟩
  | cfgStd => exact ⟨.cfgStd, false, 0, _, by simp, congrArg Host.Outcome.next (accept_of_idle _ _ _ hb)⟩
  | cfgLr => exact ⟨.cfgLr, false, 0, _, by simp, congrArg Host.Outcome.next (accept_of_idle _ _ _ hb)⟩
  | txp h len => exact ⟨.txp, h, len, _, by simp [Cmd.isTx], congrArg Host.Outcome.next (acceptTx_of_idle _ _ _ hb)⟩
  | txs h len => exact ⟨.txs, h, len, _, by simp [Cmd.isTx], congrArg Host.Outcome.next (acceptTx_of_idle _ _ _ hb)⟩
  | _ => cases hi

/-! ### O37: the parameters and the canonical form -/

theorem exec_micro_keeps_form {i : Instr} {s t : State} (hi : movesSequencer i = false) (h : exec i s = .next t)
    (hw : s.txbuf.wf = true) : t.txbuf.wf = true := by
  by_cases hf : i = .frame
  · subst hf
    obtain ⟨m, hm, rfl⟩ := execFrame_next h
    exact Memory.wf_writeBytes _ _ _ _ _ hm hw
  · rwa [(exec_micro_keeps hi h).2 hf]

theorem advance_cfg (v : State) : (advance v).cfg = v.cfg := by rw [advance_keeps]; rfl

theorem advance_txbuf (v : State) : (advance v).txbuf = v.txbuf := by rw [advance_keeps]; rfl

theorem lengthCheck_cfg (s : State) : (lengthCheck s).cfg = s.cfg := by unfold lengthCheck; split <;> rfl

theorem lengthCheck_txbuf (s : State) : (lengthCheck s).txbuf = s.txbuf := by unfold lengthCheck; split <;> rfl

/-- The other agents' turns (R53, R160, R210); the reset input's empties `TXBUF`. -/
theorem takeTurn_other_keeps {s t : State} (h : takeTurn s = .other t) :
    t.cfg = s.cfg ∧ (t.txbuf = s.txbuf ∧ t.sq = s.sq ∨
      t.txbuf = [] ∧ t.sq = { Sequencer.reset with cmd := Config.freeCmd s.tick }) := by
  obtain ⟨a, ts, -, rfl⟩ | ⟨hs, ts, -, rfl, -, -⟩ | ⟨ts, -, rfl⟩ := takeTurn_other h
  · exact ⟨rfl, .inl ⟨rfl, rfl⟩⟩
  · exact ⟨rfl, .inl ⟨rfl, rfl⟩⟩
  · exact ⟨rfl, .inr ⟨rfl, rfl⟩⟩

theorem takeTurn_sequencer_keeps {s u : State} (h : takeTurn s = .sequencer u) :
    u.cfg = s.cfg ∧ u.txbuf = s.txbuf ∧ u.sq = s.sq := by
  rw [(takeTurn_sequencer h).1]; exact ⟨rfl, rfl, rfl⟩

/-- Settles O37: over what a step can be; only a frame build and the reset input write `TXBUF`. -/
theorem parametersAndCanonicalFormAreKept : Obligations.ParametersAndCanonicalFormAreKept := by
  intro s t h
  obtain ho | ⟨u, hu, hcase⟩ := step_cases h
  · obtain ⟨hc, ⟨hm, -⟩ | ⟨hm, -⟩⟩ := takeTurn_other_keeps ho
    · exact ⟨hc, fun hw => hm ▸ hw⟩
    · exact ⟨hc, fun _ => hm ▸ rfl⟩
  · obtain ⟨hc, hm, -⟩ := takeTurn_sequencer_keeps hu
    rw [← hc, ← hm]
    obtain ⟨-, -, rfl⟩ | ⟨o, e, -, -, -, rfl⟩ | ⟨o, i, hb, -, hd, he⟩ | ⟨r, -, -, -, rfl⟩ |
      ⟨r, i, v, -, hr, ha, he, rfl⟩ := hcase
    · exact ⟨rfl, id⟩
    · exact ⟨rfl, id⟩
    · obtain ⟨c, l, len, host, -, hx⟩ := exec_command_accepts (decodeCommand_isCommand hd) hb
      cases hx.symm.trans he
      exact ⟨rfl, id⟩
    · exact ⟨lengthCheck_cfg u, by simp only [lengthCheck_txbuf, imp_self]⟩
    · have hi := row_not_mover hr ha
      rw [advance_cfg, advance_txbuf]
      exact ⟨(exec_micro_keeps hi he).1.1, exec_micro_keeps_form hi he⟩

/-! ### The tables, checked once more as data -/

/-- Where the rows of a micro-program stand: the length check is step 0 of a transmit command and nothing else is; only a
transmit command builds a frame; no poll is at step 0; and every instruction's operands are in their domain. -/
def rowPlaced (p : Params) (c : Cmd) (n : Nat) (r : Row) : Bool :=
  (match r.act with
   | .lengthCheck => c.isTx && decide (n = 0)
   | .run i => i.wellFormed p && (!c.isTx || decide (1 ≤ n)) && (c.isTx || decide (i ≠ .frame))) &&
  (match r.next with
   | .ifSet _ _ => decide (1 ≤ n)
   | .go _ | .ifDisabled _ _ | .ifHold _ _ => true)

theorem program_rows_placed (p : Params) (c : Cmd) :
    ((List.range 19).all fun n => (rowAt c n).all (rowPlaced p c n)) = true := by
  cases c <;> rfl

theorem rowAt_placed (p : Params) {c : Cmd} {n : Nat} {r : Row} (h : rowAt c n = some r) :
    rowPlaced p c n r = true := by
  have hn : n ∈ List.range 19 := List.mem_range.2 (Nat.lt_of_lt_of_le (rowAt_lt h) (program_length_le c))
  simpa [h] using List.all_eq_true.1 (program_rows_placed p c) n hn

/-- The length check is step 0 of a transmit command (R121). -/
theorem lengthCheck_row {c : Cmd} {n : Nat} {r : Row} (h : rowAt c n = some r) (ha : r.act = .lengthCheck) :
    c.isTx = true ∧ n = 0 := by
  have hpl := rowAt_placed Config.params h
  simp only [rowPlaced, ha, Bool.and_eq_true, decide_eq_true_eq] at hpl
  exact hpl.1

/-- An instruction of a row is well-formed; a transmit command runs none before its length check, and only a transmit
command builds a frame (R121, R122, R126). -/
theorem run_row (p : Params) {c : Cmd} {n : Nat} {r : Row} {i : Instr} (h : rowAt c n = some r) (ha : r.act = .run i) :
    i.wellFormed p = true ∧ (c.isTx = true → 1 ≤ n) ∧ (i = .frame → c.isTx = true) := by
  have hpl := rowAt_placed p h
  simp only [rowPlaced, ha, Bool.and_eq_true] at hpl
  obtain ⟨⟨⟨hw, hn⟩, hf⟩, -⟩ := hpl
  exact ⟨hw, fun hc => by simpa [hc] using hn, fun hi => by simpa [hi] using hf⟩

/-- No poll stands at step 0 (R150, R122). -/
theorem poll_row_step {c : Cmd} {n : Nat} {r : Row} {yes no : Target} (h : rowAt c n = some r)
    (hn : r.next = .ifSet yes no) : 1 ≤ n := by
  have hpl := rowAt_placed Config.params h
  simp only [rowPlaced, hn, Bool.and_eq_true, decide_eq_true_eq] at hpl
  exact hpl.2

/-! ### Progress -/

theorem execFrame_answers {s : State} (h : s.sq.len.toNat + 1 ≤ s.cfg.maxPacketLen) : ∃ t, execFrame s = .next t := by
  have hfit : (Memory.writeBytes s.cfg.maxPacketLen 0 (frameBytes s) s.txbuf).isSome = true :=
    (Memory.writeBytes_isSome _ _ _ _).2 (.inr (by simpa [frameBytes] using h))
  obtain ⟨m, hm⟩ := Option.isSome_iff_exists.1 hfit
  exact ⟨(s.withTxbuf m).spend, by simp only [execFrame, hm]⟩

/-- An instruction whose operands the spec allows has an answer, the frame build if its bytes fit (R14, R100). -/
theorem exec_answers {i : Instr} {s : State} (hp : s.cfg.wf = true) (hi : i.wellFormed s.cfg = true)
    (hf : i = .frame → s.sq.len.toNat + 1 ≤ s.cfg.maxPacketLen) : ∃ t, exec i s = .next t := by
  cases i with
  | frame => exact execFrame_answers (hf rfl)
  | regwrPower img => cases img <;> exact ⟨_, rfl⟩
  | regwrFreq img =>
    obtain ⟨v, b, hv⟩ := freqMap_profile hp img
    simp only [exec, execRegwrFreq, hv]
    exact ⟨_, rfl⟩
  | freqmap f =>
    have hd : s.cfg.inFreqDomain f.toNat = true := hi
    simp only [exec, execFreqmap, freqMap, hd, if_true]
    by_cases hb : f.toNat < 2400
    · simp only [if_pos hb]; exact ⟨_, rfl⟩
    · simp only [if_neg hb]; exact ⟨_, rfl⟩
  | waitAck e => simp only [exec, execWaitAck]; split <;> exact ⟨_, rfl⟩
  | powerCycle => simp only [exec, execPowerCycle]; split <;> exact ⟨_, rfl⟩
  | dis => simp only [exec, execDis]; split <;> exact ⟨_, rfl⟩
  | _ => exact ⟨_, rfl⟩

/-! ### The invariant, taken apart -/

/-- What the invariant says of the sequencer. -/
def Sequencer.ok (p : Params) (q : Sequencer) : Prop :=
  q.countsWithin p.waitBound ∧ (q.busy = false → q.resting) ∧ (q.busy = true → q.working p.maxPacketLen)

/-- What the invariant says of `TXBUF`: canonical form, and the last byte never written (R41). -/
def Memory.ok (p : Params) (m : Memory) : Prop := m.wf = true ∧ ∀ c ∈ m, c.1 + 1 < p.maxPacketLen

theorem State.inv_iff (s : State) : s.Inv ↔ s.cfg.wf = true ∧ s.txbuf.ok s.cfg ∧ s.sq.ok s.cfg := by
  simp only [State.Inv, Memory.ok, Sequencer.ok, and_assoc]

/-- `TIMEOUT` is no outcome where waits are unbounded (R180). -/
def Sequencer.timesOutOnlyBounded (p : Params) (q : Sequencer) : Prop := p.waitBound = none → q.result ≠ .timeout

theorem Sequencer.ok.timesOutOnlyBounded {p : Params} {q : Sequencer} (h : q.ok p) : q.timesOutOnlyBounded p := by
  intro hn
  have hc := h.1
  rw [hn] at hc
  exact hc.2

/-- A count of 0 is within every bound that R196 allows. -/
theorem Sequencer.countsWithin_of_zero {p : Params} {q : Sequencer} (hp : p.wf = true) (h0 : q.pollcnt = 0)
    (ht : q.timesOutOnlyBounded p) : q.countsWithin p.waitBound := by
  unfold Sequencer.countsWithin
  cases hb : p.waitBound with
  | none => exact ⟨h0, ht hb⟩
  | some n =>
    simp only [Params.wf, hb, waitBoundOk, Bool.and_eq_true, decide_eq_true_eq] at hp
    change q.pollcnt < n
    omega

theorem Sequencer.ok_of_resting {p : Params} {q : Sequencer} (hp : p.wf = true) (hb : q.busy = false) (hr : q.resting)
    (ht : q.timesOutOnlyBounded p) : q.ok p :=
  ⟨countsWithin_of_zero hp hr.2.2 ht, fun _ => hr, by simp [hb]⟩

theorem Sequencer.ok_of_working {p : Params} {q : Sequencer} (hp : p.wf = true) (hb : q.busy = true)
    (hw : q.working p.maxPacketLen) (h0 : q.pollcnt = 0) (ht : q.timesOutOnlyBounded p) : q.ok p :=
  ⟨countsWithin_of_zero hp h0 ht, by simp [hb], fun _ => hw⟩

/-! ### The sequencer after each kind of step -/

theorem Sequencer.ok_reset {p : Params} (hp : p.wf = true) (c : Cmd) : ({ Sequencer.reset with cmd := c }).ok p :=
  ok_of_resting hp rfl ⟨rfl, rfl, rfl⟩ (fun _ => nofun)

/-- A command accepted at rest stands at step 0 of its micro-program (R60). -/
theorem Sequencer.ok_accepted {p : Params} {q : Sequencer} (hp : p.wf = true) (h : q.ok p) (hb : q.busy = false)
    {c : Cmd} {hold : Bool} {len : Half} (ho : c.isTx = false → hold = false ∧ len = 0) :
    ({ q with busy := true, cmd := c, hold := hold, len := len, step := 0, pollcnt := 0 }).ok p := by
  obtain ⟨-, hseq, -⟩ := h.2.1 hb
  have hpos : 0 < (program c).length := by cases c <;> decide
  have hidle : seqAt c 0 = .idle := by cases c <;> rfl
  refine ok_of_working hp rfl ⟨hpos, hseq.trans hidle.symm, ?_, ho, fun _ => rfl⟩ rfl h.timesOutOnlyBounded
  intro _ (h1 : 1 ≤ 0)
  omega

theorem Sequencer.ok_rejected {p : Params} {q : Sequencer} (hp : p.wf = true) (hs : q.seq = .idle) (h0 : q.pollcnt = 0)
    {code : Result} (hc : code ≠ .timeout) : ({ q with result := code, busy := false, step := 0 }).ok p :=
  ok_of_resting hp rfl ⟨rfl, hs, h0⟩ (fun _ => hc)

/-- A command in progress whose operands have passed the length check (R12, R121). -/
def Sequencer.checked (maxPacketLen : Nat) (q : Sequencer) : Prop :=
  q.busy = true ∧ (q.cmd.isTx = true → q.len.toNat < maxPacketLen - 1) ∧
  (q.cmd.isTx = false → q.hold = false ∧ q.len = 0)

theorem goToStep_ok {s : State} {n : Nat} (hp : s.cfg.wf = true) (ht : s.sq.timesOutOnlyBounded s.cfg)
    (hq : s.sq.checked s.cfg.maxPacketLen) (hn : n < (program s.sq.cmd).length) (hs : s.sq.seq = seqAt s.sq.cmd n) :
    (goToStep n s).sq.ok s.cfg := by
  obtain ⟨hb, hlen, hplain⟩ := hq
  exact Sequencer.ok_of_working hp hb ⟨hn, hs, fun hc _ => hlen hc, hplain, fun _ => rfl⟩ rfl ht

theorem finish_ok {s : State} (hp : s.cfg.wf = true) (hs : s.sq.seq = .idle) : (finish s).sq.ok s.cfg := by
  refine Sequencer.ok_of_resting hp rfl ⟨rfl, hs, rfl⟩ (fun _ => ?_)
  change outcomeOf s.sq.cmd ≠ .timeout
  cases s.sq.cmd <;> decide

theorem follow_ok {s : State} {k : Target} {n : Nat} (hp : s.cfg.wf = true) (ht : s.sq.timesOutOnlyBounded s.cfg)
    (hq : s.sq.checked s.cfg.maxPacketLen) (hk : targetOk s.sq.cmd s.sq.seq n k = true) :
    (follow k s).sq.ok s.cfg := by
  cases k with
  | step m =>
    obtain ⟨-, -, hm, hs⟩ := of_decide_eq_true hk
    exact goToStep_ok hp ht hq hm hs
  | done =>
    simp only [targetOk, Bool.and_eq_true, decide_eq_true_eq] at hk
    exact finish_ok hp hk.1

/-- The length check: a rejection, or step 1 with the length known to fit (R121). -/
theorem lengthCheck_ok {s : State} {r : Row} (hp : s.cfg.wf = true) (h : s.sq.ok s.cfg) (hb : s.sq.busy = true)
    (hr : rowAt s.sq.cmd s.sq.step = some r) (ha : r.act = .lengthCheck) : (lengthCheck s).sq.ok s.cfg := by
  obtain ⟨-, hseq, -, hplain, h0⟩ := h.2.2 hb
  obtain ⟨htx, hstep⟩ := lengthCheck_row hr ha
  have hidle : seqAt s.sq.cmd 0 = .idle := by cases s.sq.cmd <;> rfl
  have hnext : 1 < (program s.sq.cmd).length ∧ seqAt s.sq.cmd 1 = .idle := by cases s.sq.cmd <;> decide
  rw [hstep, hidle] at hseq
  by_cases ho : s.cfg.maxPacketLen - 1 ≤ s.sq.len.toNat
  · simp only [lengthCheck, oversize, ho, decide_true, if_true]
    exact Sequencer.ok_rejected hp hseq (h0 hstep) (by decide)
  · simp only [lengthCheck, oversize, ho, decide_false, Bool.false_eq_true, if_false]
    exact goToStep_ok hp h.timesOutOnlyBounded ⟨hb, fun _ => Nat.lt_of_not_le ho, hplain⟩ hnext.1
      (hseq.trans hnext.2.symm)

/-- A polling read of 0, at any step but the first: the wait goes on, or is cut short (R86, R196). -/
theorem pollMissed_ok {s : State} (hp : s.cfg.wf = true) (h : s.sq.ok s.cfg) (hb : s.sq.busy = true)
    (hn : 1 ≤ s.sq.step) : (pollMissed s).sq.ok s.cfg := by
  obtain ⟨-, he⟩ | ⟨hw, he⟩ | ⟨n, hw, hne, he⟩ := pollMissed_cases s <;> rw [he]
  · exact h
  · exact Sequencer.ok_of_resting hp rfl ⟨rfl, rfl, rfl⟩ (fun hu => by simp [hw] at hu)
  · obtain ⟨hrow, hseq, hlen, hplain, -⟩ := h.2.2 hb
    have hc : s.sq.pollcnt < n := by simpa [Sequencer.countsWithin, hw] using h.1
    refine ⟨?_, fun hf => by simp [hb] at hf, fun _ => ⟨hrow, hseq, hlen, hplain, fun h0 => ?_⟩⟩
    · simp only [Sequencer.countsWithin, hw, State.withSq_sq]; omega
    · have hstep : s.sq.step = 0 := h0
      omega

/-- Where the rest of a sequencer step leads when `SEQ` stands as the tables say: along the table to an allowed target, or
nowhere, a poll having missed. -/
theorem advance_leads {v : State} {r : Row} (hr : rowAt v.sq.cmd v.sq.step = some r)
    (hs : v.sq.seq = seqAt v.sq.cmd v.sq.step) :
    (∃ k q, advance v = follow k (v.withSq { v.sq with seq := q }) ∧ targetOk v.sq.cmd q v.sq.step k = true) ∨
    (1 ≤ v.sq.step ∧ advance v = pollMissed v) := by
  have hok := rowAt_ok hr
  obtain ⟨k, hit, he, hk⟩ | ⟨yes, no, hn, -, he⟩ := advance_cases hr
  · refine .inl ⟨k, _, he, ?_⟩
    rw [hs]
    obtain hn | ⟨x, hn, -⟩ | ⟨x, hn, -⟩ | ⟨x, hn, rfl, -⟩ | ⟨x, hn, -⟩ | ⟨x, hn, -⟩ := hk <;>
      simp only [rowOk, hn, Bool.and_eq_true] at hok
    case inr.inr.inr.inl => exact hok.1.1
    all_goals cases hit <;> simp only [hok]
  · simp only [rowOk, hn, Bool.and_eq_true, decide_eq_true_eq] at hok
    refine .inr ⟨poll_row_step hr hn, ?_⟩
    rw [he, hs, hok.2, ← hs]
    rfl

/-- The rest of a sequencer step after a row's instruction. -/
theorem advance_ok {v : State} {r : Row} {i : Instr} (hp : v.cfg.wf = true) (h : v.sq.ok v.cfg)
    (hb : v.sq.busy = true) (hr : rowAt v.sq.cmd v.sq.step = some r) (ha : r.act = .run i) :
    (advance v).sq.ok v.cfg := by
  obtain ⟨-, hseq, hlen, hplain, -⟩ := h.2.2 hb
  have hchecked : v.sq.checked v.cfg.maxPacketLen :=
    ⟨hb, fun hc => hlen hc ((run_row v.cfg hr ha).2.1 hc), hplain⟩
  obtain ⟨k, q, he, hk⟩ | ⟨hn, he⟩ := advance_leads hr hseq <;> rw [he]
  · exact follow_ok (s := v.withSq { v.sq with seq := q }) hp h.timesOutOnlyBounded hchecked hk
  · exact pollMissed_ok hp h hb hn

/-! ### O29: the step -/

/-- The length of a frame in progress leaves the last byte of `TXBUF` alone (R41, R121). -/
theorem frame_row_fits {s : State} {r : Row} (h : s.sq.ok s.cfg) (hb : s.sq.busy = true)
    (hr : rowAt s.sq.cmd s.sq.step = some r) (ha : r.act = .run .frame) :
    s.sq.len.toNat + 1 < s.cfg.maxPacketLen := by
  obtain ⟨-, -, hlen, -, -⟩ := h.2.2 hb
  obtain ⟨-, hn, hc⟩ := run_row s.cfg hr ha
  have := hlen (hc rfl) (hn (hc rfl))
  omega

/-- The instruction of a row has an answer. -/
theorem run_row_answers {s : State} {r : Row} {i : Instr} (h : s.Inv) (hb : s.sq.busy = true)
    (hr : rowAt s.sq.cmd s.sq.step = some r) (ha : r.act = .run i) : ∃ t, exec i s = .next t := by
  obtain ⟨hp, -, hq⟩ := s.inv_iff.1 h
  refine exec_answers hp (run_row s.cfg hr ha).1 ?_
  rintro rfl
  exact Nat.le_of_lt (frame_row_fits hq hb hr ha)

/-- The sequencer's turn under the invariant: what it fetches has an answer. -/
theorem step_answers_of_sequencer {s u : State} (h : u.Inv) (hu : takeTurn s = .sequencer u) :
    ∃ t, step s = .next t := by
  unfold step
  simp only [hu, fetch]
  cases hb : u.sq.busy with
  | false =>
    simp only [Bool.false_eq_true, if_false]
    cases u.host.offer with
    | none => exact ⟨_, rfl⟩
    | some o =>
      cases hd : decode ⟨.command, o.cmd, o.len⟩ with
      | error e => simp only [hd]; exact ⟨_, rfl⟩
      | ok i =>
        obtain ⟨c, l, len, host, -, he⟩ := exec_command_accepts (decodeCommand_isCommand hd) hb
        simp only [hd]
        exact ⟨_, he⟩
  | true =>
    obtain ⟨hrow, -⟩ := (u.inv_iff.1 h).2.2.2.2 hb
    obtain ⟨r, hr⟩ := rowAt_isSome hrow
    simp only [if_true, hr]
    cases ha : r.act with
    | lengthCheck => exact ⟨_, rfl⟩
    | run i =>
      obtain ⟨v, hv⟩ := run_row_answers h hb hr ha
      simp only [hv]
      exact ⟨_, rfl⟩

/-- The invariant reads the parameters, `TXBUF` and the sequencer only. -/
theorem State.Inv.congr {s t : State} (h : s.Inv) (hc : t.cfg = s.cfg) (hm : t.txbuf = s.txbuf) (hq : t.sq = s.sq) :
    t.Inv := by
  rw [State.inv_iff, hc, hm, hq, ← State.inv_iff]; exact h

theorem takeTurn_sequencer_inv {s u : State} (h : s.Inv) (hu : takeTurn s = .sequencer u) : u.Inv := by
  obtain ⟨hc, hm, hq⟩ := takeTurn_sequencer_keeps hu
  exact h.congr hc hm hq

theorem takeTurn_other_inv {s t : State} (h : s.Inv) (ho : takeTurn s = .other t) : t.Inv := by
  obtain ⟨hc, ⟨hm, hq⟩ | ⟨hm, hq⟩⟩ := takeTurn_other_keeps ho
  · exact h.congr hc hm hq
  · rw [State.inv_iff, hc, hm, hq]
    exact ⟨h.1, ⟨rfl, nofun⟩, Sequencer.ok_reset h.1 _⟩

/-- The instruction of a row keeps `TXBUF`'s part of the invariant; a frame build by the length check (R41, R120). -/
theorem run_row_txbuf_ok {s t : State} {r : Row} {i : Instr} (h : s.Inv) (hb : s.sq.busy = true)
    (hr : rowAt s.sq.cmd s.sq.step = some r) (ha : r.act = .run i) (he : exec i s = .next t) : t.txbuf.ok s.cfg := by
  obtain ⟨-, ⟨hw, hlast⟩, hq⟩ := s.inv_iff.1 h
  have hi := row_not_mover hr ha
  refine ⟨exec_micro_keeps_form hi he hw, ?_⟩
  by_cases hf : i = .frame
  · subst hf
    obtain ⟨m, hm, rfl⟩ := execFrame_next he
    have hfit := frame_row_fits hq hb hr ha
    intro c hc
    obtain ⟨-, hlt⟩ | hold := Memory.mem_writeBytes _ _ _ _ _ hm c hc
    · simp only [frameBytes, List.length_cons, List.length_map, List.length_range] at hlt
      omega
    · exact hlast c hold
  · rwa [(exec_micro_keeps hi he).2 hf]

/-- A row's instruction and the rest of its step. -/
theorem run_row_inv {s t : State} {r : Row} {i : Instr} (h : s.Inv) (hb : s.sq.busy = true)
    (hr : rowAt s.sq.cmd s.sq.step = some r) (ha : r.act = .run i) (he : exec i s = .next t) : (advance t).Inv := by
  have hm := run_row_txbuf_ok h hb hr ha he
  obtain ⟨hp, -, hq⟩ := s.inv_iff.1 h
  obtain ⟨⟨hc, hsq, -, -, -⟩, -⟩ := exec_micro_keeps (row_not_mover hr ha) he
  rw [← hc] at hp hm hq
  rw [← hsq] at hb hr hq
  rw [State.inv_iff, advance_cfg, advance_txbuf]
  exact ⟨hp, hm, advance_ok hp hq hb hr ha⟩

/-- Every step that answers keeps the invariant. -/
theorem step_inv {s t : State} (h : s.Inv) (hst : step s = .next t) : t.Inv := by
  obtain ho | ⟨u, hu, hcase⟩ := step_cases hst
  · exact takeTurn_other_inv h ho
  · have hinv := takeTurn_sequencer_inv h hu
    obtain ⟨hp, hm, hq⟩ := u.inv_iff.1 hinv
    obtain ⟨-, -, rfl⟩ | ⟨o, e, hb, -, -, rfl⟩ | ⟨o, i, hb, -, hd, he⟩ | ⟨r, hb, hr, ha, rfl⟩ |
      ⟨r, i, v, hb, hr, ha, he, rfl⟩ := hcase
    · exact hinv
    · obtain ⟨-, hs, h0⟩ := hq.2.1 hb
      exact (State.inv_iff _).2 ⟨hp, hm, Sequencer.ok_rejected hp hs h0 (by decide)⟩
    · obtain ⟨c, l, len, host, hop, hx⟩ := exec_command_accepts (decodeCommand_isCommand hd) hb
      cases hx.symm.trans he
      exact (State.inv_iff _).2 ⟨hp, hm, Sequencer.ok_accepted hp hq hb hop⟩
    · rw [State.inv_iff, lengthCheck_cfg, lengthCheck_txbuf]
      exact ⟨hp, hm, lengthCheck_ok hp hq hb hr ha⟩
    · exact run_row_inv hinv hb hr ha he

/-- Under the invariant a step always has an answer: no fault, no refusal (R8). -/
theorem step_answers {s : State} (h : s.Inv) : ∃ t, step s = .next t := by
  cases ht : takeTurn s with
  | other t => exact ⟨t, by simp only [step, ht]⟩
  | sequencer u => exact step_answers_of_sequencer (takeTurn_sequencer_inv h ht) ht

/-- Settles O29: progress (`step_answers`) and preservation (`step_inv`). -/
theorem everyStepGoesOnAndKeepsTheInvariant : Obligations.EveryStepGoesOnAndKeepsTheInvariant := by
  intro s h
  obtain ⟨t, ht⟩ := step_answers h
  exact ⟨t, ht, step_inv h ht⟩

end Sys2Proof.Machine
end

