-- ==== Sys2Proof/Proofs/MachineState.lean ====
section
/-! SUPPORT. The state family (10_state.md R10 to R17, R36; 60_exceptions.md R180): the reset state, the codes of
`RESULT`, the frame that does not fit, who writes `TXBUF`, and what a step can do to `BUSY`, `STEP`, `RESULT` and
`PROFILE` (`step_moves`), said once; last, that `PROFILE` is never read (`step_twins`): from two states that differ in it
a step leaves two states that differ in it and in the radio. -/

namespace Sys2Proof.Machine

/-! ### O24, O28, O34 -/

theorem execFrame_fault_iff (s : State) :
    execFrame s = .fault .outsideTxbuf ↔
      Memory.writeBytes s.cfg.maxPacketLen 0 (frameBytes s) s.txbuf = none := by
  unfold execFrame
  cases Memory.writeBytes s.cfg.maxPacketLen 0 (frameBytes s) s.txbuf with
  | some m => simp
  | none => simp

/-- Settles O24: the frame has `LEN + 1` bytes, and writing them fails exactly when they pass the buffer's end. -/
theorem frameFaultsPastTheBuffer : Obligations.FrameFaultsPastTheBuffer := by
  intro s
  have hlen : (frameBytes s).length = s.sq.len.toNat + 1 := by simp [frameBytes]
  have hne : frameBytes s ≠ [] := List.cons_ne_nil _ _
  change execFrame s = _ ↔ _
  rw [execFrame_fault_iff, ← Option.not_isSome_iff_eq_none, Memory.writeBytes_isSome, hlen]
  simp only [hne, false_or]
  omega

/-- The parameters of this hardware meet R5, whatever the open numbers are. -/
theorem configParams_wf : Config.params.wf = true := by
  have h1 := Nat.mod_lt Config.raw.fStd (show 0 < Config.raw.freqMax + 81 by omega)
  simp only [Params.wf, Bool.and_eq_true, decide_eq_true_eq]
  refine ⟨⟨⟨?_, ?_⟩, ?_⟩, rfl⟩ <;> dsimp only [Config.params] <;> omega

/-- Settles O28: the sequencer of `State.reset` rests, its buffer is empty, and its parameters meet R5. -/
theorem resetMeetsTheInvariant : Obligations.ResetMeetsTheInvariant :=
  ⟨rfl, rfl, rfl, rfl, rfl, rfl, rfl, rfl,
    (State.inv_iff _).2 ⟨configParams_wf, ⟨reset_txbuf_wf, nofun⟩, Sequencer.ok_reset configParams_wf .disable⟩⟩

theorem Result.code_le_five (r : Result) : r.code.toNat ≤ 5 := by cases r <;> decide

theorem Result.code_injective : Function.Injective Result.code := by
  intro a b
  cases a <;> cases b <;> decide

/-- Settles O34: six codes, none above 5 and no two alike. -/
theorem resultCodesAreTheTable : Obligations.ResultCodesAreTheTable :=
  ⟨by decide, fun s => s.sq.result.code_le_five, fun _ _ h => Result.code_injective h⟩

/-! ### What the sequencer's turn finds -/

/-- A row's instruction is fetched exactly with `BUSY = 1` at its step (R87). -/
theorem fetch_micro_iff {u : State} {i : Instr} :
    fetch u = .micro i ↔ u.sq.busy = true ∧ ∃ r, rowAt u.sq.cmd u.sq.step = some r ∧ r.act = .run i := by
  unfold fetch
  cases u.sq.busy with
  | false =>
    simp only [Bool.false_eq_true, if_false, false_and, iff_false]
    split
    · nofun
    · split <;> nofun
  | true =>
    simp only [if_true, true_and]
    cases rowAt u.sq.cmd u.sq.step with
    | none => simp
    | some r => cases ha : r.act <;> simp [ha]

/-- What is fetched from the command port, with `BUSY = 0`, is one of the five commands (R60, R69). -/
theorem fetch_command {u : State} {i : Instr} (h : fetch u = .command i) : u.sq.busy = false ∧ isCommand i = true := by
  unfold fetch at h
  cases hb : u.sq.busy with
  | true =>
    simp only [hb, if_true] at h
    split at h
    · cases h
    · split at h <;> cases h
  | false =>
    simp only [hb, Bool.false_eq_true, if_false] at h
    split at h
    · cases h
    · next o _ =>
      cases hd : decode ⟨.command, o.cmd, o.len⟩ with
      | error e => simp only [hd] at h; cases h
      | ok j =>
        simp only [hd] at h
        cases h
        exact ⟨rfl, decodeCommand_isCommand hd⟩

theorem issued_of_row {s u : State} {r : Row} {i : Instr} (hu : takeTurn s = .sequencer u) (hb : u.sq.busy = true)
    (hr : rowAt u.sq.cmd u.sq.step = some r) (ha : r.act = .run i) : issued s = some i := by
  simp only [issued, hu, fetch_micro_iff.2 ⟨hb, r, hr, ha⟩]

/-- A turn of the host or the radio, the reset input apart. -/
theorem takeTurn_other_keeps_of_not_reset {s t : State} (h : takeTurn s = .other t) (hr : ¬ s.resetNext) :
    t.sq = s.sq ∧ t.txbuf = s.txbuf ∧ t.txSeed = s.txSeed := by
  obtain ⟨a, ts, -, rfl⟩ | ⟨hs, ts, -, rfl, -, -⟩ | ⟨ts, hts, -⟩ := takeTurn_other h
  · exact ⟨rfl, rfl, rfl⟩
  · exact ⟨rfl, rfl, rfl⟩
  · exact absurd ⟨ts, hts⟩ hr

/-! ### O36 -/

theorem lengthCheck_keeps (s : State) : lengthCheck s = s.withSq (lengthCheck s).sq := by
  unfold lengthCheck; split <;> rfl

/-- Settles O36: over what a step can be; of the rows' instructions only `FRAME` writes `TXBUF`. -/
theorem onlyTheFrameStepWritesTheBuffer : Obligations.OnlyTheFrameStepWritesTheBuffer := by
  intro s t hr h
  obtain ho | ⟨u, hu, hcase⟩ := step_cases h
  · obtain ⟨-, hm, hseed⟩ := takeTurn_other_keeps_of_not_reset ho hr
    exact ⟨fun hne => absurd hm hne, hseed⟩
  · have hum : u.txbuf = s.txbuf ∧ u.txSeed = s.txSeed := by rw [(takeTurn_sequencer hu).1]; exact ⟨rfl, rfl⟩
    rw [← hum.1, ← hum.2]
    obtain ⟨-, -, rfl⟩ | ⟨o, e, -, -, -, rfl⟩ | ⟨o, i, hb, -, hd, he⟩ | ⟨r, -, -, -, rfl⟩ |
      ⟨r, i, v, hb, hrow, ha, he, rfl⟩ := hcase
    · exact ⟨fun hne => absurd rfl hne, rfl⟩
    · exact ⟨fun hne => absurd rfl hne, rfl⟩
    · obtain ⟨c, l, len, host, -, hx⟩ := exec_command_accepts (decodeCommand_isCommand hd) hb
      cases hx.symm.trans he
      exact ⟨fun hne => absurd rfl hne, rfl⟩
    · rw [lengthCheck_keeps]
      exact ⟨fun hne => absurd rfl hne, rfl⟩
    · obtain ⟨⟨-, -, -, -, hseed⟩, hm⟩ := exec_micro_keeps (row_not_mover hrow ha) he
      rw [issued_of_row hu hb hrow ha, advance_keeps]
      exact ⟨fun hne => congrArg some (Decidable.of_not_not fun hf => hne (hm hf)), hseed⟩

/-! ### What a step from the invariant does to `BUSY`, `STEP`, `RESULT` and `PROFILE` -/

/-- The sequencer turns a reserved word away (R69, R182). -/
def State.rejectsWord (s : State) : Prop :=
  s.sq.busy = false ∧ (∃ u, takeTurn s = .sequencer u) ∧
  ∃ o e, s.host.offer = some o ∧ decodeCommand o.cmd o.len = .error e

/-- Every other way a step, the reset input apart, treats `BUSY`, `STEP`, `RESULT` and `PROFILE` (R13, R15, R16, R180). -/
inductive Sequencer.Moves (p : Params) (q q' : Sequencer) : Prop where
  /-- nothing is reported: a command in progress stays so, and `STEP` does not move backward -/
  | silent (hres : q'.result = q.result) (hprof : q'.profile = q.profile)
      (hbusy : q.busy = true → q'.busy = true ∧ q.step ≤ q'.step)
  /-- step 0 of a transmit command with an oversize payload (R121, R181) -/
  | oversize (hbusy : q.busy = true) (htx : q.cmd.isTx = true) (hstep : q.step = 0)
      (hlen : p.maxPacketLen - 1 ≤ q.len.toNat)
      (hdone : q'.busy = false) (hres : q'.result = .rejectedOversize) (hprof : q'.profile = q.profile)
  /-- a bounded wait cut short (R196) -/
  | timedOut (hbusy : q.busy = true) (hbound : p.waitBound ≠ none)
      (hdone : q'.busy = false) (hprof : q'.profile = q.profile)
  /-- the completing step (R102, R122, R126, R151) -/
  | completed (hbusy : q.busy = true) (htx : q.cmd.isTx = true → 1 ≤ q.step) (hcfg : q.cmd.isCfg = true → q.step = 15)
      (hdone : q'.busy = false) (hres : q'.result = outcomeOf q.cmd) (hprof : q'.profile = profileAfter q.cmd q.profile)

theorem lengthCheck_moves {s : State} {r : Row} (hb : s.sq.busy = true) (hr : rowAt s.sq.cmd s.sq.step = some r)
    (ha : r.act = .lengthCheck) : s.sq.Moves s.cfg (lengthCheck s).sq := by
  obtain ⟨htx, hstep⟩ := lengthCheck_row hr ha
  by_cases ho : s.cfg.maxPacketLen - 1 ≤ s.sq.len.toNat
  · have hrej : lengthCheck s = raiseReject .rejectedOversize s := by simp [lengthCheck, oversize, ho]
    rw [hrej]
    exact .oversize hb htx hstep ho rfl rfl rfl
  · have hgo : lengthCheck s = goToStep 1 s := by simp [lengthCheck, oversize, ho]
    rw [hgo]
    exact .silent rfl rfl fun _ => ⟨hb, hstep ▸ Nat.zero_le _⟩

theorem pollMissed_moves {s : State} (hb : s.sq.busy = true) : s.sq.Moves s.cfg (pollMissed s).sq := by
  obtain ⟨-, he⟩ | ⟨hw, he⟩ | ⟨n, -, -, he⟩ := pollMissed_cases s <;> rw [he]
  · exact .silent rfl rfl fun _ => ⟨hb, Nat.le_refl _⟩
  · exact .timedOut hb (by simp [hw]) rfl rfl
  · exact .silent rfl rfl fun _ => ⟨hb, Nat.le_refl _⟩

/-- The rest of a sequencer step after a row's instruction, along the table (R13) or with a poll missed. -/
theorem advance_moves {v : State} {r : Row} {i : Instr} (h : v.sq.ok v.cfg) (hb : v.sq.busy = true)
    (hr : rowAt v.sq.cmd v.sq.step = some r) (ha : r.act = .run i) : v.sq.Moves v.cfg (advance v).sq := by
  obtain ⟨-, hseq, -⟩ := h.2.2 hb
  obtain ⟨k, q, he, hk⟩ | ⟨-, he⟩ := advance_leads hr hseq <;> rw [he]
  · cases k with
    | step m =>
      obtain ⟨hle, -⟩ := of_decide_eq_true hk
      exact .silent rfl rfl fun _ => ⟨hb, hle⟩
    | done =>
      simp only [targetOk, Bool.and_eq_true, Bool.or_eq_true, decide_eq_true_eq] at hk
      exact .completed hb (run_row v.cfg hr ha).2.1 (fun hc => by simpa [hc] using hk.2) rfl rfl rfl
  · exact pollMissed_moves hb

/-- Everything a step from the invariant, the reset input apart, can do to the sequencer's `BUSY`, `STEP`, `RESULT` and
`PROFILE`. -/
theorem step_moves {s t : State} (h : s.Inv) (hn : ¬ s.resetNext) (hst : step s = .next t) :
    (s.rejectsWord ∧ t.sq = { s.sq with result := .rejectedBadcmd, busy := false, step := 0 }) ∨
    s.sq.Moves s.cfg t.sq := by
  obtain ho | ⟨u, hu, hcase⟩ := step_cases hst
  · rw [(takeTurn_other_keeps_of_not_reset ho hn).1]
    exact .inr (.silent rfl rfl fun hb => ⟨hb, Nat.le_refl _⟩)
  · obtain ⟨-, -, hq⟩ := u.inv_iff.1 (takeTurn_sequencer_inv h hu)
    obtain ⟨hc, -, hsq⟩ := takeTurn_sequencer_keeps hu
    have hhost : u.host = s.host := by rw [(takeTurn_sequencer hu).1]; rfl
    rw [State.rejectsWord, ← hhost, ← hc, ← hsq]
    obtain ⟨-, -, rfl⟩ | ⟨o, e, hb, hof, hd, rfl⟩ | ⟨o, i, hb, -, hd, he⟩ | ⟨r, hb, hr, ha, rfl⟩ |
      ⟨r, i, v, hb, hr, ha, he, rfl⟩ := hcase
    · exact .inr (.silent rfl rfl fun hb => ⟨hb, Nat.le_refl _⟩)
    · exact .inl ⟨⟨hb, ⟨u, hu⟩, o, e, hof, hd⟩, rfl⟩
    · obtain ⟨c, l, len, host, -, hx⟩ := exec_command_accepts (decodeCommand_isCommand hd) hb
      cases hx.symm.trans he
      exact .inr (.silent rfl rfl fun hbusy => by simp [hb] at hbusy)
    · exact .inr (lengthCheck_moves hb hr ha)
    · obtain ⟨⟨hvc, hvq, -, -, -⟩, -⟩ := exec_micro_keeps (row_not_mover hr ha) he
      rw [← hvc, ← hvq] at hq ⊢
      rw [← hvq] at hb hr
      exact .inr (advance_moves hq hb hr ha)

/-! ### O32, O33 -/

/-- The reset input ends the command in progress (R210). -/
theorem resetNext_ends {s t : State} (hn : s.resetNext) (hst : step s = .next t) : t.sq.busy = false := by
  obtain ⟨ts, hts⟩ := hn
  simp only [step, takeTurn, hts] at hst
  cases hst
  rfl

/-- Settles O32: the only step that keeps `BUSY` is a silent one; the bound is the length of the longest micro-program. -/
theorem stepNeverMovesBackward : Obligations.StepNeverMovesBackward := by
  intro s t h hb hst hb'
  have hn : ¬ s.resetNext := fun hn => by simp [resetNext_ends hn hst] at hb'
  have hle : t.sq.step ≤ 18 := by
    obtain ⟨hlt, -⟩ := (t.inv_iff.1 (step_inv h hst)).2.2.2.2 hb'
    have := program_length_le t.sq.cmd
    omega
  refine ⟨?_, hle⟩
  obtain ⟨⟨hidle, -⟩, -⟩ | hm := step_moves h hn hst
  · simp [hb] at hidle
  · cases hm with
    | silent _ _ hbusy => exact (hbusy hb).2
    | oversize _ _ _ _ hdone | timedOut _ _ hdone | completed _ _ _ hdone => simp [hb'] at hdone

/-- The seven words that are commands decode (R60). -/
theorem decodeCommand_ok_of_mem {cmd : Byte} (len : Half)
    (h : cmd.toNat ∈ [0x00, 0x01, 0x02, 0x09, 0x0A, 0x12, 0x1A]) : ∃ i, decodeCommand cmd len = .ok i := by
  have hword : cmd = BitVec.ofNat 8 cmd.toNat := BitVec.eq_of_toNat_eq (by simp only [BitVec.toNat_ofNat, Nat.mod_eq_of_lt cmd.isLt])
  generalize cmd.toNat = n at h hword
  subst hword
  simp only [List.mem_cons, List.not_mem_nil, or_false] at h
  obtain rfl | rfl | rfl | rfl | rfl | rfl | rfl := h <;> exact ⟨_, rfl⟩

theorem not_mem_of_decodeCommand_error {cmd : Byte} {len : Half} {e : DecodeError} (h : decodeCommand cmd len = .error e) :
    cmd.toNat ∉ [0x00, 0x01, 0x02, 0x09, 0x0A, 0x12, 0x1A] := by
  intro hm
  obtain ⟨i, hi⟩ := decodeCommand_ok_of_mem len hm
  cases h.symm.trans hi

/-- What the completing step leaves in `PROFILE` differs from before only for a `CFG` (R16). -/
theorem profileAfter_ne {c : Cmd} {p : Profile} (h : profileAfter c p ≠ p) :
    c.isCfg = true ∧ outcomeOf c = .ok ∧
    ((c = .cfgStd ∧ profileAfter c p = .standard) ∨ (c = .cfgLr ∧ profileAfter c p = .longRange)) := by
  cases c with
  | cfgStd => exact ⟨rfl, rfl, .inl ⟨rfl, rfl⟩⟩
  | cfgLr => exact ⟨rfl, rfl, .inr ⟨rfl, rfl⟩⟩
  | disable | txp | txs => exact absurd rfl h

/-- The commands by their outcome (R126, R180). -/
theorem outcomeOf_cases {q : Sequencer} (htx : q.cmd.isTx = true → 1 ≤ q.step) :
    (q.cmd = .txs ∧ 1 ≤ q.step ∧ outcomeOf q.cmd = .okUnverified) ∨
    (q.cmd = .txp ∧ 1 ≤ q.step ∧ outcomeOf q.cmd = .ok) ∨
    ((q.cmd = .disable ∨ q.cmd = .cfgStd ∨ q.cmd = .cfgLr) ∧ outcomeOf q.cmd = .ok) := by
  cases hc : q.cmd with
  | txs => exact .inl ⟨rfl, htx (by rw [hc]; rfl), rfl⟩
  | txp => exact .inr (.inl ⟨rfl, htx (by rw [hc]; rfl), rfl⟩)
  | disable | cfgStd | cfgLr => exact .inr (.inr ⟨by simp, rfl⟩)

/-- Settles O33: over what a step from the invariant can do to the sequencer. -/
theorem resultAndProfileAreWrittenAtTheEnd : Obligations.ResultAndProfileAreWrittenAtTheEnd := by
  intro s t h hn hst
  obtain ⟨⟨hidle, hturn, o, e, hoff, hd⟩, ht⟩ | hm := step_moves h hn hst
  · rw [ht]
    refine ⟨fun _ => rfl, fun _ _ => ⟨rfl, hturn, o, hoff, not_mem_of_decodeCommand_error hd⟩,
      fun hne => absurd rfl hne, fun _ hb => ?_⟩
    simp [hidle] at hb
  · cases hm with
    | silent hres hprof hbusy =>
      refine ⟨fun hne => absurd hres hne, fun hne => absurd hres hne, fun hne => absurd hprof hne, fun _ hb hb' => ?_⟩
      simp [(hbusy hb).1] at hb'
    | oversize hb htx hstep hlen hdone hres hprof =>
      exact ⟨fun _ => hdone, fun _ hf => by simp [hb] at hf, fun hne => absurd hprof hne,
        fun _ _ _ => .inl ⟨htx, hstep, hlen, hres⟩⟩
    | timedOut hb hbound hdone hprof =>
      exact ⟨fun _ => hdone, fun _ hf => by simp [hb] at hf, fun hne => absurd hprof hne,
        fun hnone => absurd hnone hbound⟩
    | completed hb htx hcfg hdone hres hprof =>
      refine ⟨fun _ => hdone, fun _ hf => by simp [hb] at hf, fun hne => ?_, fun _ _ _ => ?_⟩
      · rw [hprof] at hne ⊢
        obtain ⟨hc, hok, hsel⟩ := profileAfter_ne hne
        exact ⟨hb, hcfg hc, hdone, hres.trans hok, hsel⟩
      · rw [hres]
        exact .inr (outcomeOf_cases htx)

/-! ### O35: `PROFILE` is never read -/

/-- The same state with another `PROFILE`. -/
def State.withProfile (s : State) (p : Profile) : State := s.withSq { s.sq with profile := p }

/-- The same state with another `PROFILE` and another radio: all that a step may make of a difference in `PROFILE`. -/
def State.twin (s : State) (p : Profile) (r : Radio) : State := (s.withProfile p).withRadio r

/-- `t` and `t'` come of states whose profiles were `q` and `p`: they differ in the radio and in `PROFILE` only, which is
alike in both or as it was. -/
def State.twins (p q : Profile) (t t' : State) : Prop :=
  ∃ p' r, t' = t.twin p' r ∧ (p' = t.sq.profile ∨ (p' = p ∧ t.sq.profile = q))

theorem State.twins_of_kept {p q : Profile} {t : State} (r : Radio) (h : t.sq.profile = q) :
    State.twins p q t (t.twin p r) :=
  ⟨p, r, rfl, .inr ⟨rfl, h⟩⟩

@[simp] theorem State.withProfile_cfg (s : State) (p : Profile) : (s.withProfile p).cfg = s.cfg := rfl
@[simp] theorem State.withProfile_txbuf (s : State) (p : Profile) : (s.withProfile p).txbuf = s.txbuf := rfl
@[simp] theorem State.withProfile_host (s : State) (p : Profile) : (s.withProfile p).host = s.host := rfl
@[simp] theorem State.withProfile_radio (s : State) (p : Profile) : (s.withProfile p).radio = s.radio := rfl
@[simp] theorem State.withProfile_sub (s : State) (p : Profile) : (s.withProfile p).sub = s.sub := rfl
@[simp] theorem State.withProfile_turns (s : State) (p : Profile) : (s.withProfile p).turns = s.turns := rfl

theorem fetch_withProfile (s : State) (p : Profile) : fetch (s.withProfile p) = fetch s := rfl

theorem backOf_withProfile (i : Instr) (s : State) (p : Profile) : backOf i (s.withProfile p) = backOf i s := rfl

/-! #### Instructions -/

theorem configWrite_withProfile (f g : Regs → Regs) (s : State) (p : Profile) :
    configWrite f g (s.withProfile p) = (configWrite f g s).withProfile p := by
  by_cases h : s.radio.rstate = .disabled
  · simp only [configWrite, State.withProfile_radio, h, if_true]; rfl
  · simp only [configWrite, State.withProfile_radio, h, if_false]; rfl

theorem powerOn_withProfile (s : State) (p : Profile) :
    powerOn (s.withProfile p) = (powerOn s).withProfile p := by
  by_cases h : s.radio.powered = true
  · simp only [powerOn, State.withProfile_radio, h, if_true]; exact configWrite_withProfile _ _ s p
  · simp only [powerOn, State.withProfile_radio, h, Bool.false_eq_true, if_false]; rfl

theorem frameBytes_withProfile (s : State) (p : Profile) : frameBytes (s.withProfile p) = frameBytes s := rfl

/-- A row's instruction: its own effect is the same, a trigger's on the radio apart (R130). -/
theorem exec_micro_withProfile {i : Instr} {s t : State} (p : Profile) (hi : movesSequencer i = false)
    (h : exec i s = .next t) : ∃ r, exec i (s.withProfile p) = .next (t.twin p r) := by
  cases i with
  | disable | cfgStd | cfgLr | txp | txs | waitAck | dis => cases hi
  | regwrPower img =>
    cases img <;> cases h
    · exact ⟨_, rfl⟩
    · exact ⟨_, congrArg Host.Outcome.next (powerOn_withProfile s p)⟩
  | regwrMode | regwrPktlay0 | regwrPktlay1 | regwrCrccfg | regwrCrcpoly | regwrCrcseed | regwrCcacfg | regwrAddrbase
  | regwrAddrprefix | regwrTxpower =>
    cases h
    exact ⟨_, congrArg Host.Outcome.next (configWrite_withProfile _ _ s p)⟩
  | regwrFreq img =>
    simp only [exec, execRegwrFreq, State.withProfile_cfg] at h ⊢
    cases hf : freqMap s.cfg (profileMhz s.cfg img) with
    | none => simp only [hf] at h; cases h
    | some vb =>
      simp only [hf] at h ⊢
      cases h
      exact ⟨_, congrArg Host.Outcome.next (configWrite_withProfile _ _ s p)⟩
  | freqmap f =>
    simp only [exec, execFreqmap, State.withProfile_cfg] at h ⊢
    cases hf : freqMap s.cfg f.toNat with
    | none => simp only [hf] at h; cases h
    | some vb =>
      simp only [hf] at h ⊢
      cases h
      exact ⟨_, rfl⟩
  | frame =>
    obtain ⟨m, hm, rfl⟩ := execFrame_next h
    simp only [exec, execFrame, State.withProfile_cfg, State.withProfile_txbuf, frameBytes_withProfile, hm]
    exact ⟨_, rfl⟩
  | powerCycle =>
    simp only [exec, execPowerCycle, State.withProfile_sub, powerOn_withProfile] at h ⊢
    split at h <;> cases h <;> exact ⟨_, rfl⟩
  | _ => cases h; exact ⟨_, rfl⟩

/-! #### The rest of a step -/

theorem follow_twins (k : Target) (p : Profile) (r : Radio) (v : State) :
    State.twins p v.sq.profile (follow k v) (follow k (v.twin p r)) := by
  cases k with
  | step n => exact State.twins_of_kept r rfl
  | done =>
    refine ⟨profileAfter v.sq.cmd p, r, rfl, ?_⟩
    change _ = profileAfter v.sq.cmd v.sq.profile ∨ _ ∧ profileAfter v.sq.cmd v.sq.profile = _
    cases v.sq.cmd with
    | cfgStd | cfgLr => exact .inl rfl
    | disable | txp | txs => exact .inr ⟨rfl, rfl⟩

theorem pollMissed_twins (p : Profile) (r : Radio) (v : State) :
    State.twins p v.sq.profile (pollMissed v) (pollMissed (v.twin p r)) := by
  have hw : (v.twin p r).cfg.waitBound = v.cfg.waitBound := rfl
  have hc : (v.twin p r).sq.pollcnt = v.sq.pollcnt := rfl
  unfold pollMissed
  rw [hw, hc]
  cases v.cfg.waitBound with
  | none => exact State.twins_of_kept r rfl
  | some n =>
    by_cases hn : v.sq.pollcnt + 1 = n
    · simp only [if_pos hn]; exact State.twins_of_kept r rfl
    · simp only [if_neg hn]; exact State.twins_of_kept r rfl

/-- The target that a row's "next" column selects; `none` is a poll that stays where it is. -/
def Next.target (n : Next) (v : State) : Option Target :=
  match n with
  | .go k => some k
  | .ifDisabled yes no => some (if v.portVal = .state .disabled then yes else no)
  | .ifSet yes _ => if v.portVal = .latch true then some yes else none
  | .ifHold yes no => some (if v.sq.hold then yes else no)

/-- `SEQ` moved by the row's micro-operation (R123). -/
def State.seqMoved (v : State) : State :=
  v.withSq { v.sq with seq := seqAfter v.sq.cmd v.sq.step (decide (v.portVal = .latch true)) v.sq.seq }

theorem advance_eq_target {v : State} {r : Row} (h : rowAt v.sq.cmd v.sq.step = some r) :
    advance v = (r.next.target v).elim (pollMissed v.seqMoved) (follow · v.seqMoved) := by
  unfold advance
  simp only [h]
  cases hn : r.next with
  | go | ifDisabled | ifHold => rfl
  | ifSet yes no =>
    by_cases hd : v.portVal = .latch true
    · simp [Next.target, State.seqMoved, hd]
    · simp [Next.target, State.seqMoved, hd]

theorem advance_twins (p : Profile) (r : Radio) (v : State) :
    State.twins p v.sq.profile (advance v) (advance (v.twin p r)) := by
  cases hrow : rowAt v.sq.cmd v.sq.step with
  | none =>
    have hstay (w : State) (hw : rowAt w.sq.cmd w.sq.step = none) : advance w = w := by simp only [advance, hw]
    rw [hstay v hrow, hstay (v.twin p r) hrow]
    exact State.twins_of_kept r rfl
  | some row =>
    rw [advance_eq_target hrow, advance_eq_target (v := v.twin p r) hrow]
    change State.twins p v.sq.profile _ ((row.next.target v).elim _ _)
    cases row.next.target v with
    | none => exact pollMissed_twins p r v.seqMoved
    | some k => exact follow_twins k p r v.seqMoved

theorem lengthCheck_twins (p : Profile) (s : State) :
    State.twins p s.sq.profile (lengthCheck s) (lengthCheck (s.withProfile p)) := by
  have ho : oversize (s.withProfile p).cfg (s.withProfile p).sq.len = oversize s.cfg s.sq.len := rfl
  unfold lengthCheck
  rw [ho]
  split <;> exact State.twins_of_kept s.radio rfl

theorem exec_command_twins {i : Instr} {s t : State} (p : Profile) (hi : isCommand i = true) (hb : s.sq.busy = false)
    (h : exec i s = .next t) : ∃ t', exec i (s.withProfile p) = .next t' ∧ State.twins p s.sq.profile t t' := by
  have hb' : (s.withProfile p).sq.busy = false := hb
  cases i with
  | disable | cfgStd | cfgLr =>
    cases h
    refine ⟨_, rfl, ?_⟩
    rw [accept_of_idle _ _ _ hb, accept_of_idle _ _ _ hb']
    exact State.twins_of_kept s.radio rfl
  | txp | txs =>
    cases h
    refine ⟨_, rfl, ?_⟩
    rw [acceptTx_of_idle _ _ _ hb, acceptTx_of_idle _ _ _ hb']
    exact State.twins_of_kept s.radio rfl
  | _ => cases hi

/-! #### Turns -/

theorem takeTurn_sequencer_withProfile {s u : State} (p : Profile) (h : takeTurn s = .sequencer u) :
    takeTurn (s.withProfile p) = .sequencer (u.withProfile p) := by
  unfold takeTurn at h ⊢
  rw [State.withProfile_turns]
  split at h <;> cases h <;> rfl

/-- The host's offer, whatever the profile; the profile is kept. -/
theorem hostOffers_twins (o : Offer) (data : List Byte) (ts : List Turn) (p : Profile) (s : State) :
    State.twins p s.sq.profile ((hostOffers o data s).withTurns ts)
      ((hostOffers o data (s.withProfile p)).withTurns ts) := by
  simp only [hostOffers, State.withProfile_host]
  split <;> exact State.twins_of_kept s.radio rfl

/-- The turn of another agent: the radio's may differ (R130), and the reset input writes `PROFILE` (R210). -/
theorem takeTurn_other_twins {s t : State} (p : Profile) (h : takeTurn s = .other t) :
    ∃ t', takeTurn (s.withProfile p) = .other t' ∧ State.twins p s.sq.profile t t' := by
  unfold takeTurn at h ⊢
  rw [State.withProfile_turns]
  cases hts : s.turns with
  | nil => simp only [hts] at h; cases h
  | cons turn ts =>
    simp only [hts] at h ⊢
    cases turn with
    | sequencer => cases h
    | radio a => cases h; exact ⟨_, rfl, State.twins_of_kept (radioTurn a (s.withProfile p)) rfl⟩
    | hostOffers o data => cases h; exact ⟨_, rfl, hostOffers_twins o data ts p s⟩
    | hostEditsOffered | hostEditsAccepted => cases h; exact ⟨_, rfl, State.twins_of_kept s.radio rfl⟩
    | reset => cases h; exact ⟨_, rfl, .none, s.radio, rfl, .inl rfl⟩

theorem issued_withProfile (s : State) (p : Profile) : issued (s.withProfile p) = issued s := by
  unfold issued
  cases ht : takeTurn s with
  | other v =>
    obtain ⟨v', hv', -⟩ := takeTurn_other_twins p ht
    simp only [hv']
  | sequencer u => simp only [takeTurn_sequencer_withProfile p ht, fetch_withProfile]

theorem traceEntry_withProfile (s : State) (p : Profile) : traceEntry (s.withProfile p) = traceEntry s := by
  simp only [traceEntry, issued_withProfile, backOf_withProfile]

/-- A step from two states that differ in `PROFILE` (R16, R130). -/
theorem step_twins {s t : State} (p : Profile) (h : step s = .next t) :
    ∃ t', step (s.withProfile p) = .next t' ∧ State.twins p s.sq.profile t t' := by
  unfold step at h
  cases ht : takeTurn s with
  | other v =>
    simp only [ht] at h
    cases h
    obtain ⟨t', ht', htw⟩ := takeTurn_other_twins p ht
    exact ⟨t', by simp only [step, ht'], htw⟩
  | sequencer u =>
    have hsq := (takeTurn_sequencer_keeps ht).2.2
    rw [← hsq]
    simp only [step, ht, takeTurn_sequencer_withProfile p ht, fetch_withProfile] at h ⊢
    cases hf : fetch u with
    | nothing | reserved =>
      simp only [hf] at h ⊢
      cases h
      exact ⟨_, rfl, State.twins_of_kept _ rfl⟩
    | command i =>
      simp only [hf] at h ⊢
      exact exec_command_twins p (fetch_command hf).2 (fetch_command hf).1 h
    | lengthCheck =>
      simp only [hf] at h ⊢
      cases h
      exact ⟨_, rfl, lengthCheck_twins p u⟩
    | noRow => simp only [hf] at h; cases h
    | micro i =>
      obtain ⟨-, r, hrow, ha⟩ := fetch_micro_iff.1 hf
      simp only [hf] at h ⊢
      cases he : exec i u with
      | fault | refused => simp only [he] at h; cases h
      | next v =>
        simp only [he] at h
        cases h
        obtain ⟨r', hr'⟩ := exec_micro_withProfile p (row_not_mover hrow ha) he
        simp only [hr']
        rw [← (exec_micro_keeps (row_not_mover hrow ha) he).1.2.1]
        exact ⟨_, rfl, advance_twins p r' v⟩

/-- Settles O35: the fetch and the port do not see `PROFILE`, and the states after the step are twins. -/
theorem sequencerNeverReadsProfile : Obligations.SequencerNeverReadsProfile := by
  rintro s s' p rfl
  change issued (s.withProfile p) = _ ∧ traceEntry (s.withProfile p) = _ ∧
    ∀ t, _ → ∃ t', step (s.withProfile p) = _ ∧ _
  refine ⟨issued_withProfile s p, traceEntry_withProfile s p, fun t h => ?_⟩
  obtain ⟨t', ht', p', r, rfl, hp⟩ := step_twins p h
  exact ⟨_, ht', rfl, rfl, rfl, rfl, hp⟩

end Sys2Proof.Machine
end

