-- ==== Sys2Proof/Proofs/Memory.lean ====
section
/-! SUPPORT. The memory family (20_memory.md R48, R49): what a transmit command has put in place by a step (`windowFrom`), which rows
write it (`rowBuildsWindow`), and that no row, no jump and no other agent's turn undoes it. -/

namespace Sys2Proof.Machine

/-! ### Who writes the radio's registers -/

/-- The instructions that write a register of the radio (R80, R101). -/
def writesRegister : Instr → Bool
  | .regwrPower _ | .regwrMode _ | .regwrPktlay0 _ | .regwrPktlay1 | .regwrCrccfg _ | .regwrCrcpoly
  | .regwrCrcseed | .regwrCcacfg | .regwrFreq _ | .regwrAddrbase | .regwrAddrprefix
  | .regwrTxpower _ | .regwrShorts _ | .regwrPktptr | .powerCycle => true
  | .disable | .cfgStd | .cfgLr | .txp _ _ | .txs _ _ | .regrdState
  | .taskTxen | .taskStart | .taskDisable | .taskRxen
  | .evrdTxready | .evrdPhyend | .evrdDisabled | .evclrTxready | .evclrPhyend | .evclrDisabled
  | .delayPowerOff | .delayPowerOn | .delayHoldCarrier | .delayShortsTx
  | .freqmap _ | .frame | .waitAck _ | .dis => false

/-- A trigger writes no register, whatever the radio makes of it (R82, R130, R171). -/
theorem trigger_regs (t : PortTask) (s : State) : (trigger t s).radio.regs = s.radio.regs := by
  cases hu : s.unconfiguredTx with
  | false =>
    rw [trigger_of_configured t hu]
    exact (Radio.react_keeps false (.port t) s.tick s.radio).1
  | true =>
    rw [trigger_of_unconfigured t hu]
    exact (Radio.unspecified_keeps s.tick s.radio).1

theorem exec_micro_keeps_regs {i : Instr} {s t : State} (hi : movesSequencer i = false) (hw : writesRegister i = false)
    (h : exec i s = .next t) : t.radio.regs = s.radio.regs := by
  cases i with
  | taskTxen | taskStart | taskDisable | taskRxen => cases h; exact trigger_regs _ s
  | freqmap f =>
    simp only [exec, execFreqmap] at h
    split at h <;> cases h
    rfl
  | frame => obtain ⟨m, -, rfl⟩ := execFrame_next h; rfl
  | regrdState | evrdTxready | evrdPhyend | evrdDisabled | evclrTxready | evclrPhyend | evclrDisabled
  | delayPowerOff | delayPowerOn | delayHoldCarrier | delayShortsTx => cases h; rfl
  | disable | cfgStd | cfgLr | txp | txs | waitAck | dis => cases hi
  | _ => cases hw

/-- A frame build puts the length byte at index 0 (R65, R120). -/
theorem execFrame_lengthByte {s t : State} (h : execFrame s = .next t) :
    t.txbuf.read 0 = some (lengthByte s.sq.len) := by
  obtain ⟨m, hm, rfl⟩ := execFrame_next h
  simp [Memory.read_writeBytes _ _ _ _ _ hm, frameBytes]

/-! ### What stands by a step -/

/-- The shortcut set a transmit command writes (R122, R126). -/
def shortsImageOf (c : Cmd) : ShortsImage := if c = .txp then .empty else .chain

/-- What a transmit command has in place when `STEP` reaches `n`. -/
def State.windowFrom (n : Nat) (s : State) : Prop :=
  (6 ≤ n → s.txbuf.read 0 = some (lengthByte s.sq.len)) ∧
  (7 ≤ n → s.radio.regs.pktptr = s.cfg.txbufAddr) ∧
  (8 ≤ n → s.radio.regs.shorts = shortsOf (shortsImageOf s.sq.cmd))

theorem State.windowAt_iff (s : State) :
    s.windowAt ↔ (s.sq.busy = true → s.sq.cmd.isTx = true → s.windowFrom s.sq.step) := by
  have himg : shortsOf (shortsImageOf s.sq.cmd) = if s.sq.cmd = .txp then [] else shortsChain := by
    unfold shortsImageOf
    split <;> rfl
  simp only [State.windowAt, State.windowFrom, himg]

theorem State.windowAt_of_idle {s : State} (h : s.sq.busy = false) : s.windowAt :=
  s.windowAt_iff.2 fun hb => by simp [h] at hb

theorem State.windowFrom_of_le_five {s : State} {n : Nat} (h : n ≤ 5) : s.windowFrom n :=
  ⟨by omega, by omega, by omega⟩

theorem State.windowAt_of_le_five {s : State} (h : s.sq.step ≤ 5) : s.windowAt :=
  s.windowAt_iff.2 fun _ _ => windowFrom_of_le_five h

/-- The window grows with `STEP`, and from step 8 on it is complete. -/
theorem State.windowFrom.mono {s : State} {m n : Nat} (h : s.windowFrom n) (hm : m ≤ n ∨ 8 ≤ n) : s.windowFrom m := by
  obtain ⟨hlen, hptr, hshorts⟩ := h
  exact ⟨fun _ => hlen (by omega), fun _ => hptr (by omega), fun _ => hshorts (by omega)⟩

/-- The window reads the parameters, `TXBUF`, the sequencer and the radio's registers only. -/
theorem State.windowFrom.congr {s t : State} {n : Nat} (h : s.windowFrom n) (hc : t.cfg = s.cfg) (hq : t.sq = s.sq)
    (hm : t.txbuf = s.txbuf) (hr : t.radio.regs = s.radio.regs) : t.windowFrom n := by
  rw [State.windowFrom, hc, hq, hm, hr]; exact h

theorem State.windowAt.congr {s t : State} (h : s.windowAt) (hc : t.cfg = s.cfg) (hq : t.sq = s.sq)
    (hm : t.txbuf = s.txbuf) (hr : t.radio.regs = s.radio.regs) : t.windowAt := by
  rw [State.windowAt_iff, hq]
  exact fun hb hx => (s.windowAt_iff.1 h hb hx).congr hc hq hm hr

/-! ### The transmit tables, checked as data -/

/-- Step 5 builds the frame, step 6 writes `PKTPTR`, step 7 writes `SHORTS`, and nothing else writes a register (R122, R126). -/
def rowBuildsWindow (c : Cmd) (n : Nat) (r : Row) : Bool :=
  match r.act with
  | .lengthCheck => true
  | .run .frame => decide (n = 5)
  | .run .regwrPktptr => decide (n = 6)
  | .run (.regwrShorts img) => decide (n = 7 ∧ img = shortsImageOf c)
  | .run i => !writesRegister i && decide (n ≤ 4 ∨ 8 ≤ n)

/-- The targets that a row's "next" column names. -/
def Next.targets : Next → List Target
  | .go k => [k]
  | .ifDisabled yes no | .ifSet yes no | .ifHold yes no => [yes, no]

/-- A target passes over no row that builds the window: it is at most the next step, or at most the frame build's, or every such row is
behind. -/
def targetInWindow (n : Nat) : Target → Bool
  | .step m => decide (m ≤ n + 1 ∨ m ≤ 5 ∨ 7 ≤ n)
  | .done => true

theorem program_rows_window (c : Cmd) (hc : c.isTx = true) :
    ((List.range 19).all fun n =>
      (rowAt c n).all fun r => rowBuildsWindow c n r && r.next.targets.all (targetInWindow n)) = true := by
  cases c with
  | txp | txs => rfl
  | disable | cfgStd | cfgLr => cases hc

theorem rowAt_window {c : Cmd} {n : Nat} {r : Row} (hc : c.isTx = true) (h : rowAt c n = some r) :
    rowBuildsWindow c n r = true ∧ ∀ k ∈ r.next.targets, targetInWindow n k = true := by
  have hn : n ∈ List.range 19 := List.mem_range.2 (Nat.lt_of_lt_of_le (rowAt_lt h) (program_length_le c))
  simpa [h] using List.all_eq_true.1 (program_rows_window c hc) n hn

theorem Next.target_mem {x : Next} {v : State} {k : Target} (h : x.target v = some k) : k ∈ x.targets := by
  cases x with
  | go => cases h; simp [Next.targets]
  | ifDisabled | ifHold =>
    cases h
    simp only [Next.targets]
    split <;> simp
  | ifSet =>
    simp only [Next.target] at h
    split at h <;> cases h
    simp [Next.targets]

/-! ### O49: the step -/

/-- A row's instruction adds to the window what its step has to add, and takes nothing from it. -/
theorem run_row_windowFrom {s t : State} {r : Row} {i : Instr} (htx : s.sq.cmd.isTx = true)
    (hr : rowAt s.sq.cmd s.sq.step = some r) (ha : r.act = .run i) (he : exec i s = .next t)
    (hw : s.windowFrom s.sq.step) : t.windowFrom (s.sq.step + 1) := by
  have hrow := (rowAt_window htx hr).1
  have hi := row_not_mover hr ha
  obtain ⟨⟨hc, hq, -, -, -⟩, hm⟩ := exec_micro_keeps hi he
  simp only [rowBuildsWindow, ha] at hrow
  have ⟨hlen, hptr, _⟩ := hw
  split at hrow
  · next hx => cases hx
  · next hx =>
    cases hx
    have hn := of_decide_eq_true hrow
    exact ⟨fun _ => hq ▸ execFrame_lengthByte he, by omega, by omega⟩
  · next hx =>
    cases hx; cases he
    have hn := of_decide_eq_true hrow
    exact ⟨fun _ => hlen (by omega), fun _ => rfl, by omega⟩
  · next img hx =>
    cases hx; cases he
    obtain ⟨hn, rfl⟩ := of_decide_eq_true hrow
    exact ⟨fun _ => hlen (by omega), fun _ => hptr (by omega), fun _ => rfl⟩
  · next hframe _ _ hx =>
    cases hx
    simp only [Bool.and_eq_true, Bool.not_eq_true', decide_eq_true_eq] at hrow
    obtain ⟨hreg, hn | hn⟩ := hrow
    · exact State.windowFrom_of_le_five (by omega)
    · have hkept := hw.congr hc hq (hm hframe) (exec_micro_keeps_regs hi hreg he)
      exact hkept.mono (.inr hn)

/-- The rest of a sequencer step: along the table, or a poll missed; `STEP` gets past no row that builds the window. -/
theorem advance_windowAt {v : State} {r : Row} (hr : rowAt v.sq.cmd v.sq.step = some r)
    (hw : v.sq.cmd.isTx = true → v.windowFrom (v.sq.step + 1)) : (advance v).windowAt := by
  rw [advance_eq_target hr]
  cases hk : r.next.target v with
  | none =>
    change (pollMissed v.seqMoved).windowAt
    obtain ⟨-, he⟩ | ⟨-, he⟩ | ⟨n, -, -, he⟩ := pollMissed_cases v.seqMoved <;> rw [he]
    · exact (State.windowAt_iff _).2 fun _ htx => (hw htx).mono (.inl (Nat.le_succ _))
    · exact State.windowAt_of_idle rfl
    · exact (State.windowAt_iff _).2 fun _ htx => (hw htx).mono (.inl (Nat.le_succ _))
  | some k =>
    cases k with
    | done => exact State.windowAt_of_idle rfl
    | step m =>
      refine (State.windowAt_iff _).2 fun _ htx => ?_
      change v.sq.cmd.isTx = true at htx
      change v.windowFrom m
      obtain hle | hle | hle := of_decide_eq_true ((rowAt_window htx hr).2 _ (Next.target_mem hk))
      · exact (hw htx).mono (.inl hle)
      · exact State.windowFrom_of_le_five hle
      · exact (hw htx).mono (.inr (Nat.succ_le_succ hle))

/-- The turns of the host and the radio; the reset input's ends the command (R35, R53, R210). -/
theorem takeTurn_other_windowAt {s t : State} (h : takeTurn s = .other t) (hw : s.windowAt) : t.windowAt := by
  obtain ⟨a, ts, -, rfl⟩ | ⟨hs, ts, -, rfl, -, -⟩ | ⟨ts, -, rfl⟩ := takeTurn_other h
  · exact hw.congr rfl rfl rfl (radioTurn_keeps a s).1
  · exact hw.congr rfl rfl rfl rfl
  · exact State.windowAt_of_idle rfl

theorem lengthCheck_windowAt (s : State) : (lengthCheck s).windowAt := by
  unfold lengthCheck
  split
  · exact State.windowAt_of_idle rfl
  · exact State.windowAt_of_le_five (Nat.le_add_left 1 4)

/-- Settles O49: over what a step can be. Acceptance and the length check stand before the window; a row builds its part of it and
the "next" column leads past no part unbuilt. The invariant itself is not needed. -/
theorem windowIsStable : Obligations.WindowIsStable := by
  intro s t _ hw h
  obtain ho | ⟨u, hu, hcase⟩ := step_cases h
  · exact takeTurn_other_windowAt ho hw
  · have huw : u.windowAt := by rw [(takeTurn_sequencer hu).1]; exact hw
    obtain ⟨-, -, rfl⟩ | ⟨o, e, -, -, -, rfl⟩ | ⟨o, i, hb, -, hd, he⟩ | ⟨r, -, -, -, rfl⟩ |
      ⟨r, i, v, hb, hr, ha, he, rfl⟩ := hcase
    · exact huw
    · exact State.windowAt_of_idle rfl
    · obtain ⟨c, l, len, host, -, hx⟩ := exec_command_accepts (decodeCommand_isCommand hd) hb
      cases hx.symm.trans he
      exact State.windowAt_of_le_five (Nat.zero_le 5)
    · exact lengthCheck_windowAt u
    · obtain ⟨⟨-, hq, -, -, -⟩, -⟩ := exec_micro_keeps (row_not_mover hr ha) he
      refine advance_windowAt (by rwa [hq]) fun htx => ?_
      rw [hq] at htx ⊢
      exact run_row_windowFrom htx hr ha he (u.windowAt_iff.1 huw hb htx)

end Sys2Proof.Machine
end

