-- ==== Sys2Proof/Proofs/Encoding.lean ====
section
/-! SUPPORT. The encoding family (30_encoding.md R60 to R70; R100 for the frequency pair): a word is its fields
(`commandWord_of_fields`, `eq_microWord`), what the register port's decoder makes of a word is said once (`decodeMicro_reading`), and the
words of each port are a list (`portWords`). Then what the sequencer fetches and runs, and what acceptance writes. -/

namespace Sys2Proof.Machine

/-! ### Words and their fields -/

/-- A one-bit field, as a `Bool`. -/
theorem field_bit (w : Byte) (n : Nat) : field w n 1 = (field w n 1 == 1).toNat := by
  obtain h | h := Nat.mod_two_eq_zero_or_one (w.toNat / 2 ^ n) <;> simp [field, h]

theorem field_bit_of_ne_zero {w : Byte} {n : Nat} (h : field w n 1 = 0 → False) : field w n 1 = 1 :=
  (Nat.mod_two_eq_zero_or_one (w.toNat / 2 ^ n)).resolve_left h

/-- A command word with `cmd[7:5] = 0` is made of its fields (R60). -/
theorem commandWord_of_fields {cmd : Byte} (m a : Bool) {op : Nat} (hres : field cmd 5 3 = 0)
    (hop : field cmd 0 3 = op) (hm : field cmd 4 1 = m.toNat) (ha : field cmd 3 1 = a.toNat) :
    commandWord m a op = cmd := by
  apply BitVec.eq_of_toNat_eq
  simp only [field, Nat.reducePow] at hres hop hm ha
  simp only [commandWord, BitVec.toNat_ofNat, Nat.reducePow]
  omega

/-- A micro-operation word is made of its two fields (R62). -/
theorem eq_microWord (uop : Byte) : uop = microWord (field uop 5 3) (field uop 0 5) := by
  apply BitVec.eq_of_toNat_eq
  simp only [field, microWord, BitVec.toNat_ofNat, Nat.reducePow]
  omega

/-! ### O1: the command port -/

theorem Wire.canonical_of_tx {cmd : Byte} (len : Half) (h : field cmd 0 3 = 2) :
    (⟨.command, cmd, len⟩ : Wire).canonical = ⟨.command, cmd, len⟩ := by
  simp [Wire.canonical, h]

theorem Wire.canonical_of_not_tx {cmd : Byte} (len : Half) (h : field cmd 0 3 ≠ 2) :
    (⟨.command, cmd, len⟩ : Wire).canonical = ⟨.command, cmd, 0⟩ := by
  simp [Wire.canonical, h]

/-- Along the decoder's patterns; each fixes the fields, and the fields fix the word (R60). -/
theorem encode_of_decodeCommand {cmd : Byte} {len : Half} {i : Instr} (h : decodeCommand cmd len = .ok i) :
    encode i = some (Wire.canonical ⟨.command, cmd, len⟩) := by
  unfold decodeCommand at h
  split at h
  · cases h
  next hres =>
    have hres := Decidable.of_not_not hres
    split at h <;> cases h
    case h_1 hop hm ha | h_3 hop hm ha =>
      rw [Wire.canonical_of_not_tx len (by omega)]
      simp only [encode, commandWord_of_fields false false hres hop hm ha]
    case h_4 hop hm ha =>
      rw [Wire.canonical_of_not_tx len (by omega)]
      simp only [encode, commandWord_of_fields false true hres hop hm (field_bit_of_ne_zero ha)]
    case h_6 hop hm =>
      rw [Wire.canonical_of_tx len hop]
      simp only [encode, commandWord_of_fields false _ hres hop hm (field_bit cmd 3)]
    case h_7 hop hm =>
      rw [Wire.canonical_of_tx len hop]
      simp only [encode, commandWord_of_fields true _ hres hop (field_bit_of_ne_zero hm) (field_bit cmd 3)]

/-! ### O1: the register port -/

theorem onlyImage_ok {n : Half} {i j : Instr} (h : onlyImage n i = .ok j) : n = 0 ∧ i = j := by
  unfold onlyImage at h
  split at h <;> cases h
  exact ⟨‹_›, rfl⟩

theorem imageOfTwo_ok {n : Half} {i j k : Instr} (h : imageOfTwo n i j = .ok k) : n = 0 ∧ i = k ∨ n = 1 ∧ j = k := by
  unfold imageOfTwo at h
  split at h
  · cases h; exact .inl ⟨‹_›, rfl⟩
  · split at h <;> cases h
    exact .inr ⟨‹_›, rfl⟩

/-- Everything the register port's decoder can make of a word: it is never issued, or it is the word of a register's one image, or of
its two (R63, R64, R70). -/
inductive MicroReading (uop : Byte) (img : Half) : Except DecodeError Instr → Prop where
  | neverIssued : MicroReading uop img (.error .neverIssued)
  | one {i : Instr} (hi : encode i = some ⟨.micro, uop, 0⟩) : MicroReading uop img (onlyImage img i)
  | two {i j : Instr} (hi : encode i = some ⟨.micro, uop, 0⟩) (hj : encode j = some ⟨.micro, uop, 1⟩) :
      MicroReading uop img (imageOfTwo img i j)

theorem decodeRegwr_reading (img : Half) : ∀ sel, MicroReading (microWord 0 sel) img (decodeRegwr sel img)
  | 0 | 1 | 3 | 5 | 9 | 12 | 13 => .two rfl rfl
  | 4 | 6 | 7 | 8 | 10 | 11 | 14 => .one rfl
  | 2 | _ + 15 => .neverIssued

theorem decodeMicro_reading (uop : Byte) (img : Half) : MicroReading uop img (decodeMicro uop img) := by
  have hword := eq_microWord uop
  unfold decodeMicro
  generalize field uop 5 3 = kind at hword ⊢
  generalize field uop 0 5 = sel at hword ⊢
  subst hword
  split
  case h_1 => exact decodeRegwr_reading img _
  case h_17 => exact .neverIssued
  all_goals exact .one rfl

theorem encode_of_decodeMicro {uop : Byte} {img : Half} {i : Instr} (h : decodeMicro uop img = .ok i) :
    encode i = some ⟨.micro, uop, img⟩ := by
  have hread := decodeMicro_reading uop img
  generalize hd : decodeMicro uop img = d at hread h
  cases hread with
  | neverIssued => cases h
  | one hi =>
    obtain ⟨rfl, rfl⟩ := onlyImage_ok h
    exact hi
  | two hi hj =>
    obtain ⟨rfl, rfl⟩ | ⟨rfl, rfl⟩ := imageOfTwo_ok h
    · exact hi
    · exact hj

/-! ### O1: both ports -/

theorem decode_of_encode {i : Instr} {w : Wire} (h : encode i = some w) : decode w = .ok i := by
  cases i with
  | txp hold len | txs hold len => cases h; cases hold <;> simp [decode, decodeCommand, commandWord, field]
  | regwrPower img | regwrMode img | regwrPktlay0 img | regwrCrccfg img | regwrFreq img | regwrTxpower img
  | regwrShorts img => cases img <;> (cases h; rfl)
  | freqmap | frame | waitAck | powerCycle | dis => cases h
  | _ => cases h; rfl

theorem encode_of_decode {w : Wire} {i : Instr} (h : decode w = .ok i) : encode i = some w.canonical := by
  obtain ⟨port, word, operand⟩ := w
  cases port with
  | command => exact encode_of_decodeCommand h
  | micro => exact encode_of_decodeMicro h

/-- Settles O1: by the instruction one way, by the decoder's patterns the other. -/
theorem decodeAndEncodeAgree : Obligations.DecodeAndEncodeAgree :=
  ⟨fun _ _ h => decode_of_encode h, fun _ _ h => encode_of_decode h⟩

/-! ### O2 -/

/-- Settles O2: each word is evaluated. -/
theorem wordsOfTheSpecDecode : Obligations.WordsOfTheSpecDecode :=
  ⟨rfl, rfl, rfl, rfl, rfl, rfl, rfl, rfl, rfl, rfl⟩

/-! ### The words of each port -/

/-- The words that are instructions: the seven commands (R69), the twenty-nine micro-operations (R70). -/
def portWords : Port → List Nat
  | .command => [0x00, 0x01, 0x02, 0x09, 0x0A, 0x12, 0x1A]
  | .micro =>
    [0x00, 0x01, 0x03, 0x04, 0x05, 0x06, 0x07, 0x08, 0x09, 0x0A, 0x0B, 0x0C, 0x0D, 0x0E, 0x2F,
     0x40, 0x41, 0x42, 0x43, 0x60, 0x61, 0x62, 0x80, 0x81, 0x82, 0xA0, 0xA1, 0xA2, 0xA3]

theorem encode_word_mem {i : Instr} {w : Wire} (h : encode i = some w) : w.word.toNat ∈ portWords w.port := by
  cases i with
  | txp hold len | txs hold len => cases h; cases hold <;> simp [portWords, commandWord]
  | freqmap | frame | waitAck | powerCycle | dis => cases h
  | _ => cases h; simp [portWords, commandWord, microWire, microWord]

theorem encode_port {i : Instr} {w : Wire} (h : encode i = some w) :
    w.port = if isCommand i then .command else .micro := by
  cases i with
  | freqmap | frame | waitAck | powerCycle | dis => cases h
  | _ => cases h; rfl

/-! ### What the sequencer fetches (R60, R87) -/

theorem fetch_of_no_offer {s : State} (hb : s.sq.busy = false) (ho : s.host.offer = none) : fetch s = .nothing := by
  simp [fetch, hb, ho]

theorem fetch_of_offer_ok {s : State} {o : Offer} {i : Instr} (hb : s.sq.busy = false) (ho : s.host.offer = some o)
    (hd : decode ⟨.command, o.cmd, o.len⟩ = .ok i) : fetch s = .command i := by
  simp [fetch, hb, ho, hd]

theorem fetch_of_offer_error {s : State} {o : Offer} {e : DecodeError} (hb : s.sq.busy = false)
    (ho : s.host.offer = some o) (hd : decode ⟨.command, o.cmd, o.len⟩ = .error e) : fetch s = .reserved := by
  simp [fetch, hb, ho, hd]

theorem fetch_of_lengthCheck_row {s : State} {r : Row} (hb : s.sq.busy = true)
    (hr : rowAt s.sq.cmd s.sq.step = some r) (ha : r.act = .lengthCheck) : fetch s = .lengthCheck := by
  simp [fetch, hb, hr, ha]

/-! ### O3 -/

/-- R69: the legal command words are exactly the seven. -/
theorem decode_command_ok_iff (cmd : Byte) (len : Half) :
    (∃ i, decode ⟨.command, cmd, len⟩ = .ok i) ↔ cmd.toNat ∈ portWords .command := by
  refine ⟨fun ⟨i, hi⟩ => ?_, decodeCommand_ok_of_mem len⟩
  have hw := encode_of_decode hi
  by_cases hop : field cmd 0 3 = 2
  · rw [Wire.canonical_of_tx len hop] at hw
    exact encode_word_mem hw
  · rw [Wire.canonical_of_not_tx len hop] at hw
    exact encode_word_mem hw

/-- A rejection between commands writes `RESULT` only: `BUSY` and `STEP` are 0 as they were (R13, R188). -/
theorem rejectBadCommand_of_rest {s : State} (hb : s.sq.busy = false) (h0 : s.sq.step = 0) :
    rejectBadCommand s =
      { s with sq := { s.sq with result := .rejectedBadcmd }, host := { s.host with offer := none } } := by
  simp only [rejectBadCommand, raiseReject, State.withSq, State.withHost, hb, h0]

/-- Settles O3: the words that decode are words that some instruction encodes to, and a word that does not is fetched as reserved. -/
theorem reservedCommandWordsAreRejected : Obligations.ReservedCommandWordsAreRejected := by
  refine ⟨decode_command_ok_iff, fun s t cmd len ht hb h0 ho hres => ?_⟩
  have hf : fetch t = .reserved := by
    cases hd : decode ⟨.command, cmd, len⟩ with
    | ok i => exact absurd ((decode_command_ok_iff cmd len).1 ⟨i, hd⟩) hres
    | error e => exact fetch_of_offer_error hb ho hd
  refine ⟨by simp only [traceEntry, issued, ht, hf], ?_⟩
  simp only [step, ht, hf, rejectBadCommand_of_rest hb h0]

/-! ### O4 -/

theorem isCommand_of_not_mover {i : Instr} (h : movesSequencer i = false) : isCommand i = false := by
  cases i with
  | disable | cfgStd | cfgLr | txp | txs => cases h
  | _ => rfl

/-- What the port shows is a row's micro-operation, never a command (R87). -/
theorem issued_not_command {s : State} {i : Instr} (h : issued s = some i) : isCommand i = false := by
  unfold issued at h
  split at h
  · cases h
  next u _ =>
    split at h <;> cases h
    next hf =>
      obtain ⟨-, r, hr, ha⟩ := fetch_micro_iff.1 hf
      exact isCommand_of_not_mover (row_not_mover hr ha)

theorem traceEntry_word_mem {s : State} {e : TraceEntry} (h : traceEntry s = some e) :
    e.word.toNat ∈ portWords .micro := by
  unfold traceEntry at h
  split at h
  · cases h
  next i hi =>
    split at h <;> cases h
    next w hw =>
      have hport : w.port = .micro := by simpa [issued_not_command hi] using encode_port hw
      exact hport ▸ encode_word_mem hw

theorem traceOf_word_mem {n : Nat} {s : State} {e : TraceEntry} (h : e ∈ traceOf n s) :
    e.word.toNat ∈ portWords .micro := by
  induction n generalizing s with
  | zero => cases h
  | succ n ih =>
    obtain h | h := List.mem_append.1 h
    · exact traceEntry_word_mem (Option.mem_toList.1 h)
    · split at h
      · exact ih h
      · cases h
      · cases h

/-- Settles O4: a trace word encodes a row's instruction; a word that the decoder reads as an image is some instruction's. -/
theorem tracesHoldOnlyIssuedWords : Obligations.TracesHoldOnlyIssuedWords := by
  refine ⟨fun n s e he => traceOf_word_mem he, fun word img hw => ?_⟩
  have hread := decodeMicro_reading word img
  change decodeMicro word img = _
  generalize decodeMicro word img = d at hread ⊢
  cases hread with
  | neverIssued => rfl
  | one hi | two hi => exact absurd (encode_word_mem hi) hw

/-! ### O5 -/

/-- Settles O5: a step is the fetch's case. -/
theorem stepRunsTheFetchedInstruction : Obligations.StepRunsTheFetchedInstruction := by
  refine fun s t ht => ⟨fun o i hb ho hd => ?_, fun hb ho => ?_, fun r i hb hr ha => ?_, fun r hb hr ha => ?_⟩
  · simp only [step, ht, fetch_of_offer_ok hb ho hd]
  · simp only [step, ht, fetch_of_no_offer hb ho]
  · have hf := fetch_micro_iff.2 ⟨hb, r, hr, ha⟩
    refine ⟨fun u he => ?_, fun f he => ?_, fun q he => ?_⟩ <;> simp only [step, ht, hf, he]
  · simp only [step, ht, fetch_of_lengthCheck_row hb hr ha]

/-! ### O6 -/

/-- The step that a micro-operation is placed at runs it. -/
theorem siteOf_row {i : Instr} {c : Cmd} {n : Nat} (h : siteOf i = some (c, n)) :
    ∃ r, rowAt c n = some r ∧ r.act = .run i := by
  unfold siteOf at h
  have hfound := List.find?_some h
  simpa [Option.map_eq_some_iff] using hfound

/-- Every micro-operation with a word stands in some micro-program (R87). -/
theorem siteOf_ne_none {i : Instr} {w : Wire} (hw : encode i = some w) (hc : isCommand i = false) : siteOf i ≠ none := by
  cases i with
  | disable | cfgStd | cfgLr | txp | txs => cases hc
  | freqmap | frame | waitAck | powerCycle | dis => cases hw
  | regwrPower img | regwrMode img | regwrPktlay0 img | regwrCrccfg img | regwrFreq img | regwrTxpower img
  | regwrShorts img => cases img <;> decide
  | _ => decide

/-- A table word is a command, or the register port's word of a micro-operation (log entry 6). -/
theorem decodeTableWord_cases {nbits w : Nat} {i : Instr} (h : decodeTableWord nbits w = some i) :
    decode (tableWire .command nbits w) = .ok i ∨ decode (tableWire .micro nbits w) = .ok i := by
  unfold decodeTableWord at h
  split at h
  · cases h; exact .inl ‹_›
  · split at h <;> cases h
    exact .inr ‹_›

/-- Settles O6: a word with a step that issues it is placed at that step; a word without one is a command, placed at the port. -/
theorem placedWordRunsNext : Obligations.PlacedWordRunsNext := by
  intro s nbits w i hi
  cases hsite : siteOf i with
  | some site =>
    obtain ⟨c, n⟩ := site
    obtain ⟨r, hr, ha⟩ := siteOf_row hsite
    refine ⟨{ s with sq := { s.sq with busy := true, cmd := c, step := n } }, ?_, .inr (fetch_micro_iff.2 ⟨rfl, r, hr, ha⟩)⟩
    simp only [State.withFetchWord, placeWord, hi, Option.bind_some, hsite]
    rfl
  | none =>
    have hd : decode (tableWire .command nbits w) = .ok i := by
      obtain hd | hd := decodeTableWord_cases hi
      · exact hd
      · have hw := encode_of_decode hd
        have hc : isCommand i = false := by simpa [tableWire, Wire.canonical] using encode_port hw
        exact absurd hsite (siteOf_ne_none hw hc)
    refine ⟨{ s with
      sq := { s.sq with busy := false }
      host := { s.host with offer := some ⟨(tableWire .command nbits w).word, (tableWire .command nbits w).operand⟩ } },
      ?_, .inl (fetch_of_offer_ok rfl rfl hd)⟩
    simp only [State.withFetchWord, placeWord, hi, Option.bind_some, hsite]
    rfl

/-! ### O7, O8: acceptance, and a command in progress -/

/-- Settles O7: `accept` and `acceptTx` at rest. -/
theorem commandsAreAccepted : Obligations.CommandsAreAccepted := fun _ hb =>
  ⟨congrArg Host.Outcome.next (accept_of_idle .disable false 0 hb),
    congrArg Host.Outcome.next (accept_of_idle .cfgStd false 0 hb),
    congrArg Host.Outcome.next (accept_of_idle .cfgLr false 0 hb),
    fun h len => congrArg Host.Outcome.next (acceptTx_of_idle .txp h len hb),
    fun h len => congrArg Host.Outcome.next (acceptTx_of_idle .txs h len hb)⟩

theorem accept_of_busy (c : Cmd) (h : Bool) (len : Half) {s : State} (hb : s.sq.busy = true) : accept c h len s = s := by
  simp [accept, hb]

theorem acceptTx_of_busy (c : Cmd) (h : Bool) (len : Half) {s : State} (hb : s.sq.busy = true) :
    acceptTx c h len s = s := by
  simp [acceptTx, hb]

/-- What acceptance latched is as it was (R12). -/
def Sequencer.sameOperands (q q' : Sequencer) : Prop := q'.cmd = q.cmd ∧ q'.hold = q.hold ∧ q'.len = q.len

theorem lengthCheck_sameOperands (s : State) : s.sq.sameOperands (lengthCheck s).sq := by
  unfold lengthCheck
  split <;> exact ⟨rfl, rfl, rfl⟩

theorem advance_sameOperands {v : State} {r : Row} (hr : rowAt v.sq.cmd v.sq.step = some r) :
    v.sq.sameOperands (advance v).sq := by
  rw [advance_eq_target hr]
  cases r.next.target v with
  | none =>
    change v.sq.sameOperands (pollMissed v.seqMoved).sq
    obtain ⟨-, he⟩ | ⟨-, he⟩ | ⟨n, -, -, he⟩ := pollMissed_cases v.seqMoved <;> rw [he] <;> exact ⟨rfl, rfl, rfl⟩
  | some k => cases k <;> exact ⟨rfl, rfl, rfl⟩

/-- With a command in progress the sequencer's turn keeps its operands and the host's side (R12, R60). -/
theorem step_busy_sequencer {s t : State} (hb : s.sq.busy = true) (hst : step s = .next t) :
    takeTurn s = .other t ∨ (s.sq.sameOperands t.sq ∧ t.host = s.host) := by
  obtain ho | ⟨u, hu, hcase⟩ := step_cases hst
  · exact .inl ho
  · have hsq := (takeTurn_sequencer_keeps hu).2.2
    have hhost : u.host = s.host := by rw [(takeTurn_sequencer hu).1]; rfl
    rw [← hsq] at hb ⊢
    rw [← hhost]
    refine .inr ?_
    obtain ⟨hidle, -⟩ | ⟨o, e, hidle, -⟩ | ⟨o, i, hidle, -⟩ | ⟨r, -, -, -, rfl⟩ | ⟨r, i, v, -, hr, ha, he, rfl⟩ := hcase
    · simp [hb] at hidle
    · simp [hb] at hidle
    · simp [hb] at hidle
    · exact ⟨lengthCheck_sameOperands u, by rw [lengthCheck_keeps]; rfl⟩
    · obtain ⟨⟨-, hvsq, hvhost, -, -⟩, -⟩ := exec_micro_keeps (row_not_mover hr ha) he
      rw [← hvsq] at hr ⊢
      exact ⟨advance_sameOperands hr, by rw [advance_keeps]; exact hvhost⟩

/-- The other agents' turns keep an offer that the host holds (R60). -/
theorem takeTurn_other_offer {s t : State} (h : takeTurn s = .other t) (ho : s.host.offer ≠ none) :
    t.host.offer = s.host.offer := by
  obtain ⟨a, ts, -, rfl⟩ | ⟨hs, ts, hkept, rfl, -, -⟩ | ⟨ts, -, rfl⟩ := takeTurn_other h
  · rfl
  · exact hkept ho
  · rfl

/-- Settles O8: acceptance asks for `BUSY = 0`, and no step from `BUSY = 1` but the reset input's writes what it latched. -/
theorem commandInProgressIsNotDisturbed : Obligations.CommandInProgressIsNotDisturbed := by
  refine ⟨fun s i hb hi => ?_, fun s t hb hn hst => ?_⟩
  · obtain rfl | rfl | rfl | ⟨h, len, rfl⟩ | ⟨h, len, rfl⟩ := hi
    · exact congrArg Host.Outcome.next (accept_of_busy _ _ _ hb)
    · exact congrArg Host.Outcome.next (accept_of_busy _ _ _ hb)
    · exact congrArg Host.Outcome.next (accept_of_busy _ _ _ hb)
    · exact congrArg Host.Outcome.next (acceptTx_of_busy _ _ _ hb)
    · exact congrArg Host.Outcome.next (acceptTx_of_busy _ _ _ hb)
  · obtain ho | ⟨⟨hc, hh, hl⟩, hhost⟩ := step_busy_sequencer hb hst
    · rw [(takeTurn_other_keeps_of_not_reset ho hn).1]
      exact ⟨rfl, rfl, rfl, takeTurn_other_offer ho⟩
    · exact ⟨hc, hh, hl, fun _ => by rw [hhost]⟩

/-! ### O13 -/

theorem freqMap_of_low {p : Params} {f : Nat} (hd : p.inFreqDomain f = true) (hf : f < 2400) :
    freqMap p f = some (f - 2360, true) := by
  simp [freqMap, hd, hf]

theorem freqMap_of_high {p : Params} {f : Nat} (hd : p.inFreqDomain f = true) (hf : 2400 ≤ f) :
    freqMap p f = some (f - 2400, false) := by
  simp [freqMap, hd, Nat.not_lt.2 hf]

theorem freqMap_of_outside {p : Params} {f : Nat} (hd : p.inFreqDomain f = false) : freqMap p f = none := by
  simp [freqMap, hd]

/-- R5 puts both profiles' frequencies in the domain of R100. -/
theorem profileMhz_inFreqDomain {p : Params} (h : p.wf = true) (sel : ProfileSel) :
    p.inFreqDomain (profileMhz p sel) = true := by
  obtain ⟨v, b, hv⟩ := freqMap_profile h sel
  cases hd : p.inFreqDomain (profileMhz p sel) with
  | true => rfl
  | false => cases (freqMap_of_outside hd).symm.trans hv

theorem fLrMhz_low {p : Params} (h : p.wf = true) : p.fLrMhz < 2400 := by
  simp only [Params.wf, Bool.and_eq_true, decide_eq_true_eq] at h
  omega

theorem execRegwrFreq_of_pair {s : State} {img : ProfileSel} {v : Nat} {b : Bool} (hdis : s.radio.rstate = .disabled)
    (hv : freqMap s.cfg (profileMhz s.cfg img) = some (v, b)) :
    exec (.regwrFreq img) s = .next
      { s with
        radio := { s.radio with regs := { s.radio.regs with freqValue := v, freqBand := b } }
        tick := s.tick + 1 } := by
  simp only [exec, execRegwrFreq, hv, configWrite, if_pos hdis]
  rfl

theorem execRegwrFreq_of_outside {s : State} {img : ProfileSel}
    (hd : s.cfg.inFreqDomain (profileMhz s.cfg img) = false) :
    exec (.regwrFreq img) s = .refused .frequencyOutsideDomain := by
  simp only [exec, execRegwrFreq, freqMap_of_outside hd]

/-- Settles O13: by the band of the profile's frequency, which R5 keeps in the domain. -/
theorem frequencyRegisterIsWritten : Obligations.FrequencyRegisterIsWritten := by
  refine fun s hdis => ⟨fun hwf hlow => ?_, fun hwf hhigh => ?_, fun hwf => ?_, fun hd => ?_, fun hd => ?_⟩
  · exact execRegwrFreq_of_pair hdis (freqMap_of_low (profileMhz_inFreqDomain hwf .std) hlow)
  · exact execRegwrFreq_of_pair hdis (freqMap_of_high (profileMhz_inFreqDomain hwf .std) hhigh)
  · exact execRegwrFreq_of_pair hdis (freqMap_of_low (profileMhz_inFreqDomain hwf .lr) (fLrMhz_low hwf))
  · exact execRegwrFreq_of_outside (img := .std) hd
  · exact execRegwrFreq_of_outside (img := .lr) hd

end Sys2Proof.Machine
end

