-- ==== Sys2Proof/Proofs/PortOps.lean ====
section
/-! SUPPORT. The port family (40_port_ops.md R80 to R87): a configuration write in `Disabled` is its named fields
(`next_configWrite_of_disabled`), a missed poll of a pseudo-operation is one of three ends, and what the port shows is the row's. -/

namespace Sys2Proof.Machine

/-! ### O10, O11, O12: register writes in `Disabled` -/

/-- In `Disabled` a configuration write is its image's named fields, and one tick (R80). -/
theorem next_configWrite_of_disabled {named unnamed : Regs → Regs} {s : State} (h : s.radio.rstate = .disabled) :
    (.next (configWrite named unnamed s) : Answer) =
      .next (s.withRadio { s.radio with regs := named s.radio.regs }).spend := by
  simp only [configWrite, if_pos h]

/-- On a radio that is on, `POWER_ON` is a configuration write like any other (log entry 13). -/
theorem powerOn_of_powered {s : State} (h : s.radio.powered = true) :
    powerOn s =
      configWrite (fun r => { r with power := s.cfg.codes.powerOn })
        (fun r => { r with power := Config.freeCode s.tick 0 }) s := by
  simp only [powerOn, if_pos h]

/-- Settles O10: each is a configuration write of one field, by the image where there are two. -/
theorem oneFieldRegistersAreWritten : Obligations.OneFieldRegistersAreWritten := by
  refine fun s hdis => ⟨fun img => ?mode, fun img => ?crccfg, ?crcpoly, ?crcseed, fun img => ?txpower, fun hon => ?power⟩
  case mode | crccfg | txpower => cases img <;> exact next_configWrite_of_disabled hdis
  case crcpoly | crcseed => exact next_configWrite_of_disabled hdis
  case power => exact (congrArg Host.Outcome.next (powerOn_of_powered hon)).trans (next_configWrite_of_disabled hdis)

/-- Settles O11: `PKTLAY0_STD`'s image has free values in the three fields it does not name. -/
theorem packetLayoutRegistersAreWritten : Obligations.PacketLayoutRegistersAreWritten := fun s hdis =>
  ⟨⟨pktlay0Image s.cfg.codes s.tick .std, rfl, rfl, next_configWrite_of_disabled hdis⟩,
    next_configWrite_of_disabled hdis, next_configWrite_of_disabled hdis⟩

/-- Settles O12: three configuration writes. -/
theorem assessmentAndAddressRegistersAreWritten : Obligations.AssessmentAndAddressRegistersAreWritten := fun _ hdis =>
  ⟨next_configWrite_of_disabled hdis, next_configWrite_of_disabled hdis, next_configWrite_of_disabled hdis⟩

/-! ### O14, O19, O20, O21: operations with one meaning in every state -/

/-- Settles O14: `plainWrite` asks nothing of the radio's state. -/
theorem shortsAndPacketPointerAreWritten : Obligations.ShortsAndPacketPointerAreWritten := fun _ => ⟨rfl, rfl, rfl⟩

/-- Settles O19: `evRead` writes the return lines only. -/
theorem eventReadReturnsTheLatch : Obligations.EventReadReturnsTheLatch := fun _ => ⟨rfl, rfl, rfl⟩

/-- Settles O20: `evClear` puts 0 in the one latch. -/
theorem eventClearClearsOneLatch : Obligations.EventClearClearsOneLatch := fun _ => ⟨rfl, rfl, rfl⟩

/-- Settles O21: `readState` writes the return lines only, and a delay is the identity. -/
theorem stateReadAndDelaysWriteNothing : Obligations.StateReadAndDelaysWriteNothing := fun _ => ⟨rfl, rfl, rfl, rfl, rfl⟩

/-! ### O25: `WaitAck` -/

@[simp] theorem Latches.get_put_same (l : Latches) (e : PortEvent) (v : Bool) : (l.put e v).get e = v := by
  cases e <;> rfl

theorem Latches.get_put_other (l : Latches) {e e' : PortEvent} (v : Bool) (h : e' ≠ e) :
    (l.put e v).get e' = l.get e' := by
  revert h; cases e <;> cases e' <;> simp [Latches.get, Latches.put]

theorem State.withSub_of_eq {s : State} {n : Nat} (h : s.sub = n) : s.withSub n = s := by
  subst h; rfl

/-- Unbounded, a missed poll leaves the pseudo-operation where it is (R86). -/
theorem pollMissedAlone_of_unbounded {s : State} (h : s.cfg.waitBound = none) : pollMissedAlone s = s := by
  simp [pollMissedAlone, pollMissed, h]

/-- The last missed poll of a bounded wait ends the command and the pseudo-operation (R196). -/
theorem pollMissedAlone_of_last {s : State} (h : s.cfg.waitBound = some (s.sq.pollcnt + 1)) :
    pollMissedAlone s = (timeOut s).withSub 0 := by
  simp [pollMissedAlone, pollMissed, h]

/-- An earlier one is counted (R196). -/
theorem pollMissedAlone_of_earlier {s : State} {n : Nat} (h : s.cfg.waitBound = some n) (hn : n ≠ s.sq.pollcnt + 1) :
    pollMissedAlone s = s.withSq { s.sq with pollcnt := s.sq.pollcnt + 1 } := by
  simp [pollMissedAlone, pollMissed, h, hn, hn.symm]

theorem exec_waitAck_of_miss {s : State} {e : PortEvent} (hsub : s.sub = 0) (he : s.radio.ev.get e = false) :
    exec (.waitAck e) s = .next (pollMissedAlone (s.withPort (.latch false))) := by
  simp [exec, execWaitAck, evRead, hsub, he]

theorem exec_waitAck_of_hit {s : State} {e : PortEvent} (hsub : s.sub = 0) (he : s.radio.ev.get e = true) :
    exec (.waitAck e) s = .next (goToSub 1 (s.withPort (.latch true))) := by
  simp [exec, execWaitAck, evRead, hsub, he]

theorem exec_waitAck_of_second {s : State} {e : PortEvent} (hsub : s.sub = 1) :
    exec (.waitAck e) s = .next (goToSub 0 (evClear e s)) := by
  simp [exec, execWaitAck, hsub]

/-- Settles O25: by the step it is at, the latch read, and the bound. -/
theorem waitAckPollsThenClears : Obligations.WaitAckPollsThenClears := by
  refine fun s e => ⟨fun hsub he => ?miss, fun hsub he => ?hit, fun hsub => ?second⟩
  case miss =>
    rw [exec_waitAck_of_miss hsub he]
    refine ⟨fun hb => ?unbounded, fun hb => ?last, fun n hb hn => ?earlier⟩
    case unbounded => exact congrArg Host.Outcome.next (pollMissedAlone_of_unbounded hb)
    case last =>
      exact congrArg Host.Outcome.next
        ((pollMissedAlone_of_last (s := s.withPort (.latch false)) hb).trans (State.withSub_of_eq hsub))
    case earlier => exact congrArg Host.Outcome.next (pollMissedAlone_of_earlier hb hn)
  case hit => exact exec_waitAck_of_hit hsub he
  case second =>
    exact ⟨_, exec_waitAck_of_second hsub, rfl, Latches.get_put_same _ e false, fun _ => Latches.get_put_other _ false⟩

/-! ### O46: the port shows the row -/

/-- The sequencer issues with `BUSY = 1` only, and what it issues is its row's (R87). -/
theorem row_of_issued {s : State} {i : Instr} (h : issued s = some i) :
    s.sq.busy = true ∧ ∃ r, rowAt s.sq.cmd s.sq.step = some r ∧ r.act = .run i := by
  unfold issued at h
  split at h
  · cases h
  next u hu =>
    split at h <;> cases h
    next hf => exact (takeTurn_sequencer_keeps hu).2.2 ▸ fetch_micro_iff.1 hf

theorem traceEntry_eq_some {s : State} {e : TraceEntry} (h : traceEntry s = some e) :
    ∃ i w, issued s = some i ∧ encode i = some w ∧ e = ⟨w.word, w.operand, backOf i s⟩ := by
  unfold traceEntry at h
  split at h
  · cases h
  next i hi =>
    split at h <;> cases h
    next w hw => exact ⟨i, w, hi, hw, rfl⟩

/-- Settles O46: an entry is an issued instruction's word. -/
theorem portShowsOnlyTheRow : Obligations.PortShowsOnlyTheRow := by
  intro s e h
  obtain ⟨i, w, hi, hw, rfl⟩ := traceEntry_eq_some h
  obtain ⟨hb, r, hr, ha⟩ := row_of_issued hi
  exact ⟨hb, r, i, w, hr, ha, hw, rfl, rfl⟩

end Sys2Proof.Machine
end

