-- ==== Sys2Proof/Proofs/Configuration.lean ====
section
/-! SUPPORT. The configuration family (41_configuration.md R100 to R104). A stretch of a run with the words it shows is
`State.runs`, which chains (`State.runs.trans`); a `CFG` with the radio `Disabled` is acceptance, one read of `STATE`, the
power cycle and eight configuration writes (`cfg_runs`), for both profiles alike. -/

namespace Sys2Proof.Machine

/-! ### O22: `FREQMAP` -/

theorem inFreqDomain_iff {p : Params} {f : Nat} : p.inFreqDomain f = true ↔ 2360 ≤ f ∧ f ≤ p.freqMaxMhz := by
  simp [Params.inFreqDomain]

/-- The pair says its frequency: the band names the offset that was taken off (R100). -/
theorem freqMap_inverse {p : Params} {f : Nat} {out : Nat × Bool} (h : freqMap p f = some out) :
    f = out.1 + if out.2 then 2360 else 2400 := by
  cases hd : p.inFreqDomain f with
  | false => cases (freqMap_of_outside hd).symm.trans h
  | true =>
    have hlo : 2360 ≤ f := (inFreqDomain_iff.1 hd).1
    obtain hf | hf := Nat.lt_or_ge f 2400
    · rw [freqMap_of_low hd hf, Option.some.injEq] at h
      simp only [← h, if_true]
      omega
    · rw [freqMap_of_high hd hf, Option.some.injEq] at h
      simp only [← h, Bool.false_eq_true, if_false]
      omega

theorem exec_freqmap_of_pair {s : State} {f : Half} {out : Nat × Bool} (h : freqMap s.cfg f.toNat = some out) :
    exec (.freqmap f) s = .next { s with freqOut := out } := by
  simp only [exec, execFreqmap, h]

theorem exec_freqmap_of_outside {s : State} {f : Half} (h : freqMap s.cfg f.toNat = none) :
    exec (.freqmap f) s = .refused .frequencyOutsideDomain := by
  simp only [exec, execFreqmap, h]

/-- `FREQMAP` answers only with the pair it puts on the output lines (R100). -/
theorem freqMap_of_exec {s t : State} {f : Half} (h : exec (.freqmap f) s = .next t) :
    freqMap s.cfg f.toNat = some t.freqOut := by
  cases hf : freqMap s.cfg f.toNat with
  | none => cases (exec_freqmap_of_outside hf).symm.trans h
  | some out => cases (exec_freqmap_of_pair hf).symm.trans h; rfl

/-- Settles O22: by the band, and by `freqMap_inverse` for the injectivity. -/
theorem freqmapMapsItsDomain : Obligations.FreqmapMapsItsDomain := by
  refine ⟨fun s f hlo hmax hlow => ?low, fun s f hhigh hmax => ?high, fun s f hout => ?outside,
    fun s f g t u ht hu htu => ?injective⟩
  case low => exact exec_freqmap_of_pair (freqMap_of_low (inFreqDomain_iff.2 ⟨hlo, hmax⟩) hlow)
  case high =>
    have hlo : 2360 ≤ f.toNat := by omega
    exact exec_freqmap_of_pair (freqMap_of_high (inFreqDomain_iff.2 ⟨hlo, hmax⟩) hhigh)
  case outside =>
    have hd : ¬ s.cfg.inFreqDomain f.toNat = true := fun h => by
      have := inFreqDomain_iff.1 h
      omega
    exact exec_freqmap_of_outside (freqMap_of_outside (Bool.eq_false_iff.2 hd))
  case injective =>
    refine BitVec.eq_of_toNat_eq ?_
    rw [freqMap_inverse (freqMap_of_exec ht), freqMap_inverse (freqMap_of_exec hu), htu]

/-! ### O26: the power cycle -/

/-- On an unpowered radio `POWER_ON` ends a power transition (R169). -/
theorem powerOn_of_unpowered {s : State} (h : s.radio.powered = false) :
    powerOn s = (s.withRadio (Radio.afterPower s.cfg.codes.powerOn s.tick)).spend := by
  simp only [powerOn, h, Bool.false_eq_true, if_false]

/-- The state after `POWER_OFF` and `POWER_ON`: the radio reset, two free values spent (R101, R169). -/
def State.powerCycled (s : State) : State :=
  (s.withRadio (Radio.afterPower s.cfg.codes.powerOn (s.tick + 1))).spend.spend

/-- R169: whatever state the radio was in, the power cycle ends clean. -/
theorem State.powerCycled_clean (s : State) : s.powerCycled.radio.clean := ⟨rfl, rfl, rfl, rfl, rfl⟩

/-- R101: `POWER_OFF` leaves the radio unpowered wherever it stood, so the `POWER_ON` after it resets the radio. -/
theorem powerOn_powerOff_withSub (n : Nat) (s : State) :
    powerOn ((powerOff s).withSub n) = s.powerCycled.withSub n :=
  powerOn_of_unpowered (s := (powerOff s).withSub n) rfl

theorem exec_powerCycle_off {s : State} (h : s.sub = 0) : exec .powerCycle s = .next ((powerOff s).withSub 1) := by
  simp only [exec, execPowerCycle, h]

theorem exec_powerCycle_wait {s : State} (h : s.sub = 1) : exec .powerCycle s = .next (s.withSub 2) := by
  simp only [exec, execPowerCycle, h]

theorem exec_powerCycle_on {s : State} (h : s.sub = 2) : exec .powerCycle s = .next ((powerOn s).withSub 3) := by
  simp only [exec, execPowerCycle, h]

theorem exec_powerCycle_settle {s : State} (h : s.sub = 3) : exec .powerCycle s = .next (s.withSub 0) := by
  simp only [exec, execPowerCycle, h]

/-- Settles O26: the second write of `POWER` finds the radio unpowered (`powerOn_powerOff_withSub`). -/
theorem powerCycleIsItsFourOperations : Obligations.PowerCycleIsItsFourOperations := by
  intro s hsub
  have hoff : (powerOff s).withSub 0 = powerOff s := State.withSub_of_eq hsub
  have hend : s.powerCycled.withSub 0 = s.powerCycled := State.withSub_of_eq hsub
  have hon : powerOn ((powerOff s).withSub 2) = s.powerCycled.withSub 2 := powerOn_powerOff_withSub 2 s
  refine ⟨(powerOff s).withSub 1, (powerOff s).withSub 2, s.powerCycled.withSub 3, s.powerCycled,
    exec_powerCycle_off hsub, exec_powerCycle_wait rfl, ?on, ?settle, congrArg Host.Outcome.next hoff.symm, rfl, rfl, rfl,
    congrArg Host.Outcome.next hon, rfl, rfl, hsub, s.powerCycled_clean, rfl, rfl⟩
  case on =>
    rw [exec_powerCycle_on rfl, hon]
    rfl
  case settle => exact (exec_powerCycle_settle rfl).trans (congrArg Host.Outcome.next hend)

/-! ### Stretches of a run -/

/-- The words that a list of instructions shows on the port, one for each that has a word (R62, R86). -/
def wordsOf (is : List Instr) : List Byte := is.flatMap fun i => ((encode i).map Wire.word).toList

theorem wordsOf_append (is js : List Instr) : wordsOf (is ++ js) = wordsOf is ++ wordsOf js :=
  List.flatMap_append

/-- `n` steps from `s` lead to `t` and show the words `ws`. -/
def State.runs (s : State) (n : Nat) (ws : List Byte) (t : State) : Prop :=
  Host.Core.run core n s = .next t ∧ (traceOf n s).map (·.word) = ws

theorem State.runs_one {s t : State} (h : step s = .next t) :
    s.runs 1 ((traceEntry s).toList.map (·.word)) t := by
  have hstep : core.step s = .next t := h
  exact ⟨by simp only [Host.Core.run, hstep], by simp [traceOf, h]⟩

theorem State.runs.trans {s u t : State} {m n : Nat} {ws ws' : List Byte} (h : s.runs m ws u) (h' : u.runs n ws' t) :
    s.runs (m + n) (ws ++ ws') t := by
  obtain ⟨hrun, rfl⟩ := h
  obtain ⟨hrun', rfl⟩ := h'
  induction m generalizing s with
  | zero =>
    cases hrun
    rw [Nat.zero_add]
    exact ⟨hrun', rfl⟩
  | succ m ih =>
    have hcore : core.step s = step s := rfl
    rw [Nat.succ_add]
    simp only [State.runs, Host.Core.run, traceOf, hcore] at hrun ⊢
    cases hst : step s with
    | next v =>
      simp only [hst] at hrun
      obtain ⟨hvt, hwords⟩ := ih hrun
      exact ⟨hvt, by simp [hwords]⟩
    | fault f => simp only [hst] at hrun; cases hrun
    | refused q => simp only [hst] at hrun; cases hrun

/-- A row's instruction and the rest of its step, at the sequencer's turn (R13, R62). -/
theorem runs_row {s u v : State} {r : Row} {i : Instr} (hu : takeTurn s = .sequencer u) (hb : u.sq.busy = true)
    (hr : rowAt u.sq.cmd u.sq.step = some r) (ha : r.act = .run i) (he : exec i u = .next v) :
    s.runs 1 (wordsOf [i]) (advance v) := by
  obtain ⟨-, -, hrow, -⟩ := stepRunsTheFetchedInstruction s u hu
  obtain ⟨hnext, -⟩ := hrow r i hb hr ha
  have hwords : (traceEntry s).toList.map (·.word) = wordsOf [i] := by
    cases hw : encode i <;> simp [traceEntry, issued_of_row hu hb hr ha, wordsOf, hw]
  exact hwords ▸ State.runs_one (hnext v he)

/-- A command taken at the port shows nothing (R60, R87). -/
theorem runs_acceptance {s u v : State} {o : Offer} {i : Instr} (hu : takeTurn s = .sequencer u) (hb : u.sq.busy = false)
    (ho : u.host.offer = some o) (hd : decode ⟨.command, o.cmd, o.len⟩ = .ok i) (he : exec i u = .next v) :
    s.runs 1 [] v := by
  obtain ⟨htaken, -⟩ := stepRunsTheFetchedInstruction s u hu
  have hsilent : traceEntry s = none := by
    simp only [traceEntry, issued, hu, fetch_of_offer_ok hb ho hd]
  have hrun := State.runs_one ((htaken o i hb ho hd).trans he)
  rwa [hsilent] at hrun

theorem takeTurn_of_no_turns {s : State} (h : s.turns = []) : takeTurn s = .sequencer s := by
  simp only [takeTurn, h]

/-! ### A `CFG` in progress -/

/-- The command that configures a profile (R102). -/
def cfgCmd : ProfileSel → Cmd
  | .std => .cfgStd
  | .lr => .cfgLr

/-- The configuration writes of a profile, in the order of R103 and R104. -/
def profileWrites : ProfileSel → List Instr
  | .std =>
    [.regwrMode .std, .regwrPktlay0 .std, .regwrCrccfg .std, .regwrCrcpoly, .regwrCrcseed, .regwrCcacfg, .regwrFreq .std,
      .regwrTxpower .std]
  | .lr =>
    [.regwrMode .lr, .regwrCrccfg .lr, .regwrPktlay0 .lr, .regwrPktlay1, .regwrAddrbase, .regwrAddrprefix, .regwrFreq .lr,
      .regwrTxpower .lr]

/-- The micro-operations of `POWER_CYCLE` (R101). -/
def powerCycleOps : List Instr := [.regwrPower .off, .delayPowerOff, .regwrPower .on, .delayPowerOn]

/-- The profile's command stands at a step, and no other agent has a turn to come. -/
def State.inCfg (s : State) (sel : ProfileSel) (n : Nat) : Prop :=
  s.turns = [] ∧ s.sq.busy = true ∧ s.sq.cmd = cfgCmd sel ∧ s.sq.step = n

theorem State.inCfg.goToStep {s v : State} {sel : ProfileSel} {n : Nat} (h : s.inCfg sel n) (hturns : v.turns = s.turns)
    (hsq : v.sq = s.sq) (m : Nat) : (goToStep m v).inCfg sel m := by
  obtain ⟨ht, hb, hc, -⟩ := h
  exact ⟨hturns.trans ht, (congrArg Sequencer.busy hsq).trans hb, (congrArg Sequencer.cmd hsq).trans hc, rfl⟩

/-- `SEQ` moves in the transmit commands only (R123). -/
theorem seqAfter_cfg {c : Cmd} {sel : ProfileSel} (h : c = cfgCmd sel) (n : Nat) (hit : Bool) (q : Seq) :
    seqAfter c n hit q = q := by
  subst h; cases sel <;> rfl

theorem State.seqMoved_cfg {v : State} {sel : ProfileSel} (h : v.sq.cmd = cfgCmd sel) : v.seqMoved = v := by
  simp only [State.seqMoved, seqAfter_cfg h]
  rfl

/-- A step of a `CFG`: its row's instruction, then on to the target that the "next" column selects. -/
theorem cfg_runs_row {s v : State} {sel : ProfileSel} {n : Nat} {i : Instr} {next : Next} {k : Target} (h : s.inCfg sel n)
    (hr : rowAt (cfgCmd sel) n = some ⟨.run i, next⟩) (he : exec i s = .next v) (hk : next.target v = some k) :
    s.runs 1 (wordsOf [i]) (follow k v) := by
  obtain ⟨hturns, hb, hcmd, hstep⟩ := h
  rw [← hcmd, ← hstep] at hr
  obtain ⟨⟨-, hsq, -⟩, -⟩ := exec_micro_keeps (row_not_mover hr rfl) he
  have hadvance : advance v = follow k v := by
    rw [advance_eq_target (hsq ▸ hr), hk, State.seqMoved_cfg (hsq ▸ hcmd)]
    rfl
  exact hadvance ▸ runs_row (takeTurn_of_no_turns hturns) hb hr rfl he

/-- Rows 4 to 7 of both profiles' programs are the power cycle's (R103, R104). -/
theorem rowAt_powerCycle (sel : ProfileSel) :
    rowAt (cfgCmd sel) 4 = some ⟨.run (.regwrPower .off), .go (.step 5)⟩ ∧
    rowAt (cfgCmd sel) 5 = some ⟨.run .delayPowerOff, .go (.step 6)⟩ ∧
    rowAt (cfgCmd sel) 6 = some ⟨.run (.regwrPower .on), .go (.step 7)⟩ ∧
    rowAt (cfgCmd sel) 7 = some ⟨.run .delayPowerOn, .go (.step 8)⟩ := by
  cases sel <;> exact ⟨rfl, rfl, rfl, rfl⟩

/-- Steps 4 to 7: the power cycle (R101). -/
theorem cfg_runs_powerCycle {s : State} {sel : ProfileSel} (h : s.inCfg sel 4) :
    s.runs 4 (wordsOf powerCycleOps) (goToStep 8 s.powerCycled) := by
  obtain ⟨row4, row5, row6, row7⟩ := rowAt_powerCycle sel
  have hon : exec (.regwrPower .on) (goToStep 6 (goToStep 5 (powerOff s))) =
      .next (goToStep 6 (goToStep 5 s.powerCycled)) :=
    congrArg Host.Outcome.next (powerOn_of_unpowered (s := goToStep 6 (goToStep 5 (powerOff s))) rfl)
  have h5 := h.goToStep (v := powerOff s) rfl rfl 5
  have h6 := h5.goToStep rfl rfl 6
  have h7 := h6.goToStep (v := goToStep 6 (goToStep 5 s.powerCycled)) rfl rfl 7
  have off := cfg_runs_row h row4 rfl rfl
  have wait := cfg_runs_row h5 row5 rfl rfl
  have on := cfg_runs_row h6 row6 hon rfl
  have settle := cfg_runs_row h7 row7 rfl rfl
  exact ((off.trans wait).trans on).trans settle

/-! ### The configuration writes -/

/-- What a configuration write in `Disabled` does to the registers: its image's named fields (R64, R80). -/
def namedBy (p : Params) (tick : Nat) (i : Instr) (r : Regs) : Regs :=
  match i with
  | .regwrMode img => { r with mode := modeCode p.codes img }
  | .regwrPktlay0 img => { r with pktlay0 := pktlay0Image p.codes tick img }
  | .regwrPktlay1 => { r with pktlay1 := p.codes.pktlay1Lr }
  | .regwrCrccfg img => { r with crclen := crclenCode p.codes img }
  | .regwrCrcpoly => { r with crcpoly := p.codes.crcPolyStd }
  | .regwrCrcseed => { r with crcseed := p.codes.crcSeedStd }
  | .regwrCcacfg => { r with ccamode := p.codes.ccaModeEd, thresholds := p.codes.ccaThresholdsStd }
  | .regwrFreq img =>
    { r with
      freqValue := ((freqMap p (profileMhz p img)).getD (0, false)).1
      freqBand := ((freqMap p (profileMhz p img)).getD (0, false)).2 }
  | .regwrAddrbase => { r with addrBase := p.codes.addrBaseLr }
  | .regwrAddrprefix => { r with addrPrefix := p.codes.addrPrefixLr }
  | .regwrTxpower img => { r with txpower := txpowerCode p.codes img }
  | _ => r

/-- The registers after a list of configuration writes in `Disabled`, each spending a free value. -/
def writtenRegs (p : Params) : Nat → List Instr → Regs → Regs
  | _, [], r => r
  | tick, i :: is, r => writtenRegs p (tick + 1) is (namedBy p tick i r)

/-- The state after a list of configuration writes in `Disabled`. -/
def State.written (s : State) (is : List Instr) : State :=
  { s with
    radio := { s.radio with regs := writtenRegs s.cfg s.tick is s.radio.regs }
    tick := s.tick + is.length }

theorem State.written_cons (s : State) (i : Instr) (is : List Instr) :
    (s.written [i]).written is = s.written (i :: is) := by
  simp only [State.written, writtenRegs, List.length_cons, List.length_nil, Nat.zero_add, Nat.add_assoc, Nat.add_comm 1]

theorem exec_regwrFreq_of_disabled {s : State} (hwf : s.cfg.wf = true) (hdis : s.radio.rstate = .disabled)
    (img : ProfileSel) : exec (.regwrFreq img) s = .next (s.written [.regwrFreq img]) := by
  obtain ⟨v, b, hv⟩ := freqMap_profile hwf img
  rw [execRegwrFreq_of_pair hdis hv]
  simp only [State.written, writtenRegs, namedBy, hv]
  rfl

theorem exec_profileWrite {s : State} {sel : ProfileSel} {i : Instr} (hi : i ∈ profileWrites sel) (hwf : s.cfg.wf = true)
    (hdis : s.radio.rstate = .disabled) : exec i s = .next (s.written [i]) := by
  cases i with
  | regwrFreq img => exact exec_regwrFreq_of_disabled hwf hdis img
  | regwrMode | regwrPktlay0 | regwrPktlay1 | regwrCrccfg | regwrCrcpoly | regwrCrcseed | regwrCcacfg | regwrAddrbase
  | regwrAddrprefix | regwrTxpower => exact next_configWrite_of_disabled hdis
  | _ => cases sel <;> simp [profileWrites] at hi

/-- A stretch of micro-program that runs instructions one after the other from step `n` on and completes the command. -/
def lastRows : Nat → List Instr → List Row
  | _, [] => []
  | n, i :: is => ⟨.run i, .go (if is = [] then .done else .step (n + 1))⟩ :: lastRows (n + 1) is

theorem program_profileWrites (sel : ProfileSel) :
    (program (cfgCmd sel)).drop 8 = lastRows 8 (profileWrites sel) := by
  cases sel <;> rfl

theorem rowAt_of_drop {c : Cmd} {n : Nat} {r : Row} {rs : List Row} (h : (program c).drop n = r :: rs) :
    rowAt c n = some r ∧ (program c).drop (n + 1) = rs :=
  ⟨by rw [rowAt, ← List.head?_drop, h]; rfl, by rw [← List.tail_drop, h]; rfl⟩

/-- Completion overwrites `STEP` and `POLLCNT`, so where the writes began leaves no mark. -/
theorem finish_written_goToStep (n : Nat) (is : List Instr) (s : State) :
    finish ((goToStep n s).written is) = finish (s.written is) := rfl

/-- Steps 8 to 15, or the last of them: the profile's writes, and completion. -/
theorem cfg_runs_writes {s : State} {sel : ProfileSel} {n : Nat} {is : List Instr} (h : s.inCfg sel n)
    (hwf : s.cfg.wf = true) (hdis : s.radio.rstate = .disabled)
    (hrows : (program (cfgCmd sel)).drop n = lastRows n is) (his : is ⊆ profileWrites sel) (hne : is ≠ []) :
    s.runs is.length (wordsOf is) (finish (s.written is)) := by
  induction is generalizing s n with
  | nil => exact absurd rfl hne
  | cons i is ih =>
    obtain ⟨hi, his⟩ := List.cons_subset.1 his
    obtain ⟨hr, hrest⟩ := rowAt_of_drop hrows
    have hrun := cfg_runs_row h hr (exec_profileWrite hi hwf hdis) rfl
    by_cases hnil : is = []
    · subst hnil
      exact hrun
    · rw [if_neg hnil] at hrun
      have hnext := ih (h.goToStep (v := s.written [i]) rfl rfl (n + 1)) hwf hdis hrest his hnil
      rw [finish_written_goToStep, State.written_cons] at hnext
      have hboth := hrun.trans hnext
      rwa [Nat.add_comm 1, ← wordsOf_append] at hboth

/-! ### O53, O54: the configure commands -/

/-- The instruction that the profile's command word is. -/
def cfgInstr : ProfileSel → Instr
  | .std => .cfgStd
  | .lr => .cfgLr

theorem exec_cfgInstr (sel : ProfileSel) (s : State) :
    exec (cfgInstr sel) s = .next (accept (cfgCmd sel) false 0 s) := by
  cases sel <;> rfl

/-- The profile's command accepted at rest (R60). -/
def State.cfgAccepted (s : State) (sel : ProfileSel) : State :=
  (s.withSq
    { s.sq with busy := true, cmd := cfgCmd sel, hold := false, len := 0, step := 0, pollcnt := 0 }).withHost
    { s.host with offer := none }

/-- A profile applied: the command completed, and the profile's writes on a radio just reset (R101 to R104). -/
def State.configured (s : State) (sel : ProfileSel) : State :=
  finish ((((s.cfgAccepted sel).withPort (.state .disabled)).powerCycled).written (profileWrites sel))

/-- A profile's command with the radio `Disabled` and no other agent to move: acceptance, then one read of `STATE`, the power
cycle and the profile's writes (R102 to R104). -/
theorem cfg_runs {s : State} {sel : ProfileSel} {cmd : Byte} {len : Half} (hwf : s.cfg.wf = true)
    (hb : s.sq.busy = false) (hturns : s.turns = []) (hdis : s.radio.rstate = .disabled)
    (ho : s.host.offer = some ⟨cmd, len⟩) (hd : decodeCommand cmd len = .ok (cfgInstr sel)) :
    s.runs 14 (wordsOf ([.regrdState] ++ (powerCycleOps ++ profileWrites sel))) (s.configured sel) := by
  have haccept : exec (cfgInstr sel) s = .next (s.cfgAccepted sel) :=
    (exec_cfgInstr sel s).trans (congrArg Host.Outcome.next (accept_of_idle _ _ _ hb))
  have accepted := runs_acceptance (takeTurn_of_no_turns hturns) hb ho hd haccept
  have h0 : (s.cfgAccepted sel).inCfg sel 0 := ⟨hturns, rfl, rfl, rfl⟩
  have hrow : rowAt (cfgCmd sel) 0 = some ⟨.run .regrdState, .ifDisabled (.step 4) (.step 1)⟩ := by cases sel <;> rfl
  have hread : exec .regrdState (s.cfgAccepted sel) = .next ((s.cfgAccepted sel).withPort (.state .disabled)) :=
    congrArg (fun r => Host.Outcome.next ((s.cfgAccepted sel).withPort (.state r))) hdis
  have read := cfg_runs_row h0 hrow hread rfl
  have h4 := h0.goToStep (v := (s.cfgAccepted sel).withPort (.state .disabled)) rfl rfl 4
  have cycled := cfg_runs_powerCycle h4
  have h8 := h4.goToStep (v := (goToStep 4 ((s.cfgAccepted sel).withPort (.state .disabled))).powerCycled) rfl rfl 8
  have written := cfg_runs_writes h8 hwf rfl (program_profileWrites sel) (List.Subset.refl _) (by cases sel <;> nofun)
  have hlength : (profileWrites sel).length = 8 := by cases sel <;> rfl
  rw [hlength] at written
  rw [wordsOf_append, wordsOf_append]
  exact accepted.trans (read.trans (cycled.trans written))

/-- Both profiles end with a radio just reset and no shortcut (R169): their writes touch neither. -/
theorem State.configured_clean (s : State) (sel : ProfileSel) :
    (s.configured sel).radio.clean ∧ (s.configured sel).radio.regs.shorts = [] := by
  cases sel <;> exact ⟨⟨rfl, rfl, rfl, rfl, rfl⟩, rfl⟩

/-- `FREQ` holds the pair of the profile's frequency, which R5 keeps in the domain of R100. -/
theorem State.configured_freq {s : State} (hwf : s.cfg.wf = true) (sel : ProfileSel) :
    some ((s.configured sel).radio.regs.freqValue, (s.configured sel).radio.regs.freqBand) =
      freqMap s.cfg (profileMhz s.cfg sel) := by
  have hwritten : ((s.configured sel).radio.regs.freqValue, (s.configured sel).radio.regs.freqBand) =
      (freqMap s.cfg (profileMhz s.cfg sel)).getD (0, false) := by cases sel <;> rfl
  obtain ⟨v, b, hv⟩ := freqMap_profile hwf sel
  rw [hwritten, hv, Option.getD_some]

/-- Settles O53: the run is `cfg_runs`; the fields of `configured` hold what was written to them. -/
theorem cfgStdAppliesItsProfile : Obligations.CfgStdAppliesItsProfile := by
  intro s len hinv _ hb hturns hdis ho
  obtain ⟨hwf, -, -, -, hrest, -⟩ := hinv
  obtain ⟨-, hseq, -⟩ := hrest hb
  obtain ⟨hrun, hwords⟩ := cfg_runs (sel := .std) hwf hb hturns hdis ho rfl
  obtain ⟨hclean, hshorts⟩ := s.configured_clean .std
  exact ⟨hwords, _, hrun, rfl, hseq, rfl, rfl, rfl, hclean, hshorts, rfl, rfl, rfl, rfl, rfl, rfl, rfl, rfl, rfl,
    State.configured_freq hwf .std, rfl⟩

/-- Settles O54: as O53, and R5 puts `F_LR_MHZ` in the low band. -/
theorem cfgLrAppliesItsProfile : Obligations.CfgLrAppliesItsProfile := by
  intro s len hinv _ hb hturns hdis ho
  obtain ⟨hwf, -, -, -, hrest, -⟩ := hinv
  obtain ⟨-, hseq, -⟩ := hrest hb
  obtain ⟨hrun, hwords⟩ := cfg_runs (sel := .lr) hwf hb hturns hdis ho rfl
  obtain ⟨hclean, hshorts⟩ := s.configured_clean .lr
  have hfreq := (State.configured_freq hwf .lr).trans
    (freqMap_of_low (profileMhz_inFreqDomain hwf .lr) (fLrMhz_low hwf))
  simp only [Option.some.injEq, Prod.mk.injEq] at hfreq
  obtain ⟨hvalue, hband⟩ := hfreq
  exact ⟨hwords, _, hrun, rfl, hseq, rfl, rfl, rfl, hclean, hshorts, rfl, rfl, rfl, rfl, rfl, rfl, rfl, hvalue, hband,
    rfl⟩

end Sys2Proof.Machine
end

