-- ==== Sys2Proof/Proofs/Transmit.lean ====
section
/-! SUPPORT. The transmit family (42_transmit.md R120 to R130), its tables and single steps: the waits (`poll_row_acknowledged`), the length
check, the unconfigured radio, the frame (`exec_frame_of_fits`), and `SEQ` by R123's table (`seqTable_of_step`). -/

namespace Sys2Proof.Machine

/-! ### O45: the waits, checked as data -/

/-- What is checked row by row over a micro-program's nineteen steps holds of every row. -/
theorem rowAt_of_all {P : Nat → Row → Bool} {c : Cmd} {n : Nat} {r : Row}
    (hall : ((List.range 19).all fun n => (rowAt c n).all (P n)) = true) (h : rowAt c n = some r) : P n r = true := by
  have hn : n ∈ List.range 19 := List.mem_range.2 (Nat.lt_of_lt_of_le (rowAt_lt h) (program_length_le c))
  simpa [h] using List.all_eq_true.1 hall n hn

/-- The instruction that reads an event's latch (R83). -/
def pollOf : PortEvent → Instr
  | .txready => .evrdTxready
  | .phyend => .evrdPhyend
  | .disabled => .evrdDisabled

/-- The instruction that clears an event's latch (R84). -/
def clearOf : PortEvent → Instr
  | .txready => .evclrTxready
  | .phyend => .evclrPhyend
  | .disabled => .evclrDisabled

/-- A row that polls `e` waits where it stands, and the next row, where the read of 1 leads, clears `e`. -/
def acknowledges (c : Cmd) (n : Nat) (r : Row) (e : PortEvent) : Bool :=
  decide (r.act = .run (pollOf e) ∧ r.next = .ifSet (.step (n + 1)) (.step n) ∧
    (rowAt c (n + 1)).map Row.act = some (.run (clearOf e)))

/-- A polling row, if it is one, is acknowledged (R86, R124). -/
def rowAcknowledged (c : Cmd) (n : Nat) (r : Row) : Bool :=
  match r.next with
  | .ifSet _ _ => acknowledges c n r .txready || acknowledges c n r .phyend || acknowledges c n r .disabled
  | .go _ | .ifDisabled _ _ | .ifHold _ _ => true

theorem program_rows_acknowledged (c : Cmd) :
    ((List.range 19).all fun n => (rowAt c n).all (rowAcknowledged c n)) = true := by
  cases c <;> rfl

theorem poll_row_acknowledged {c : Cmd} {n : Nat} {r : Row} {yes no : Target} (h : rowAt c n = some r)
    (hn : r.next = .ifSet yes no) : ∃ e, acknowledges c n r e = true := by
  have hrow := rowAt_of_all (program_rows_acknowledged c) h
  simp only [rowAcknowledged, hn, Bool.or_eq_true] at hrow
  obtain (he | he) | he := hrow <;> exact ⟨_, he⟩

/-- Settles O45: every polling row of the tables is acknowledged, by the event it polls. -/
theorem everyWaitIsAcknowledged : Obligations.EveryWaitIsAcknowledged := by
  intro c n r yes no h hn
  obtain ⟨e, he⟩ := poll_row_acknowledged h hn
  obtain ⟨hact, hnext, hclear⟩ := of_decide_eq_true he
  obtain ⟨hyes, hno⟩ := Next.ifSet.inj (hn.symm.trans hnext)
  obtain ⟨q, hq, hqact⟩ := Option.map_eq_some_iff.1 hclear
  refine ⟨hyes, hno, q, hq, ?_⟩
  cases e with
  | txready => exact .inl ⟨hact, hqact⟩
  | phyend => exact .inr (.inl ⟨hact, hqact⟩)
  | disabled => exact .inr (.inr ⟨hact, hqact⟩)

/-! ### O9: the length check -/

theorem lengthCheck_of_oversize {s : State} (h : s.cfg.maxPacketLen - 1 ≤ s.sq.len.toNat) :
    lengthCheck s = raiseReject .rejectedOversize s := by
  simp only [lengthCheck, oversize, h, decide_true, if_true]

theorem lengthCheck_of_fits {s : State} (h : s.sq.len.toNat < s.cfg.maxPacketLen - 1) :
    lengthCheck s = goToStep 1 s := by
  simp only [lengthCheck, oversize, Nat.not_le.2 h, decide_false, Bool.false_eq_true, if_false]

/-- Step 0 of both transmit commands is the length check (R121). -/
theorem rowAt_lengthCheck {c : Cmd} (hc : c.isTx = true) : rowAt c 0 = some ⟨.lengthCheck, .go (.step 1)⟩ := by
  cases c with
  | txp | txs => rfl
  | disable | cfgStd | cfgLr => cases hc

/-- Settles O9: the step is `lengthCheck`, which fetches nothing that the port would show. -/
theorem lengthCheckRejectsOversize : Obligations.LengthCheckRejectsOversize := by
  intro s t ht hb hc h0
  have hrow : rowAt t.sq.cmd t.sq.step = some ⟨.lengthCheck, .go (.step 1)⟩ := h0.symm ▸ rowAt_lengthCheck hc
  obtain ⟨-, -, -, hcheck⟩ := stepRunsTheFetchedInstruction s t ht
  have hstep := hcheck _ hb hrow rfl
  refine ⟨?silent, fun hlen => ?oversize, fun hlen => ?fits⟩
  case silent => simp only [traceEntry, issued, ht, fetch_of_lengthCheck_row hb hrow rfl]
  case oversize => exact hstep.trans (congrArg Host.Outcome.next (lengthCheck_of_oversize hlen))
  case fits => exact hstep.trans (congrArg Host.Outcome.next (lengthCheck_of_fits hlen))

/-! ### O42: the unconfigured radio -/

/-- Latches that clear none of `l` are what `l` becomes when they fire. -/
theorem Latches.orWith_of_le {l l' : Latches} (h : l.le l') : l.orWith l' = l' := by
  have hget (e : PortEvent) : (l.get e || l'.get e) = l'.get e := Bool.or_eq_right_iff_imp.2 (h e)
  cases l'
  exact Latches.mk.injEq .. ▸ ⟨hget .txready, hget .phyend, hget .disabled⟩

/-- Settles O42: the `stray` turn with these choices. -/
theorem unconfiguredRadioMayDoAnything : Obligations.UnconfiguredRadioMayDoAnything := by
  refine fun s hu hp q l next hle => ⟨.stray q l next, fun ts => ?_⟩
  have hfree : ({ s with turns := .radio (.stray q l next) :: ts } : State).unconfiguredTx = true := hu
  simp only [step, takeTurn, radioTurn, hp, hfree, Bool.true_eq_false, Bool.or_true, if_false, if_true,
    Latches.orWith_of_le hle]
  rfl

/-! ### O23: the frame -/

/-- R65, R66: the length byte counts two bytes more than the payload. -/
theorem lengthByte_toNat {len : Half} (h : len.toNat + 2 < 256) : (lengthByte len).toNat = len.toNat + 2 := by
  have htwo : (2 : Byte).toNat = 2 := rfl
  simp only [lengthByte, BitVec.toNat_add, BitVec.toNat_ofNat, htwo]
  omega

/-- A payload byte the host kept in place is the one it put there (R53, R120). -/
theorem payloadByte_of_kept {s : State} {i : Nat} (ht : s.host.payloadTouched = false) (hi : i < s.host.payload.length) :
    some (payloadByte s i) = s.host.payload[i]? := by
  simp only [payloadByte, ht, Bool.false_eq_true, if_false, List.getElem?_eq_getElem hi, Option.getD_some]

theorem frameBytes_length (s : State) : (frameBytes s).length = s.sq.len.toNat + 1 := by
  simp only [frameBytes, List.length_cons, List.length_map, List.length_range]

/-- The frame of `s` stands in `m`, over what `m₀` held (R65, R120). -/
def State.framed (s : State) (m₀ m : Memory) : Prop :=
  m.read 0 = some (lengthByte s.sq.len) ∧
  (∀ i, i < s.sq.len.toNat → m.read (1 + i) = some (payloadByte s i)) ∧
  (∀ a, s.sq.len.toNat < a → m.read a = m₀.read a)

theorem framed_of_writeBytes {s : State} {size : Nat} {m₀ m : Memory}
    (h : Memory.writeBytes size 0 (frameBytes s) m₀ = some m) : s.framed m₀ m := by
  have hread := Memory.read_writeBytes _ _ _ _ _ h
  simp only [frameBytes_length, Nat.zero_le, Nat.zero_add, true_and, Nat.sub_zero] at hread
  refine ⟨?length, fun i hi => ?payload, fun a ha => ?rest⟩
  case length => simp [hread, frameBytes]
  case payload =>
    rw [hread, if_pos (by omega), Nat.add_comm 1 i]
    simp [frameBytes, hi]
  case rest => rw [hread, if_neg (by omega)]

/-- A frame that passed the length check is built (R120, R121). -/
theorem exec_frame_of_fits {s : State} (h : s.sq.len.toNat < s.cfg.maxPacketLen - 1) :
    ∃ m, exec .frame s = .next (s.withTxbuf m).spend ∧ s.framed s.txbuf m ∧ (s.txbuf.wf = true → m.wf = true) := by
  obtain ⟨t, ht⟩ := execFrame_answers (s := s) (by omega)
  obtain ⟨m, hm, rfl⟩ := execFrame_next ht
  exact ⟨m, ht, framed_of_writeBytes hm, Memory.wf_writeBytes _ _ _ _ _ hm⟩

/-- Settles O23: what the buffer reads after the frame's bytes are written. -/
theorem frameFillsTheBuffer : Obligations.FrameFillsTheBuffer := by
  intro s hmax hlen
  obtain ⟨m, hm, ⟨hfirst, hpayload, hrest⟩, hwf⟩ := exec_frame_of_fits hlen
  exact ⟨m, hm, hwf, ⟨_, hfirst, lengthByte_toNat (by omega)⟩,
    fun i hi ht hip => (hpayload i hi).trans (payloadByte_of_kept ht hip), hrest⟩

/-! ### O31: `SEQ` -/

theorem lengthCheck_seq (s : State) : (lengthCheck s).sq.seq = s.sq.seq := by unfold lengthCheck; split <;> rfl

theorem follow_seq (k : Target) (s : State) : (follow k s).sq.seq = s.sq.seq := by cases k <;> rfl

theorem pollMissed_of_unbounded {s : State} (h : s.cfg.waitBound = none) : pollMissed s = s := by
  simp only [pollMissed, h]

/-- The rest of a sequencer step moves `SEQ` by the table, unless a bounded wait is cut short (R123, R196). -/
theorem advance_seq {v : State} {r : Row} (hr : rowAt v.sq.cmd v.sq.step = some r)
    (h : v.cfg.waitBound = none ∨ r.next.target v ≠ none) : (advance v).sq.seq = v.seqMoved.sq.seq := by
  rw [advance_eq_target hr]
  cases hk : r.next.target v with
  | some k => exact follow_seq k v.seqMoved
  | none =>
    have hbound := h.resolve_right fun hne => hne hk
    exact congrArg (·.sq.seq) (pollMissed_of_unbounded (s := v.seqMoved) hbound)

/-- The table's six rows (R123). -/
theorem seqAfter_ne {c : Cmd} {n : Nat} {hit : Bool} (h : seqAfter c n hit (seqAt c n) ≠ seqAt c n) :
    (c = .txp ∧ n = 8) ∨ (c = .txp ∧ n = 9 ∧ hit = true) ∨ (c = .txp ∧ n = 12) ∨
    (c = .txp ∧ n = 13 ∧ hit = true) ∨ (c = .txs ∧ n = 8) ∨ (c = .txs ∧ n = 9) := by
  unfold seqAfter at h
  split at h <;> simp_all

/-- The rest of a row's step moves `SEQ` from where the tables have it (R123). -/
theorem advance_seq_of_row {u v : State} {r : Row} {i : Instr} (hok : u.sq.ok u.cfg) (hb : u.sq.busy = true)
    (hr : rowAt u.sq.cmd u.sq.step = some r) (ha : r.act = .run i) (he : exec i u = .next v)
    (h : u.cfg.waitBound = none ∨ r.next.target v ≠ none) :
    u.sq.seq = seqAt u.sq.cmd u.sq.step ∧
    (advance v).sq.seq =
      seqAfter u.sq.cmd u.sq.step (decide (v.portVal = .latch true)) (seqAt u.sq.cmd u.sq.step) := by
  obtain ⟨-, hseq, -⟩ := hok.2.2 hb
  obtain ⟨⟨hc, hq, -⟩, -⟩ := exec_micro_keeps (row_not_mover hr ha) he
  refine ⟨hseq, ?_⟩
  rw [advance_seq (hq ▸ hr) (hc ▸ h), State.seqMoved, hq, ← hseq]
  rfl

/-- R123's table: from `SEQ = q` to `q'` at a step of a command, the latches read there being `ev`. -/
def seqTable (ev : Latches) (c : Cmd) (n : Nat) (q q' : Seq) : Prop :=
  (q = .idle ∧ q' = .warmingUp ∧ c = .txp ∧ n = 8) ∨
  (q = .warmingUp ∧ q' = .armed ∧ c = .txp ∧ n = 9 ∧ ev.txready = true) ∨
  (q = .armed ∧ q' = .transmitting ∧ c = .txp ∧ n = 12) ∨
  (q = .transmitting ∧ q' = .idle ∧ c = .txp ∧ n = 13 ∧ ev.phyend = true) ∨
  (q = .idle ∧ q' = .chained ∧ c = .txs ∧ n = 8) ∨
  (q = .chained ∧ q' = .idle ∧ c = .txs ∧ n = 9)

/-- A row that changes `SEQ` is one of the table's; its poll, if it is one, read 1. -/
theorem seqTable_of_row {u v : State} {r : Row} {i : Instr} (hok : u.sq.ok u.cfg) (hb : u.sq.busy = true)
    (hub : u.cfg.waitBound = none) (hr : rowAt u.sq.cmd u.sq.step = some r) (ha : r.act = .run i)
    (he : exec i u = .next v) (hne : (advance v).sq.seq ≠ u.sq.seq) :
    seqTable u.radio.ev u.sq.cmd u.sq.step u.sq.seq (advance v).sq.seq := by
  obtain ⟨hseq, hafter⟩ := advance_seq_of_row hok hb hr ha he (.inl hub)
  rw [hseq, hafter] at hne ⊢
  obtain ⟨hc, hn⟩ | ⟨hc, hn, hhit⟩ | ⟨hc, hn⟩ | ⟨hc, hn, hhit⟩ | ⟨hc, hn⟩ | ⟨hc, hn⟩ := seqAfter_ne hne <;>
    rw [hc, hn] at hr ⊢ <;> cases hr <;> cases ha <;> cases he
  · exact .inl ⟨rfl, rfl, rfl, rfl⟩
  · exact .inr (.inl ⟨rfl, by rw [hhit]; rfl, rfl, rfl, ReadVal.latch.inj (of_decide_eq_true hhit)⟩)
  · exact .inr (.inr (.inl ⟨rfl, rfl, rfl, rfl⟩))
  · exact .inr (.inr (.inr (.inl ⟨rfl, by rw [hhit]; rfl, rfl, rfl, ReadVal.latch.inj (of_decide_eq_true hhit)⟩)))
  · exact .inr (.inr (.inr (.inr (.inl ⟨rfl, rfl, rfl, rfl⟩))))
  · exact .inr (.inr (.inr (.inr (.inr ⟨rfl, rfl, rfl, rfl⟩))))

/-- A step that changes `SEQ`, the reset input apart, is a row of the table. -/
theorem seqTable_of_step {s t : State} (hinv : s.Inv) (hub : s.cfg.waitBound = none) (hn : ¬ s.resetNext)
    (hst : step s = .next t) (hne : t.sq.seq ≠ s.sq.seq) :
    s.sq.busy = true ∧ seqTable s.radio.ev s.sq.cmd s.sq.step s.sq.seq t.sq.seq := by
  obtain ho | ⟨u, hu, hcase⟩ := step_cases hst
  · exact absurd (congrArg Sequencer.seq (takeTurn_other_keeps_of_not_reset ho hn).1) hne
  · obtain ⟨-, -, hok⟩ := u.inv_iff.1 (takeTurn_sequencer_inv hinv hu)
    obtain ⟨hc, -, hq⟩ := takeTurn_sequencer_keeps hu
    have hradio : u.radio = s.radio := by rw [(takeTurn_sequencer hu).1]; rfl
    rw [← hc] at hub
    rw [← hq] at hne
    rw [← hq, ← hradio]
    obtain ⟨-, -, rfl⟩ | ⟨o, e, -, -, -, rfl⟩ | ⟨o, i, hb, -, hd, he⟩ | ⟨r, -, -, -, rfl⟩ |
      ⟨r, i, v, hb, hr, ha, he, rfl⟩ := hcase
    · exact absurd rfl hne
    · exact absurd rfl hne
    · obtain ⟨c, l, len, host, -, hx⟩ := exec_command_accepts (decodeCommand_isCommand hd) hb
      cases hx.symm.trans he
      exact absurd rfl hne
    · exact absurd (lengthCheck_seq u) hne
    · exact ⟨hb, seqTable_of_row hok hb hub hr ha he hne⟩

/-- At the sequencer's turn in a row that goes on, `SEQ` is where the tables have it and moves by them. -/
theorem seq_of_row {s u v t : State} {c : Cmd} {n : Nat} {i : Instr} {next : Next} {k : Target} (hinv : s.Inv)
    (hu : takeTurn s = .sequencer u) (hb : s.sq.busy = true) (hst : step s = .next t) (hc : s.sq.cmd = c)
    (hn : s.sq.step = n) (hr : rowAt c n = some ⟨.run i, next⟩) (he : exec i u = .next v) (hk : next.target v = some k) :
    s.sq.seq = seqAt c n ∧ t.sq.seq = seqAfter c n (decide (v.portVal = .latch true)) (seqAt c n) := by
  subst hc hn
  obtain ⟨-, -, hok⟩ := u.inv_iff.1 (takeTurn_sequencer_inv hinv hu)
  rw [← (takeTurn_sequencer_keeps hu).2.2] at hb hr ⊢
  obtain ⟨-, -, hrow, -⟩ := stepRunsTheFetchedInstruction s u hu
  obtain ⟨hnext, -⟩ := hrow _ i hb hr rfl
  cases hst.symm.trans (hnext v he)
  exact advance_seq_of_row hok hb hr rfl he (.inr (by rw [hk]; nofun))

/-- Settles O31: `seqTable_of_step`, and each of the six rows at the sequencer's turn. -/
theorem seqChangesOnlyByTheTable : Obligations.SeqChangesOnlyByTheTable := by
  refine ⟨fun s t hinv hub hn hst hne => seqTable_of_step hinv hub hn hst hne, fun s u t hinv hu hb hst => ?_⟩
  have hpoll (e : PortEvent) (he : s.radio.ev.get e = true) : evRead e u = u.withPort (.latch true) := by
    rw [evRead, (takeTurn_sequencer hu).1, State.withTurns_radio, he]
  refine ⟨fun hc hn => ?warm, fun hc hn he => ?arm, fun hc hn => ?send, fun hc hn he => ?finish, fun hc hn => ?chain,
    fun hc hn => ?unchain⟩
  case warm => exact seq_of_row hinv hu hb hst hc hn rfl rfl rfl
  case arm => exact seq_of_row hinv hu hb hst hc hn rfl (congrArg Host.Outcome.next (hpoll .txready he)) rfl
  case send => exact seq_of_row hinv hu hb hst hc hn rfl rfl rfl
  case finish => exact seq_of_row hinv hu hb hst hc hn rfl (congrArg Host.Outcome.next (hpoll .phyend he)) rfl
  case chain => exact seq_of_row hinv hu hb hst hc hn rfl rfl rfl
  case unchain => exact seq_of_row hinv hu hb hst hc hn rfl rfl rfl

end Sys2Proof.Machine
end

