-- ==== Sys2Proof/Proofs/TransmitStages.lean ====
section
/-! SUPPORT. A command in progress, as a run. `State.plays` is a stretch of a schedule with everything it shows, whatever moves come
after; it chains (`State.plays.trans`). `State.stage` is a command at a step, and there is one lemma for each kind of move: a row's step
(`stage_row`), a trigger, a wait with a radio that responds (`stage_wait`), and `DIS` (`stage_dis`). -/

namespace Sys2Proof.Machine

/-! ### Stretches of a run, with everything they show -/

/-- `n` steps from `s` lead to `t` and show the entries `es`, images and return values included (R62). -/
def State.shows (s : State) (n : Nat) (es : List TraceEntry) (t : State) : Prop :=
  Host.Core.run core n s = .next t ∧ traceOf n s = es

theorem State.shows_one {s t : State} (h : step s = .next t) : s.shows 1 (traceEntry s).toList t := by
  have hstep : core.step s = .next t := h
  exact ⟨by simp only [Host.Core.run, hstep], by simp [traceOf, h]⟩

theorem State.shows.trans {s u t : State} {m n : Nat} {es es' : List TraceEntry} (h : s.shows m es u)
    (h' : u.shows n es' t) : s.shows (m + n) (es ++ es') t := by
  obtain ⟨hrun, rfl⟩ := h
  obtain ⟨hrun', rfl⟩ := h'
  induction m generalizing s with
  | zero =>
    cases hrun
    rw [Nat.zero_add]
    exact ⟨hrun', rfl⟩
  | succ m ih =>
    have hcore : core.step s = step s := rfl
    rw [Nat.succ_add]
    simp only [State.shows, Host.Core.run, traceOf, hcore] at hrun ⊢
    cases hst : step s with
    | next v =>
      simp only [hst] at hrun
      obtain ⟨hvt, hentries⟩ := ih hrun
      exact ⟨hvt, by simp [hentries]⟩
    | fault f => simp only [hst] at hrun; cases hrun
    | refused q => simp only [hst] at hrun; cases hrun

/-- A stretch without words shows nothing. -/
theorem State.runs.shows {s t : State} {n : Nat} (h : s.runs n [] t) : s.shows n [] t :=
  ⟨h.1, List.map_eq_nil_iff.1 h.2⟩

/-- What an instruction shows on the port when it is issued in `s` (R62). -/
def entriesOf (i : Instr) (s : State) : List TraceEntry :=
  ((encode i).map fun w => ⟨w.word, w.operand, backOf i s⟩).toList

theorem traceEntry_of_issued {s : State} {i : Instr} (h : issued s = some i) : (traceEntry s).toList = entriesOf i s := by
  cases hw : encode i <;> simp [traceEntry, entriesOf, h, hw]

/-- The agents' moves `ms`, whatever moves come after them, lead from `s` to `t` and show `es`. -/
def State.plays (s : State) (ms : List Turn) (es : List TraceEntry) (t : State) : Prop :=
  ∀ ts, (s.withTurns (ms ++ ts)).shows ms.length es (t.withTurns ts)

theorem State.plays.trans {s u t : State} {ms ms' : List Turn} {es es' : List TraceEntry} (h : s.plays ms es u)
    (h' : u.plays ms' es' t) : s.plays (ms ++ ms') (es ++ es') t := by
  intro ts
  rw [List.append_assoc, List.length_append]
  exact (h (ms' ++ ts)).trans (h' ts)

theorem State.withTurns_turns_self (s : State) : s.withTurns s.turns = s := rfl

/-- With no move left the sequencer moves (log entry 4). -/
theorem State.plays.unscheduled {s t : State} {es : List TraceEntry} (h : s.plays [.sequencer] es t) :
    (s.withTurns []).shows 1 es (t.withTurns []) := h []

/-- A row's instruction and the rest of its step, at the sequencer's turn (R13, R62). -/
theorem plays_row {s v t : State} {r : Row} {i : Instr} (hb : s.sq.busy = true) (hr : rowAt s.sq.cmd s.sq.step = some r)
    (ha : r.act = .run i) (he : ∀ ts, exec i (s.withTurns ts) = .next (v.withTurns ts))
    (hrest : ∀ ts, advance (v.withTurns ts) = t.withTurns ts) : s.plays [.sequencer] (entriesOf i s) t := by
  intro ts
  have hu : takeTurn (s.withTurns (.sequencer :: ts)) = .sequencer (s.withTurns ts) := rfl
  obtain ⟨-, -, hrow, -⟩ := stepRunsTheFetchedInstruction _ _ hu
  obtain ⟨hnext, -⟩ := hrow r i hb hr ha
  have hstep := (hnext _ (he ts)).trans (congrArg Host.Outcome.next (hrest ts))
  exact traceEntry_of_issued (issued_of_row hu hb hr ha) ▸ State.shows_one hstep

/-- A completion of the radio, its shortcut delivered in the same step (R163 to R168). -/
theorem plays_radio {s : State} (idle : Bool) (hpow : s.radio.powered = true) (hpend : s.radio.pending = []) :
    s.plays [.radio (.complete idle false)] [] (s.withRadio (s.radio.complete idle false s.tick)).spend := by
  intro ts
  have hturn : radioTurn (.complete idle false) (s.withTurns (.radio (.complete idle false) :: ts)) =
      s.radio.complete idle false s.tick := by
    simp [radioTurn, hpow, hpend]
  have hstep : step (s.withTurns (.radio (.complete idle false) :: ts)) =
      .next ((s.withRadio (s.radio.complete idle false s.tick)).spend.withTurns ts) := by
    rw [← hturn]; rfl
  exact State.shows_one hstep

/-! ### A command in progress -/

/-- Command `c` of `b` stands at step `n`, `SEQ` by the tables; the radio is `r`, the return lines hold `v`, and `k` is the
free-value counter. -/
def State.stage (b : State) (c : Cmd) (n : Nat) (r : Radio) (v : ReadVal) (k : Nat) : State :=
  { b with
    sq := { b.sq with busy := true, cmd := c, seq := seqAt c n, step := n, pollcnt := 0 }
    radio := r
    portVal := v
    tick := k }

/-- The same at a target: at another step, or completed. -/
def State.reached (b : State) (c : Cmd) (goal : Target) (r : Radio) (v : ReadVal) (k : Nat) : State :=
  match goal with
  | .step m => b.stage c m r v k
  | .done => finish (b.stage c 0 r v k)

/-- Where the tables have `SEQ`, a row's step moves it to where they have it at its target (R123). -/
theorem seqMoved_targetOk {v : State} {r : Row} {k : Target} (hr : rowAt v.sq.cmd v.sq.step = some r)
    (hs : v.sq.seq = seqAt v.sq.cmd v.sq.step) (hk : r.next.target v = some k) :
    targetOk v.sq.cmd v.seqMoved.sq.seq v.sq.step k = true := by
  have hok := rowAt_ok hr
  change targetOk v.sq.cmd (seqAfter v.sq.cmd v.sq.step (decide (v.portVal = .latch true)) v.sq.seq) v.sq.step k = true
  rw [hs]
  cases hn : r.next with
  | go k' =>
    simp only [hn, Next.target, Option.some.injEq] at hk
    simp only [rowOk, hn, Bool.and_eq_true] at hok
    subst hk
    cases decide (v.portVal = .latch true) <;> simp only [hok]
  | ifDisabled yes no | ifHold yes no =>
    simp only [hn, Next.target, Option.some.injEq] at hk
    simp only [rowOk, hn, Bool.and_eq_true] at hok
    subst hk
    split <;> cases decide (v.portVal = .latch true) <;> simp only [hok]
  | ifSet yes no =>
    simp only [hn, Next.target] at hk
    simp only [rowOk, hn, Bool.and_eq_true] at hok
    by_cases hit : v.portVal = .latch true
    · simp only [hit, if_true, Option.some.injEq] at hk
      simp only [hit, decide_true, ← hk, hok]
    · simp only [hit, if_false, reduceCtorEq] at hk

/-- `SEQ` is all that `seqMoved` writes. -/
theorem State.seqMoved_eq {v : State} {q : Seq} (h : v.seqMoved.sq.seq = q) : v.seqMoved = v.withSq { v.sq with seq := q } := by
  subst h; rfl

/-- A command begins with `SEQ = Idle` (R60). -/
theorem seqAt_zero (c : Cmd) : seqAt c 0 = .idle := by cases c <;> rfl

theorem advance_stage {b : State} {c : Cmd} {n : Nat} {r : Radio} {v : ReadVal} {k : Nat} {row : Row} {goal : Target}
    (hr : rowAt c n = some row) (hk : row.next.target (b.stage c n r v k) = some goal) :
    advance (b.stage c n r v k) = b.reached c goal r v k := by
  have hok := seqMoved_targetOk (v := b.stage c n r v k) hr rfl hk
  rw [advance_eq_target (v := b.stage c n r v k) hr, hk]
  cases goal with
  | step m =>
    obtain ⟨-, -, -, hseq⟩ := of_decide_eq_true hok
    rw [State.seqMoved_eq hseq]
    rfl
  | done =>
    simp only [targetOk, Bool.and_eq_true, decide_eq_true_eq] at hok
    rw [State.seqMoved_eq (hok.1.trans (seqAt_zero c).symm)]
    rfl

/-- A row's step, from step `n` to the target that its "next" column selects. -/
theorem stage_row {b b' : State} {c : Cmd} {n : Nat} {r r' : Radio} {v v' : ReadVal} {k k' : Nat} {next : Next}
    (i : Instr) (goal : Target) (hr : rowAt c n = some ⟨.run i, next⟩)
    (he : ∀ ts, exec i ((b.stage c n r v k).withTurns ts) = .next ((b'.stage c n r' v' k').withTurns ts))
    (hk : next.target (b'.stage c n r' v' k') = some goal) :
    (b.stage c n r v k).plays [.sequencer] (entriesOf i (b.stage c n r v k)) (b'.reached c goal r' v' k') :=
  plays_row rfl hr rfl he fun ts => (advance_stage (b := b'.withTurns ts) hr hk).trans (by cases goal <;> rfl)

/-- A read of `STATE` (R81). -/
theorem stage_read {b : State} {c : Cmd} {n : Nat} {r : Radio} {k : Nat} {next : Next} {goal : Target} (v : ReadVal)
    (hr : rowAt c n = some ⟨.run .regrdState, next⟩)
    (hk : next.target (b.stage c n r (.state r.rstate) k) = some goal) :
    (b.stage c n r v k).plays [.sequencer] [⟨0x2F, 0, .state r.rstate⟩] (b.reached c goal r (.state r.rstate) k) :=
  stage_row .regrdState goal hr (fun _ => rfl) hk

/-- The instruction that triggers a task (R82). -/
def triggerOf : PortTask → Instr
  | .txen => .taskTxen
  | .start => .taskStart
  | .disable => .taskDisable
  | .rxen => .taskRxen

theorem exec_triggerOf (t : PortTask) (s : State) : exec (triggerOf t) s = .next (trigger t s) := by
  cases t <;> rfl

/-- A trigger in a command whose radio is held to its rules (R82, R130). -/
theorem stage_trigger {b : State} {c : Cmd} {n : Nat} {r r' : Radio} {v : ReadVal} {k : Nat} {goal : Target} (t : PortTask)
    (hconf : c.isTx = false ∨ b.sq.profile ≠ .none) (hr : rowAt c n = some ⟨.run (triggerOf t), .go goal⟩)
    (hreact : r.react false (.port t) k = r') :
    (b.stage c n r v k).plays [.sequencer] (entriesOf (triggerOf t) (b.stage c n r v k)) (b.reached c goal r' v (k + 1)) := by
  refine stage_row (triggerOf t) goal hr (fun ts => ?_) rfl
  rw [exec_triggerOf, trigger_of_configured t (State.unconfiguredTx_eq_false hconf), ← hreact]
  rfl

/-! ### A wait -/

/-- The word that reads an event's latch (R62). -/
def pollWord : PortEvent → Byte
  | .txready => 0x60
  | .phyend => 0x61
  | .disabled => 0x62

/-- A poll as the port shows it. -/
def pollEntry (e : PortEvent) (hit : Bool) : TraceEntry := ⟨pollWord e, 0, .latch hit⟩

theorem entriesOf_pollOf (e : PortEvent) (s : State) : entriesOf (pollOf e) s = [pollEntry e (s.radio.ev.get e)] := by
  cases e <;> rfl

theorem exec_pollOf (e : PortEvent) (s : State) : exec (pollOf e) s = .next (evRead e s) := by
  cases e <;> rfl

/-- What a wait shows that ends after `polls` unsuccessful polls (R86). -/
def waitEntries (e : PortEvent) (polls : Nat) : List TraceEntry :=
  List.replicate polls (pollEntry e false) ++ [pollEntry e true]

theorem waitEntries_words (e : PortEvent) (polls : Nat) :
    (waitEntries e polls).map (·.word) = List.replicate (polls + 1) (pollWord e) := by
  simp [waitEntries, pollEntry, List.replicate_succ']

section Wait

variable {b : State} {c : Cmd} {n : Nat} {r r' : Radio} {k : Nat} {e : PortEvent} {yes no : Target}

/-- A poll puts the latch on the return lines (R83). -/
theorem exec_pollOf_stage (v : ReadVal) {hit : Bool} (he : r.ev.get e = hit) (ts : List Turn) :
    exec (pollOf e) ((b.stage c n r v k).withTurns ts) = .next ((b.stage c n r (.latch hit) k).withTurns ts) := by
  rw [exec_pollOf, ← he]; rfl

/-- An unsuccessful poll of an unbounded wait leaves the command where it is (R86). -/
theorem stage_miss (v : ReadVal) (hbound : b.cfg.waitBound = none)
    (hr : rowAt c n = some ⟨.run (pollOf e), .ifSet yes no⟩) (he : r.ev.get e = false) :
    (b.stage c n r v k).plays [.sequencer] [pollEntry e false] (b.stage c n r (.latch false) k) := by
  have hok := rowAt_ok hr
  simp only [rowOk, Bool.and_eq_true, decide_eq_true_eq] at hok
  have hstay (ts : List Turn) : advance ((b.stage c n r (.latch false) k).withTurns ts) =
      (b.stage c n r (.latch false) k).withTurns ts := by
    rw [advance_eq_target (v := (b.stage c n r (.latch false) k).withTurns ts) hr]
    refine (pollMissed_of_unbounded (s := ((b.stage c n r (.latch false) k).withTurns ts).seqMoved) hbound).trans ?_
    exact State.seqMoved_eq (v := (b.stage c n r (.latch false) k).withTurns ts) hok.2
  have hplays := plays_row (s := b.stage c n r v k) rfl hr rfl (exec_pollOf_stage v he) hstay
  rw [entriesOf_pollOf] at hplays
  exact he ▸ hplays

/-- A poll that reads 1 goes on (R86). -/
theorem stage_hit (v : ReadVal) (hr : rowAt c n = some ⟨.run (pollOf e), .ifSet yes no⟩) (he : r.ev.get e = true) :
    (b.stage c n r v k).plays [.sequencer] [pollEntry e true] (b.reached c yes r (.latch true) k) := by
  have hplays := stage_row (pollOf e) yes hr (exec_pollOf_stage (b := b) (k := k) v he) rfl
  rw [entriesOf_pollOf] at hplays
  exact he ▸ hplays

/-- A wait with a radio that completes after any number of unsuccessful polls (R86, R172). -/
theorem stage_wait (polls : Nat) (v : ReadVal) (hbound : b.cfg.waitBound = none)
    (hr : rowAt c n = some ⟨.run (pollOf e), .ifSet yes no⟩) (hclear : r.ev.get e = false) (hpow : r.powered = true)
    (hpend : r.pending = []) (hcomplete : r.complete true false k = r') (hset : r'.ev.get e = true) :
    (b.stage c n r v k).plays (seqTurns polls ++ [radioCompletes, .sequencer]) (waitEntries e polls)
      (b.reached c yes r' (.latch true) (k + 1)) := by
  induction polls generalizing v with
  | zero =>
    have answered : (b.stage c n r v k).plays [radioCompletes] [] (b.stage c n r' v (k + 1)) :=
      hcomplete ▸ plays_radio (s := b.stage c n r v k) true hpow hpend
    exact answered.trans (stage_hit v hr hset)
  | succ polls ih => exact (stage_miss v hbound hr hclear).trans (ih (.latch false))

/-- The acknowledgement (R84, R124). -/
theorem stage_clear {goal : Target} {next : Next} (v : ReadVal) (hr : rowAt c n = some ⟨.run (clearOf e), next⟩)
    (hk : next.target (b.stage c n { r with ev := r.ev.put e false } v k) = some goal) :
    (b.stage c n r v k).plays [.sequencer] (entriesOf (clearOf e) (b.stage c n r v k))
      (b.reached c goal { r with ev := r.ev.put e false } v k) :=
  stage_row (clearOf e) goal hr (fun _ => by cases e <;> rfl) hk

end Wait

/-! ### `DIS` -/

/-- The ramp-down that a `disable` starts (R166, R167). -/
def rampDown : RState → RState
  | .rxRampUp | .rxIdle | .cca | .rxDisable => .rxDisable
  | .disabled | .txRampUp | .txIdle | .tx | .txDisable | .other _ => .txDisable

theorem Radio.react_disable {r : Radio} (hpow : r.powered = true) (hq : r.rstate ≠ .disabled) (via : Bool) (tick : Nat) :
    r.react via (.port .disable) tick = { r with rstate := rampDown r.rstate } := by
  cases h : r.rstate with
  | disabled => exact absurd h hq
  | _ => simp [Radio.react, hpow, h, rampDown]

/-- An event that triggers nothing sets its latch (R168). -/
theorem Radio.fire_of_no_tasks {r : Radio} {e : RadioEvent} (h : tasksOf r.regs.shorts e = []) (tick : Nat) :
    r.fire e false tick = r.latch e := by
  simp only [Radio.fire, Bool.false_eq_true, if_false, h, List.foldl_nil]

theorem Radio.complete_rampDown {r : Radio} (hshorts : tasksOf r.regs.shorts (.port .disabled) = []) (q : RState)
    (idle : Bool) (tick : Nat) :
    ({ r with rstate := rampDown q } : Radio).complete idle false tick =
      { r with rstate := .disabled, ev := r.ev.put .disabled true } := by
  have hq : rampDown q = .txDisable ∨ rampDown q = .rxDisable := by cases q <;> simp [rampDown]
  obtain h | h := hq <;> rw [h] <;> exact Radio.fire_of_no_tasks (r := { r with rstate := .disabled }) hshorts tick

/-- Clearing a latch that was clear before it was set. -/
theorem Latches.put_get (l : Latches) (e : PortEvent) (v : Bool) : (l.put e v).put e (l.get e) = l := by
  cases e <;> rfl

/-- What `DIS` shows with the radio in state `q` (R150). -/
def disEntries (q : RState) (polls : Nat) : List TraceEntry :=
  [⟨0x2F, 0, .state q⟩, ⟨0x42, 0, .none⟩] ++ waitEntries .disabled polls ++ [⟨0x82, 0, .none⟩]

/-- `DIS` with a radio that is not `Disabled` and completes its ramp-down after `polls` unsuccessful polls: of the radio only its
state changes (R150, R166, R172). -/
theorem stage_dis {b : State} {c : Cmd} {p : Nat} {goal : Target} {r : Radio} (v : ReadVal) (k polls : Nat)
    (hrows : ∃ rest, (program c).drop p = disRows p goal ++ rest) (hbound : b.cfg.waitBound = none)
    (hconf : c.isTx = false ∨ b.sq.profile ≠ .none) (hpow : r.powered = true) (hpend : r.pending = [])
    (hq : r.rstate ≠ .disabled) (hev : r.ev.get .disabled = false)
    (hshorts : tasksOf r.regs.shorts (.port .disabled) = []) :
    (b.stage c p r v k).plays (seqTurns 2 ++ (seqTurns polls ++ [radioCompletes, .sequencer]) ++ [.sequencer])
      (disEntries r.rstate polls) (b.reached c goal { r with rstate := .disabled } (.latch true) (k + 2)) := by
  obtain ⟨rest, hrows⟩ := hrows
  obtain ⟨row0, hrows⟩ := rowAt_of_drop hrows
  obtain ⟨row1, hrows⟩ := rowAt_of_drop hrows
  obtain ⟨row2, hrows⟩ := rowAt_of_drop hrows
  obtain ⟨row3, -⟩ := rowAt_of_drop hrows
  have hgo : (Next.ifDisabled goal (.step (p + 1))).target (b.stage c p r (.state r.rstate) k) = some (.step (p + 1)) := by
    simp [Next.target, State.stage, hq]
  have hcleared : (r.ev.put .disabled true).put .disabled false = r.ev := hev ▸ r.ev.put_get .disabled true
  have read := stage_read v row0 hgo
  have triggered := stage_trigger (b := b) (v := .state r.rstate) .disable hconf row1 (Radio.react_disable hpow hq false k)
  have waited := stage_wait (b := b) (r := { r with rstate := rampDown r.rstate }) (k := k + 1) (e := .disabled) polls
    (.state r.rstate) hbound row2 hev hpow hpend (Radio.complete_rampDown hshorts r.rstate true (k + 1)) rfl
  have cleared := stage_clear (b := b) (r := { r with rstate := .disabled, ev := r.ev.put .disabled true }) (k := k + 2)
    (e := .disabled) (.latch true) row3 rfl
  rw [hcleared] at cleared
  exact ((read.trans triggered).trans waited).trans cleared

end Sys2Proof.Machine
end

