-- ==== Sys2Proof/Proofs/TransmitCommands.lean ====
section
/-! SUPPORT. The transmit commands from clean entry to their end (42_transmit.md R122, R126, R128): the steps both share (`tx_setsUp`),
the `TXP` with a radio that responds (`txp_completes`), and the `TXS` with its chain of shortcuts (`plays_chain`). -/

namespace Sys2Proof.Machine

/-! ### From clean entry to step 8 -/

/-- A powered radio with registers `g` and nothing pending, in a run that keeps to the spec: in state `q`, with latches `l`,
having read `air`. -/
def Radio.orderly (g : Regs) (q : RState) (l : Latches) (air : List (Nat × Byte)) : Radio :=
  { rstate := q, powered := true, regs := g, ev := l, pending := [], air := air, strayed := false }

/-- A clean radio (R212) with registers `g`, having read `air`. -/
def Radio.quiet (g : Regs) (air : List (Nat × Byte)) : Radio := .orderly g .disabled Latches.clear air

theorem Radio.clean.eq_quiet {r : Radio} (h : r.clean) : r = .quiet r.regs r.air := by
  obtain ⟨hq, hev, hpend, hpow, hstray⟩ := h
  cases r
  simp only at hq hev hpend hpow hstray
  subst hq hev hpend hpow hstray
  rfl

/-- The registers once a transmit command has written its two (R122, R126). -/
def Regs.setUp (g : Regs) (addr : Nat) (img : ShortsImage) : Regs := { g with pktptr := addr, shorts := shortsOf img }

/-- The operands that acceptance latches, with the payload buffer the host offered (R60, R61). -/
def State.withOperands (s : State) (h : Bool) (len : Half) : State :=
  (s.withSq { s.sq with hold := h, len := len }).withHost
    { s.host with offer := none, payload := s.host.offerData, payloadTouched := s.host.offerTouched }

/-- The operands latched and the frame in the buffer `m`. -/
def State.loaded (s : State) (h : Bool) (len : Half) (m : Memory) : State := (s.withOperands h len).withTxbuf m

/-- Acceptance leads to step 0 (R60, R61). -/
theorem plays_acceptTx {s : State} {c : Cmd} {h : Bool} {cmd : Byte} {len : Half} {i : Instr} (hb : s.sq.busy = false)
    (hseq : s.sq.seq = .idle) (ho : s.host.offer = some ⟨cmd, len⟩) (hd : decodeCommand cmd len = .ok i)
    (haccept : ∀ u, exec i u = .next (acceptTx c h len u)) :
    s.plays [.sequencer] [] ((s.withOperands h len).stage c 0 s.radio s.portVal s.tick) := by
  intro ts
  have hstage : acceptTx c h len (s.withTurns ts) =
      ((s.withOperands h len).stage c 0 s.radio s.portVal s.tick).withTurns ts := by
    rw [acceptTx_of_idle c h len (s := s.withTurns ts) hb, State.stage, seqAt_zero, ← hseq]
    rfl
  have hrun := runs_acceptance (s := s.withTurns (.sequencer :: ts)) (u := s.withTurns ts) rfl hb ho hd (haccept _)
  exact hstage ▸ hrun.shows

/-- The length check leads to step 1 (R121). -/
theorem stage_lengthCheck {b : State} {c : Cmd} {r : Radio} {v : ReadVal} {k : Nat} (hc : c.isTx = true)
    (hlen : b.sq.len.toNat < b.cfg.maxPacketLen - 1) :
    (b.stage c 0 r v k).plays [.sequencer] [] (b.stage c 1 r v k) := by
  intro ts
  obtain ⟨hsilent, -, hfits⟩ := lengthCheckRejectsOversize ((b.stage c 0 r v k).withTurns (.sequencer :: ts))
    ((b.stage c 0 r v k).withTurns ts) rfl rfl hc rfl
  have hshows := State.shows_one (hfits hlen)
  have hseq : seqAt c 0 = seqAt c 1 := by cases c <;> rfl
  rw [hsilent] at hshows
  simp only [State.stage, hseq] at hshows ⊢
  exact hshows

/-- The frame does not depend on the moves to come. -/
theorem exec_frame_withTurns {s : State} {m : Memory} (h : exec .frame s = .next (s.withTxbuf m).spend) (ts : List Turn) :
    exec .frame (s.withTurns ts) = .next ((s.withTxbuf m).spend.withTurns ts) := by
  obtain ⟨m', hm, heq⟩ := execFrame_next h
  obtain rfl : m = m' := congrArg State.txbuf heq
  have hm' : Memory.writeBytes (s.withTurns ts).cfg.maxPacketLen 0 (frameBytes (s.withTurns ts)) (s.withTurns ts).txbuf =
      some m := hm
  simp only [exec, execFrame, hm']
  rfl

/-- Steps 1 to 7 of both transmit commands when the radio is `Disabled` (R122, R126). -/
theorem rowAt_setUp {c : Cmd} (hc : c.isTx = true) :
    rowAt c 1 = some ⟨.run .regrdState, .ifDisabled (.step 5) (.step 2)⟩ ∧
    rowAt c 5 = some ⟨.run .frame, .go (.step 6)⟩ ∧
    rowAt c 6 = some ⟨.run .regwrPktptr, .go (.step 7)⟩ ∧
    rowAt c 7 = some ⟨.run (.regwrShorts (shortsImageOf c)), .go (.step 8)⟩ := by
  cases c with
  | txp | txs => exact ⟨rfl, rfl, rfl, rfl⟩
  | disable | cfgStd | cfgLr => cases hc

/-- What a transmit command shows up to step 8: one read of `STATE` and two register writes (R122, R126). -/
def setUpEntries (c : Cmd) : List TraceEntry :=
  [⟨0x2F, 0, .state .disabled⟩, ⟨0x0E, 0, .none⟩, ⟨0x0D, BitVec.ofNat 16 (shortsImageOf c).imageNumber, .none⟩]

/-- Steps 1 to 8 of a transmit command with a clean radio: one read of `STATE`, the frame, `PKTPTR` and `SHORTS`. -/
theorem stage_setsUp {b : State} {c : Cmd} (g : Regs) (air : List (Nat × Byte)) (v : ReadVal) (k : Nat) (hc : c.isTx = true)
    (hlen : b.sq.len.toNat < b.cfg.maxPacketLen - 1) :
    ∃ m, (b.stage c 5 (.quiet g air) (.state .disabled) k).framed b.txbuf m ∧
      (b.stage c 1 (.quiet g air) v k).plays (seqTurns 4) (setUpEntries c)
        ((b.withTxbuf m).stage c 8 (.quiet (g.setUp b.cfg.txbufAddr (shortsImageOf c)) air) (.state .disabled) (k + 1)) := by
  obtain ⟨row1, row5, row6, row7⟩ := rowAt_setUp hc
  obtain ⟨m, hm, hframed, -⟩ := exec_frame_of_fits (s := b.stage c 5 (.quiet g air) (.state .disabled) k) hlen
  have read := stage_read (b := b) (r := .quiet g air) (k := k) (goal := .step 5) v row1 rfl
  have framed := stage_row (b' := b.withTxbuf m) .frame (.step 6) row5 (exec_frame_withTurns hm) rfl
  have pointed : ((b.withTxbuf m).stage c 6 (.quiet g air) (.state .disabled) (k + 1)).plays [.sequencer]
      [⟨0x0E, 0, .none⟩]
      ((b.withTxbuf m).stage c 7 (.quiet { g with pktptr := b.cfg.txbufAddr } air) (.state .disabled) (k + 1)) :=
    stage_row .regwrPktptr (.step 7) row6 (fun _ => rfl) rfl
  have chained : ((b.withTxbuf m).stage c 7 (.quiet { g with pktptr := b.cfg.txbufAddr } air) (.state .disabled)
        (k + 1)).plays [.sequencer]
      [⟨0x0D, BitVec.ofNat 16 (shortsImageOf c).imageNumber, .none⟩]
      ((b.withTxbuf m).stage c 8 (.quiet (g.setUp b.cfg.txbufAddr (shortsImageOf c)) air) (.state .disabled) (k + 1)) :=
    stage_row (.regwrShorts (shortsImageOf c)) (.step 8) row7 (fun _ => rfl) rfl
  exact ⟨m, hframed, ((read.trans framed).trans pointed).trans chained⟩

/-- A transmit command offered at clean entry, its payload short enough: six turns of the sequencer lead to step 8. -/
theorem tx_setsUp {s : State} {c : Cmd} {h : Bool} {cmd : Byte} {len : Half} {i : Instr} (hinv : s.Inv)
    (hclean : s.radio.clean) (hb : s.sq.busy = false) (hc : c.isTx = true) (ho : s.host.offer = some ⟨cmd, len⟩)
    (hd : decodeCommand cmd len = .ok i) (haccept : ∀ u, exec i u = .next (acceptTx c h len u))
    (hlen : len.toNat < s.cfg.maxPacketLen - 1) :
    ∃ m, (s.withOperands h len).framed s.txbuf m ∧ s.plays (seqTurns 6) (setUpEntries c)
      ((s.loaded h len m).stage c 8 (.quiet (s.radio.regs.setUp s.cfg.txbufAddr (shortsImageOf c)) s.radio.air)
        (.state .disabled) (s.tick + 1)) := by
  obtain ⟨-, -, -, -, hrest, -⟩ := hinv
  obtain ⟨-, hseq, -⟩ := hrest hb
  have accepted := plays_acceptTx hb hseq ho hd haccept
  rw [hclean.eq_quiet] at accepted
  have checked := stage_lengthCheck (b := s.withOperands h len) (v := s.portVal) (k := s.tick)
    (r := .quiet s.radio.regs s.radio.air) hc hlen
  obtain ⟨m, hframed, setUp⟩ := stage_setsUp (b := s.withOperands h len) s.radio.regs s.radio.air s.portVal s.tick hc hlen
  exact ⟨m, hframed, (accepted.trans checked).trans setUp⟩

/-! ### O50: `TXP` -/

/-- Steps 10 to 12 of a `TXP`: the clear, the hold if it is asked for, and `START` (R122, R125). -/
def startTurns (h : Bool) : List Turn := seqTurns (if h then 3 else 2)

def startEntries (h : Bool) : List TraceEntry :=
  [⟨0x80, 0, .none⟩] ++ (if h then [⟨0xA2, 0, .none⟩] else []) ++ [⟨0x41, 0, .none⟩]

theorem txp_starts {b : State} {g : Regs} {air : List (Nat × Byte)} {v : ReadVal} {k : Nat} (hprof : b.sq.profile ≠ .none) :
    (b.stage .txp 10 (.orderly g .txIdle (Latches.only .txready) air) v k).plays (startTurns b.sq.hold)
      (startEntries b.sq.hold) (b.stage .txp 13 (.orderly g .tx Latches.clear []) v (k + 1)) := by
  have cleared := stage_clear (b := b) (c := .txp) (n := 10) (k := k) (r := .orderly g .txIdle (Latches.only .txready) air)
    (e := .txready) (goal := if b.sq.hold then .step 11 else .step 12) v rfl rfl
  have held := stage_row (b := b) (c := .txp) (n := 11) (v := v) (k := k) (r := .orderly g .txIdle Latches.clear air)
    .delayHoldCarrier (.step 12) rfl (fun _ => rfl) rfl
  have started := stage_trigger (b := b) (c := .txp) (n := 12) (v := v) (k := k)
    (r := .orderly g .txIdle Latches.clear air) .start (.inr hprof) rfl rfl
  cases hh : b.sq.hold <;> rw [hh] at cleared
  · exact cleared.trans started
  · exact (cleared.trans held).trans started

/-- The moves of `txpTurns` after the first six. -/
def txpTurnsArmed (h : Bool) (x y z : Nat) : List Turn :=
  [.sequencer] ++ (seqTurns x ++ [radioCompletes, .sequencer]) ++ startTurns h ++
    (seqTurns y ++ [radioCompletes, .sequencer]) ++ [.sequencer] ++
    (seqTurns 2 ++ (seqTurns z ++ [radioCompletes, .sequencer]) ++ [.sequencer])

/-- What a `TXP` shows after its first three words. -/
def txpEntriesArmed (h : Bool) (x y z : Nat) : List TraceEntry :=
  [⟨0x40, 0, .none⟩] ++ waitEntries .txready x ++ startEntries h ++ waitEntries .phyend y ++ [⟨0x81, 0, .none⟩] ++
    disEntries .txIdle z

/-- A `TXP` from step 8 to its end, with a radio that responds after `x`, `y` and `z` unsuccessful polls (R122, R172). -/
theorem txp_completes {b : State} {g : Regs} {air : List (Nat × Byte)} {v : ReadVal} {k : Nat} (x y z : Nat)
    (hprof : b.sq.profile ≠ .none) (hbound : b.cfg.waitBound = none) (hshorts : g.shorts = []) :
    (b.stage .txp 8 (.quiet g air) v k).plays (txpTurnsArmed b.sq.hold x y z) (txpEntriesArmed b.sq.hold x y z)
      (b.reached .txp .done (.quiet g []) (.latch true) (k + 6)) := by
  have hnone (e : RadioEvent) : tasksOf g.shorts e = [] := by rw [hshorts]; rfl
  have hready : (Radio.orderly g .txRampUp Latches.clear air).complete true false (k + 1) =
      .orderly g .txIdle (Latches.only .txready) air := Radio.fire_of_no_tasks (hnone _) _
  have hsent : (Radio.orderly g .tx Latches.clear []).complete true false (k + 3) =
      .orderly g .txIdle (Latches.only .phyend) [] := Radio.fire_of_no_tasks (hnone _) _
  have enabled := stage_trigger (b := b) (c := .txp) (n := 8) (v := v) (k := k)
    (r := .quiet g air) .txen (.inr hprof) rfl rfl
  have ready := stage_wait (b := b) (c := .txp) (n := 9) (e := .txready) x v hbound rfl rfl rfl rfl hready rfl
  have started := txp_starts (g := g) (air := air) (v := .latch true) (k := k + 2) hprof
  have sent := stage_wait (b := b) (c := .txp) (n := 13) (e := .phyend) y (.latch true) hbound rfl rfl rfl rfl hsent rfl
  have cleared := stage_clear (b := b) (c := .txp) (n := 14) (k := k + 4)
    (r := .orderly g .txIdle (Latches.only .phyend) []) (e := .phyend) (.latch true) rfl rfl
  have disabled := stage_dis (b := b) (c := .txp) (p := 15) (goal := .done) (r := .orderly g .txIdle Latches.clear [])
    (.latch true) (k + 4) z ⟨[], rfl⟩ hbound (.inr hprof) rfl rfl nofun rfl (hnone _)
  exact ((((enabled.trans ready).trans started).trans sent).trans cleared).trans disabled

theorem seqTurns_add (m n : Nat) : seqTurns (m + n) = seqTurns m ++ seqTurns n :=
  List.replicate_append_replicate.symm

theorem txpTurns_eq (h : Bool) (x y z : Nat) : txpTurns h x y z = seqTurns 6 ++ txpTurnsArmed h x y z := by
  have hfirst : seqTurns (7 + x) = seqTurns 6 ++ ([.sequencer] ++ seqTurns x) := seqTurns_add 7 x
  cases h <;> simp only [txpTurns, txpTurnsArmed, startTurns, hfirst, List.append_assoc] <;> rfl

theorem txpEntries_words (h : Bool) (x y z : Nat) :
    (setUpEntries .txp ++ txpEntriesArmed h x y z).map (·.word) = txpWords h x y z := by
  cases h <;>
    simp [setUpEntries, txpEntriesArmed, startEntries, disEntries, waitEntries_words, pollWord, txpWords]

/-- The frame of an accepted command, its payload kept in place, as the host offered it (R53, R65, R120). -/
theorem framed_offer {s : State} {h : Bool} {len : Half} {m : Memory} (hframed : (s.withOperands h len).framed s.txbuf m)
    (hwf : s.cfg.wf = true) (htouched : s.host.offerTouched = false) (hdata : s.host.offerData.length = len.toNat)
    (hlen : len.toNat < s.cfg.maxPacketLen - 1) :
    (∃ b0, m.read 0 = some b0 ∧ b0.toNat = len.toNat + 2) ∧
    (∀ i, i < len.toNat → m.read (1 + i) = s.host.offerData[i]?) ∧
    (∀ i, len.toNat < i → m.read i = s.txbuf.read i) := by
  obtain ⟨hfirst, hpayload, hrest⟩ := hframed
  have hmax : s.cfg.maxPacketLen ≤ 255 := by
    simp only [Params.wf, Bool.and_eq_true, decide_eq_true_eq] at hwf
    obtain ⟨⟨⟨⟨-, hmax⟩, -⟩, -⟩, -⟩ := hwf
    exact hmax
  refine ⟨⟨_, hfirst, lengthByte_toNat (len := len) (by omega)⟩, fun i hi => ?_, hrest⟩
  have hkept : i < (s.withOperands h len).host.payload.length := hdata.symm ▸ hi
  exact (hpayload i hi).trans (payloadByte_of_kept (s := s.withOperands h len) htouched hkept)

/-- Settles O50: six turns to step 8, then `txp_completes`. -/
theorem txpCompletesWithARespondingRadio : Obligations.TxpCompletesWithARespondingRadio := by
  intro s h len a b c rest hinv hbound hclean hb hprof ho htouched hdata hlen hturns
  obtain ⟨m, hframed, hsetUp⟩ := tx_setsUp (c := .txp) (h := h) (i := .txp h len) hinv hclean hb rfl ho (by cases h <;> rfl)
    (fun _ => rfl) hlen
  have completes : ((s.loaded h len m).stage .txp 8 (.quiet (s.radio.regs.setUp s.cfg.txbufAddr .empty) s.radio.air)
      (.state .disabled) (s.tick + 1)).plays (txpTurnsArmed h a b c) (txpEntriesArmed h a b c) _ :=
    txp_completes a b c hprof hbound rfl
  obtain ⟨hrun, htrace⟩ := (hsetUp.trans completes) rest
  rw [← txpTurns_eq, ← hturns, State.withTurns_turns_self] at hrun htrace
  obtain ⟨hfirst, hpayload, hrest⟩ := framed_offer hframed hinv.1 htouched hdata hlen
  exact ⟨htrace ▸ txpEntries_words h a b c, _, hrun, rfl, rfl, rfl, rfl, rfl, ⟨rfl, rfl, rfl, rfl, rfl⟩, rfl, rfl, hfirst,
    hpayload, hrest⟩

/-! ### O51, O52: `TXS` -/

/-- The radio's state after `n` of the chain's completions, the channel idle (R127, R167). -/
def chainState : Nat → RState
  | 0 => .rxRampUp
  | 1 => .cca
  | 2 => .txRampUp
  | 3 => .tx
  | 4 => .txDisable
  | _ => .disabled

/-- The latches that are set by then. -/
def chainLatches (n : Nat) : Latches :=
  { txready := decide (3 ≤ n), phyend := decide (4 ≤ n), disabled := decide (5 ≤ n) }

/-- A radio with the chain programmed, `n` of its completions after `RXEN`; the third starts a new packet. -/
def Radio.chained (g : Regs) (air : List (Nat × Byte)) (n : Nat) : Radio :=
  .orderly g (chainState n) (chainLatches n) (if n < 3 then air else [])

theorem Radio.chained_complete {g : Regs} (hshorts : g.shorts = shortsChain) (air : List (Nat × Byte)) {n : Nat} (hn : n < 5)
    (k : Nat) : (Radio.chained g air n).complete true false k = .chained g air (n + 1) := by
  cases g
  subst hshorts
  match n, hn with
  | 0, _ | 1, _ | 2, _ | 3, _ | 4, _ => rfl
  | n + 5, hn => omega

theorem plays_chain {b : State} {c : Cmd} {n : Nat} {v : ReadVal} {k : Nat} {g : Regs} (hshorts : g.shorts = shortsChain)
    (air : List (Nat × Byte)) {m : Nat} (hm : m ≤ 5) :
    (b.stage c n (.chained g air 0) v k).plays (List.replicate m radioCompletes) []
      (b.stage c n (.chained g air m) v (k + m)) := by
  induction m with
  | zero => exact fun _ => ⟨rfl, rfl⟩
  | succ m ih =>
    have completes := plays_radio (s := b.stage c n (.chained g air m) v (k + m)) true rfl rfl
    have hnext := Radio.chained_complete hshorts air (Nat.lt_of_succ_le hm) (k + m)
    rw [List.replicate_succ']
    exact (ih (Nat.le_of_succ_le hm)).trans (hnext ▸ completes)

/-- The registers of a `TXS` from step 8 on (R126). -/
def State.chainRegs (s : State) : Regs := s.radio.regs.setUp s.cfg.txbufAddr .chain

/-- A `TXS` offered at clean entry, up to its delay (R126). -/
theorem txs_starts {s : State} {h : Bool} {len : Half} (hinv : s.Inv) (hclean : s.radio.clean) (hb : s.sq.busy = false)
    (hprof : s.sq.profile ≠ .none) (ho : s.host.offer = some ⟨if h then 0x1A else 0x12, len⟩)
    (hlen : len.toNat < s.cfg.maxPacketLen - 1) :
    ∃ m, s.plays (seqTurns 7) (setUpEntries .txs ++ [⟨0x43, 0, .none⟩])
      ((s.loaded h len m).stage .txs 9 (.chained s.chainRegs s.radio.air 0) (.state .disabled) (s.tick + 2)) := by
  obtain ⟨m, -, hsetUp⟩ := tx_setsUp (c := .txs) (h := h) (i := .txs h len) hinv hclean hb rfl ho (by cases h <;> rfl)
    (fun _ => rfl) hlen
  have enabled := stage_trigger (b := s.loaded h len m) (c := .txs) (n := 8) (v := .state .disabled)
    (k := s.tick + 1) (r := .quiet s.chainRegs s.radio.air) .rxen (.inr hprof) rfl rfl
  exact ⟨m, hsetUp.trans enabled⟩

/-- The delay of a `TXS` (R85, R126). -/
theorem txs_delays (b : State) (r : Radio) (v : ReadVal) (k : Nat) :
    (b.stage .txs 9 r v k).plays [.sequencer] [⟨0xA3, 0, .none⟩] (b.stage .txs 10 r v k) :=
  stage_row .delayShortsTx (.step 10) rfl (fun _ => rfl) rfl

/-- The chain before its packet has been sent: under way, with no `phyend` raised (R127). -/
theorem chain_of_le_three {n : Nat} (hn : n ≤ 3) :
    chainState n ≠ .disabled ∧ chainLatches n = { txready := decide (n = 3), phyend := false, disabled := false } := by
  match n, hn with
  | 0, _ | 1, _ | 2, _ | 3, _ => exact ⟨nofun, rfl⟩
  | n + 4, hn => omega

/-- The schedule of O52, cut at the delay and at the forced Disable. -/
theorem cutOffTurns_eq (k : Nat) :
    seqTurns 7 ++ List.replicate k radioCompletes ++ seqTurns 3 ++ [radioCompletes] ++ seqTurns 2 =
      seqTurns 7 ++ List.replicate k radioCompletes ++ [.sequencer] ++
        (seqTurns 2 ++ (seqTurns 0 ++ [radioCompletes, .sequencer]) ++ [.sequencer]) := by
  simp [seqTurns, List.replicate_succ]

/-- Settles O52: `k` completions of the chain, then the delay's end and `stage_dis`. -/
theorem txsIsCutOffByTheForcedDisable : Obligations.TxsIsCutOffByTheForcedDisable := by
  intro s h len k hinv hbound hclean hb hprof ho hlen hk hturns
  obtain ⟨m, starts⟩ := txs_starts hinv hclean hb hprof ho hlen
  have chain := plays_chain (b := s.loaded h len m) (c := .txs) (n := 9) (v := .state .disabled)
    (k := s.tick + 2) (g := s.chainRegs) rfl s.radio.air (m := k) (by omega)
  have delays := txs_delays (s.loaded h len m) (.chained s.chainRegs s.radio.air k) (.state .disabled)
    (s.tick + 2 + k)
  obtain ⟨hq, hlatches⟩ := chain_of_le_three hk
  have disabled := stage_dis (b := s.loaded h len m) (c := .txs) (p := 10) (goal := .done)
    (r := .chained s.chainRegs s.radio.air k) (.state .disabled) (s.tick + 2 + k) 0 ⟨[], rfl⟩ hbound (.inr hprof) rfl rfl hq
    (congrArg Latches.disabled hlatches) rfl
  obtain ⟨hrun, htrace⟩ := (((starts.trans chain).trans delays).trans disabled) []
  rw [List.append_nil, ← cutOffTurns_eq, ← hturns] at hrun htrace
  have hlength : s.turns.length = 13 + k := by rw [hturns]; simp [seqTurns]; omega
  rw [hlength, State.withTurns_turns_self] at hrun htrace
  exact ⟨htrace ▸ rfl, _, hrun, rfl, rfl, rfl, rfl, rfl, rfl, hlatches, rfl⟩

/-- Step 9 on with the radio `Disabled` by then, no other agent to move: the delay, and one read of `STATE` (R126). -/
theorem txs_ends {b : State} {r : Radio} {v : ReadVal} {k : Nat} (hq : r.rstate = .disabled) :
    ((b.stage .txs 9 r v k).withTurns []).shows 2 [⟨0xA3, 0, .none⟩, ⟨0x2F, 0, .state .disabled⟩]
      ((b.reached .txs .done r (.state .disabled) k).withTurns []) := by
  have read := stage_read (b := b) (c := .txs) (n := 10) (r := r) (k := k) (goal := .done) v rfl (by rw [hq]; rfl)
  rw [hq] at read
  exact (txs_delays b r v k).unscheduled.trans read.unscheduled

/-- Settles O51: the two schedules part after step 8 and both find the radio `Disabled` at the last read. -/
theorem txsCannotTellWhetherAPacketWasSent : Obligations.TxsCannotTellWhetherAPacketWasSent := by
  rintro s h len hinv hbound hclean hb hprof ho hlen sent refused rfl rfl
  obtain ⟨m, starts⟩ := txs_starts hinv hclean hb hprof ho hlen
  have chain (n : Nat) (hn : n ≤ 5) := plays_chain (b := s.loaded h len m) (c := .txs) (n := 9)
    (v := .state .disabled) (k := s.tick + 2) (g := s.chainRegs) rfl s.radio.air hn
  have busy := plays_radio (s := (s.loaded h len m).stage .txs 9 (.chained s.chainRegs s.radio.air 1) (.state .disabled)
    (s.tick + 3)) false rfl rfl
  have down := plays_radio (s := (s.loaded h len m).stage .txs 9 (.orderly s.chainRegs .rxDisable Latches.clear s.radio.air)
    (.state .disabled) (s.tick + 4)) true rfl rfl
  have hsent := ((starts.trans (chain 5 (by omega))) []).trans (txs_ends rfl)
  have hrefused := ((((starts.trans (chain 1 (by omega))).trans busy).trans down) []).trans (txs_ends rfl)
  obtain ⟨hrun, htrace⟩ := hsent
  obtain ⟨hrun', htrace'⟩ := hrefused
  exact ⟨_, _, hrun, hrun', rfl, rfl, rfl, htrace.trans htrace'.symm, htrace ▸ rfl, rfl, rfl, rfl, rfl⟩

end Sys2Proof.Machine
end

