-- ==== Sys2Proof/Proofs/Disable.lean ====
section
/-! SUPPORT. The disable family (43_disable.md R150 to R153): `DIS` by itself, one lemma for each of its places, and `DISABLE`, which
is acceptance and the rows of `DIS`, as a run of stages. -/

namespace Sys2Proof.Machine

/-! ### O27: `DIS` by itself -/

theorem exec_dis_of_disabled {s : State} (hsub : s.sub = 0) (hdis : s.radio.rstate = .disabled) :
    exec .dis s = .next (s.withPort (.state .disabled)) := by
  simp only [exec, execDis, hsub, hdis, if_true, readState]

theorem exec_dis_of_on {s : State} (hsub : s.sub = 0) (hon : s.radio.rstate ≠ .disabled) :
    exec .dis s = .next (goToSub 1 (readState s)) := by
  simp only [exec, execDis, hsub, hon, if_false]

theorem exec_dis_trigger {s : State} (hsub : s.sub = 1) : exec .dis s = .next (goToSub 2 (trigger .disable s)) := by
  simp only [exec, execDis, hsub]

theorem exec_dis_of_miss {s : State} (hsub : s.sub = 2) (hev : s.radio.ev.disabled = false) :
    exec .dis s = .next (pollMissedAlone (s.withPort (.latch false))) := by
  simp [exec, execDis, evRead, Latches.get, hsub, hev]

theorem exec_dis_of_hit {s : State} (hsub : s.sub = 2) (hev : s.radio.ev.disabled = true) :
    exec .dis s = .next (goToSub 3 (s.withPort (.latch true))) := by
  simp [exec, execDis, evRead, Latches.get, hsub, hev]

theorem exec_dis_clear {s : State} (hsub : s.sub = 3) : exec .dis s = .next (goToSub 0 (evClear .disabled s)) := by
  simp only [exec, execDis, hsub]

/-- Settles O27: by its place, what it reads there, and the bound on its poll. -/
theorem disIsItsFourSteps : Obligations.DisIsItsFourSteps := by
  refine fun s => ⟨exec_dis_of_disabled, exec_dis_of_on, fun hsub => ⟨_, rfl, exec_dis_trigger hsub⟩, fun hsub hev => ?miss,
    exec_dis_of_hit, exec_dis_clear⟩
  case miss =>
    rw [exec_dis_of_miss hsub hev]
    refine ⟨fun hb => ?unbounded, fun hb => ?last, fun n hb hn => ?earlier⟩
    case unbounded => exact congrArg Host.Outcome.next (pollMissedAlone_of_unbounded hb)
    case last => exact congrArg Host.Outcome.next (pollMissedAlone_of_last (s := s.withPort (.latch false)) hb)
    case earlier => exact congrArg Host.Outcome.next (pollMissedAlone_of_earlier hb hn)

/-! ### O55: `DISABLE` -/

/-- The operands of a command that carries none, as acceptance latches them (R60, R61). -/
def State.withNoOperands (s : State) : State :=
  (s.withSq { s.sq with hold := false, len := 0 }).withHost { s.host with offer := none }

/-- Acceptance of `DISABLE` leads to step 0 (R60, R151). -/
theorem plays_acceptDisable {s : State} {len : Half} (hb : s.sq.busy = false) (hseq : s.sq.seq = .idle)
    (ho : s.host.offer = some ⟨0x00, len⟩) :
    s.plays [.sequencer] [] (s.withNoOperands.stage .disable 0 s.radio s.portVal s.tick) := by
  intro ts
  have haccept : exec .disable (s.withTurns ts) =
      .next ((s.withNoOperands.stage .disable 0 s.radio s.portVal s.tick).withTurns ts) := by
    rw [State.stage, seqAt_zero, ← hseq]
    exact congrArg Host.Outcome.next (accept_of_idle .disable false 0 hb)
  have hdecode : decodeCommand 0x00 len = .ok .disable := rfl
  exact (runs_acceptance (s := s.withTurns (.sequencer :: ts)) (u := s.withTurns ts) rfl hb ho hdecode haccept).shows

/-- A radio that is on answers the one trigger of `DISABLE` before the first poll, so that no bound on the wait matters: of the
radio only its state changes (R150, R153). -/
theorem disable_turnsOff {b : State} {r : Radio} (v : ReadVal) (k : Nat) (hpow : r.powered = true) (hpend : r.pending = [])
    (hon : r.rstate ≠ .disabled) (hev : r.ev.get .disabled = false)
    (hshorts : tasksOf r.regs.shorts (.port .disabled) = []) :
    (b.stage .disable 0 r v k).plays (seqTurns 2 ++ [radioCompletes] ++ seqTurns 2) (disEntries r.rstate 0)
      (b.reached .disable .done { r with rstate := .disabled } (.latch true) (k + 2)) := by
  have hgo : (Next.ifDisabled .done (.step 1)).target (b.stage .disable 0 r (.state r.rstate) k) = some (.step 1) := by
    simp [Next.target, State.stage, hon]
  have hcleared : (r.ev.put .disabled true).put .disabled false = r.ev := hev ▸ r.ev.put_get .disabled true
  have read := stage_read (b := b) v rfl hgo
  have triggered := stage_trigger (b := b) (c := .disable) (n := 1) (v := .state r.rstate) .disable (.inl rfl) rfl
    (Radio.react_disable hpow hon false k)
  have answered : (b.stage .disable 2 { r with rstate := rampDown r.rstate } (.state r.rstate) (k + 1)).plays
      [radioCompletes] []
      (b.stage .disable 2 { r with rstate := .disabled, ev := r.ev.put .disabled true } (.state r.rstate) (k + 2)) :=
    Radio.complete_rampDown hshorts r.rstate true (k + 1) ▸ plays_radio true hpow hpend
  have hit := stage_hit (b := b) (c := .disable) (n := 2) (k := k + 2) (e := .disabled)
    (r := { r with rstate := .disabled, ev := r.ev.put .disabled true }) (.state r.rstate) rfl rfl
  have cleared := stage_clear (b := b) (c := .disable) (n := 3) (k := k + 2) (e := .disabled) (goal := .done)
    (r := { r with rstate := .disabled, ev := r.ev.put .disabled true }) (.latch true) rfl rfl
  rw [hcleared] at cleared
  exact (((read.trans triggered).trans answered).trans hit).trans cleared

/-- `DISABLE` completed from rest: of the sequencer its latches and `RESULT` (R151). -/
theorem reached_disable_done {s : State} (hb : s.sq.busy = false) (hrest : s.sq.resting) (r : Radio) (v : ReadVal) (k : Nat) :
    s.withNoOperands.reached .disable .done r v k =
      { s with
        sq := { s.sq with cmd := .disable, hold := false, len := 0, result := .ok }
        host := { s.host with offer := none }
        radio := r
        portVal := v
        tick := k } := by
  obtain ⟨hstep, hseq, hpoll⟩ := hrest
  simp only [hb, hstep, hseq, hpoll]
  rfl

/-- Settles O55: acceptance, then one read of `STATE`, or `disable_turnsOff`; the completing step meets the invariant
(`finish_ok`). -/
theorem disableIsIdempotent : Obligations.DisableIsIdempotent := by
  refine ⟨fun s len hinv hb hturns hdis ho => ?already, fun s len hinv hb hon hpow hpend hev hshorts ho hturns => ?on⟩
  case already =>
    obtain ⟨-, -, -, -, hrest, -⟩ := hinv
    obtain ⟨-, hseq, -⟩ := hrest hb
    have accepted := plays_acceptDisable hb hseq ho
    have read := stage_read (b := s.withNoOperands) (c := .disable) (n := 0) (r := s.radio) (k := s.tick) (goal := .done)
      s.portVal rfl (by rw [hdis]; rfl)
    obtain ⟨hrun, htrace⟩ := accepted.unscheduled.trans read.unscheduled
    rw [← hturns, State.withTurns_turns_self, hdis] at hrun htrace
    rw [reached_disable_done hb (hrest hb)] at hrun
    exact ⟨htrace, hrun⟩
  case on =>
    obtain ⟨hwf, hbuf, -, hrest, -⟩ := s.inv_iff.1 hinv
    obtain ⟨-, hseq, -⟩ := hrest hb
    have hnone : tasksOf s.radio.regs.shorts (.port .disabled) = [] := by
      obtain h | h := hshorts <;> rw [h] <;> rfl
    have turnsOff := disable_turnsOff (b := s.withNoOperands) s.portVal s.tick hpow hpend hon hev hnone
    obtain ⟨hrun, htrace⟩ := ((plays_acceptDisable hb hseq ho).trans turnsOff) []
    have hschedule : [.sequencer] ++ (seqTurns 2 ++ [radioCompletes] ++ seqTurns 2) ++ [] = s.turns := hturns.symm
    rw [hschedule, State.withTurns_turns_self] at hrun htrace
    exact ⟨htrace ▸ rfl, _, hrun, (State.inv_iff _).2 ⟨hwf, hbuf, finish_ok hwf rfl⟩, rfl, rfl, rfl, rfl, rfl, rfl, rfl,
      rfl⟩

end Sys2Proof.Machine
end

