-- ==== Sys2Proof/Proofs/RadioEnvironment.lean ====
section
/-! SUPPORT. The radio's own rules (45_radio_environment.md R160 to R173): what its turn is (`radioTurn_complete`, `radioTurn_read`), the
event and the state of each completion (`completion`), the links of the chain (`Radio.link`), and what a write or a trigger that the spec
does not describe leaves alone (`State.strayedWith`). -/

namespace Sys2Proof.Machine

/-! ### O38: the radio's turn -/

theorem step_radio {s : State} {a : RadioAct} {ts : List Turn} (h : s.turns = .radio a :: ts) :
    step s = .next ((s.withRadio (radioTurn a s)).spend.withTurns ts) := by
  simp only [step, takeTurn, h]

theorem radio_of_step {s t : State} {a : RadioAct} {ts : List Turn} (h : s.turns = .radio a :: ts) (hst : step s = .next t) :
    t.radio = radioTurn a s := by
  cases (step_radio h).symm.trans hst
  rfl

/-- Settles O38: `radioTurn_keeps` and `radioTurn_unpowered`. -/
theorem radioTurnsTouchOnlyTheRadio : Obligations.RadioTurnsTouchOnlyTheRadio := by
  intro s a ts hturns
  obtain ⟨hregs, hpowered, hlatches⟩ := radioTurn_keeps a s
  exact ⟨_, step_radio hturns, rfl, hlatches, hregs, hpowered, radioTurn_unpowered a s⟩

/-! ### O15: the power transition -/

/-- Settles O15: the second write finds the radio unpowered, wherever the first found it. -/
theorem powerTransitionResetsTheRadio : Obligations.PowerTransitionResetsTheRadio := by
  intro s
  have hon : powerOn (powerOff s) = s.powerCycled := powerOn_of_unpowered (s := powerOff s) rfl
  refine ⟨powerOff s, s.powerCycled, rfl, congrArg Host.Outcome.next hon, rfl, rfl, fun hdis => ?inDisabled, rfl,
    s.powerCycled_clean, rfl, rfl, rfl⟩
  case inDisabled => simp only [powerOff, if_pos hdis, State.spend_radio, State.withRadio_radio]

/-! ### O16: a configuration write outside `Disabled` -/

/-- The state after a reaction the spec does not describe, with given registers (R171; log entries 10 and 11). -/
def State.strayedWith (s : State) (g : Regs) : State := (s.withRadio { s.radio.unspecified s.tick with regs := g }).spend

/-- Outside `Disabled` the register's own fields are free, and so is the radio's reaction (R171). -/
theorem next_configWrite_of_on {named unnamed : Regs → Regs} {s : State} (h : s.radio.rstate ≠ .disabled) :
    (.next (configWrite named unnamed s) : Answer) = .next (s.strayedWith (unnamed s.radio.regs)) := by
  simp only [configWrite, if_neg h]
  rfl

theorem exec_regwrFreq_of_on {s : State} (hwf : s.cfg.wf = true) (hon : s.radio.rstate ≠ .disabled) (img : ProfileSel) :
    exec (.regwrFreq img) s = .next
      (s.strayedWith
        { s.radio.regs with freqValue := Config.freeCode s.tick 0, freqBand := Config.freeBit s.tick 3 }) := by
  obtain ⟨v, b, hv⟩ := freqMap_profile hwf img
  simp only [exec, execRegwrFreq, hv]
  exact next_configWrite_of_on hon

/-- `g'` differs from `g` in no field but those of the register that `i` writes (R64). -/
def Regs.keptBut (i : Instr) (g g' : Regs) : Prop :=
  g'.shorts = g.shorts ∧ g'.pktptr = g.pktptr ∧ g'.modcfg = g.modcfg ∧
  (i ≠ .regwrPower .on → g'.power = g.power) ∧
  ((∀ p, i ≠ .regwrMode p) → g'.mode = g.mode) ∧
  ((∀ p, i ≠ .regwrPktlay0 p) → g'.pktlay0 = g.pktlay0) ∧
  (i ≠ .regwrPktlay1 → g'.pktlay1 = g.pktlay1) ∧
  ((∀ p, i ≠ .regwrCrccfg p) → g'.crclen = g.crclen) ∧
  (i ≠ .regwrCrcpoly → g'.crcpoly = g.crcpoly) ∧
  (i ≠ .regwrCrcseed → g'.crcseed = g.crcseed) ∧
  (i ≠ .regwrCcacfg → g'.ccamode = g.ccamode ∧ g'.thresholds = g.thresholds) ∧
  ((∀ p, i ≠ .regwrFreq p) → g'.freqValue = g.freqValue ∧ g'.freqBand = g.freqBand) ∧
  (i ≠ .regwrAddrbase → g'.addrBase = g.addrBase) ∧
  (i ≠ .regwrAddrprefix → g'.addrPrefix = g.addrPrefix) ∧
  ((∀ p, i ≠ .regwrTxpower p) → g'.txpower = g.txpower)

/-- The answer to `i` is a strayed state, with no register touched but `i`'s own. -/
def straysByWriting (i : Instr) (s : State) : Prop :=
  ∃ g, exec i s = .next (s.strayedWith g) ∧ s.radio.regs.keptBut i g

/-- Settles O16: each is a `configWrite` whose free fields are its register's own. -/
theorem writeOutsideDisabledStaysInTheRadio : Obligations.WriteOutsideDisabledStaysInTheRadio := by
  intro s i hon hpow hwf hi
  have hwrite : straysByWriting i s := by
    cases i with
    | regwrPower img =>
      obtain rfl : img = .on := by simpa using hi
      have hpowered : s.radio.powered = true := hpow.resolve_right (absurd rfl)
      exact ⟨_, (congrArg Host.Outcome.next (powerOn_of_powered hpowered)).trans (next_configWrite_of_on hon),
        by simp [Regs.keptBut]⟩
    | regwrFreq img => exact ⟨_, exec_regwrFreq_of_on hwf hon img, by simp [Regs.keptBut]⟩
    | regwrMode | regwrPktlay0 | regwrPktlay1 | regwrCrccfg | regwrCrcpoly | regwrCrcseed | regwrCcacfg | regwrAddrbase
    | regwrAddrprefix | regwrTxpower => exact ⟨_, next_configWrite_of_on hon, by simp [Regs.keptBut]⟩
    | _ => simp at hi
  obtain ⟨g, hexec, hkept⟩ := hwrite
  exact ⟨_, hexec, rfl, rfl, rfl, rfl, Latches.le_orWith _ _, hkept⟩

/-! ### O17, O18: triggers -/

theorem Radio.react_txen {r : Radio} (hpow : r.powered = true) (hq : r.rstate = .disabled) (via : Bool) (tick : Nat) :
    r.react via (.port .txen) tick = { r with rstate := .txRampUp } := by
  simp [Radio.react, hpow, hq]

theorem Radio.react_start {r : Radio} (hpow : r.powered = true) (hq : r.rstate = .txIdle) (via : Bool) (tick : Nat) :
    r.react via (.port .start) tick = { r with rstate := .tx, air := [] } := by
  simp [Radio.react, hpow, hq]

theorem Radio.react_rxen {r : Radio} (hpow : r.powered = true) (hq : r.rstate = .disabled) (via : Bool) (tick : Nat) :
    r.react via (.port .rxen) tick = { r with rstate := .rxRampUp } := by
  simp [Radio.react, hpow, hq]

theorem rampDown_of_transmitter {q : RState} (h : q ∈ [.txRampUp, .txIdle, .tx, .txDisable] ∨ ∃ n, q = .other n) :
    q ≠ .disabled ∧ rampDown q = .txDisable := by
  cases q <;> simp [rampDown] at h ⊢

theorem rampDown_of_receiver {q : RState} (h : q ∈ [.rxRampUp, .rxIdle, .cca, .rxDisable]) :
    q ≠ .disabled ∧ rampDown q = .rxDisable := by
  cases q <;> simp [rampDown] at h ⊢

theorem exec_trigger_of_configured {s : State} {t : PortTask} {r : Radio} (hu : s.unconfiguredTx = false)
    (hr : s.radio.react false (.port t) s.tick = r) : exec (triggerOf t) s = .next (s.withRadio r).spend := by
  rw [exec_triggerOf, trigger_of_configured t hu, hr]

/-- Settles O17: one reaction for each task, the ramp-down of a `disable` by `rampDown`. -/
theorem tasksMoveTheRadio : Obligations.TasksMoveTheRadio := by
  intro s hpow hu
  have hdisable (q : RState) (hq : s.radio.rstate ≠ .disabled) (hdown : rampDown s.radio.rstate = q) :
      exec .taskDisable s = .next (s.withRadio { s.radio with rstate := q }).spend :=
    exec_trigger_of_configured (t := .disable) hu (hdown ▸ Radio.react_disable hpow hq false s.tick)
  refine ⟨fun hq => ?txen, fun hq => ?start, fun hq => ?rxen, fun hq => ?fromTransmitter, fun hq => ?fromReceiver⟩
  case txen => exact exec_trigger_of_configured (t := .txen) hu (Radio.react_txen hpow hq false s.tick)
  case start => exact exec_trigger_of_configured (t := .start) hu (Radio.react_start hpow hq false s.tick)
  case rxen => exact exec_trigger_of_configured (t := .rxen) hu (Radio.react_rxen hpow hq false s.tick)
  case fromTransmitter =>
    obtain ⟨hon, hdown⟩ := rampDown_of_transmitter hq
    exact hdisable .txDisable hon hdown
  case fromReceiver =>
    obtain ⟨hon, hdown⟩ := rampDown_of_receiver hq
    exact hdisable .rxDisable hon hdown

/-- The states in which R162 to R167 give a trigger from the port a reaction; for `disable` log entry 12 adds to them. -/
def reactsIn : PortTask → RState → Bool
  | .txen, q => q = .disabled
  | .start, q => q = .txIdle
  | .rxen, q => q = .disabled
  | .disable, q => q ≠ .disabled

theorem Radio.react_undescribed {r : Radio} {t : PortTask} (h : r.powered = false ∨ reactsIn t r.rstate = false)
    (tick : Nat) : r.react false (.port t) tick = r.unspecified tick := by
  obtain hoff | hnone := h
  · simp [Radio.react, hoff]
  · cases hq : r.rstate <;> cases t <;> simp_all [Radio.react, reactsIn]

/-- Without power, in a state with no reaction, and in the case of R130, a trigger is one the spec does not describe (R171). -/
theorem trigger_undescribed {s : State} {t : PortTask}
    (h : s.radio.powered = false ∨ s.unconfiguredTx = true ∨ reactsIn t s.radio.rstate = false) :
    trigger t s = s.strayedWith s.radio.regs := by
  cases hu : s.unconfiguredTx with
  | true => exact trigger_of_unconfigured t hu
  | false =>
    have hreact := Radio.react_undescribed (h.imp_right (Or.resolve_left · (by simp [hu]))) s.tick
    rw [trigger_of_configured t hu, hreact]
    rfl

/-- Settles O18: by the task, then `trigger_undescribed`. -/
theorem undescribedTriggersStayInTheRadio : Obligations.UndescribedTriggersStayInTheRadio := by
  intro s i hi
  have htask : ∃ t, i = triggerOf t ∧
      (s.radio.powered = false ∨ s.unconfiguredTx = true ∨ reactsIn t s.radio.rstate = false) := by
    obtain ⟨rfl, h⟩ | ⟨rfl, h⟩ | ⟨rfl, h⟩ | ⟨rfl, h⟩ := hi
    · exact ⟨.txen, rfl, by simpa [reactsIn] using h⟩
    · exact ⟨.start, rfl, by simpa [reactsIn] using h⟩
    · exact ⟨.rxen, rfl, by simpa [reactsIn] using h⟩
    · exact ⟨.disable, rfl, by simpa [reactsIn] using h⟩
  obtain ⟨t, rfl, hundescribed⟩ := htask
  have hexec := (exec_triggerOf t s).trans (congrArg Host.Outcome.next (trigger_undescribed hundescribed))
  exact ⟨_, hexec, rfl, rfl, rfl, rfl, rfl, rfl, Latches.le_orWith _ _⟩

/-! ### O39: completions without shortcuts -/

theorem radioTurn_complete {s : State} (hpow : s.radio.powered = true) (hpend : s.radio.pending = []) (idle deferred : Bool) :
    radioTurn (.complete idle deferred) s = s.radio.complete idle deferred s.tick := by
  simp [radioTurn, hpow, hpend]

/-- The event that a completion fires and the state it ends in, for the states that have one (R163, R165 to R167). -/
def completion (idle : Bool) : RState → Option (RadioEvent × RState)
  | .txRampUp => some (.port .txready, .txIdle)
  | .tx => some (.port .phyend, .txIdle)
  | .txDisable | .rxDisable => some (.port .disabled, .disabled)
  | .rxRampUp => some (.rxReady, .rxIdle)
  | .cca => some (if idle then .ccaIdle else .ccaBusy, .rxIdle)
  | .disabled | .txIdle | .rxIdle | .other _ => none

theorem completion_rampDown {idle : Bool} {q : RState} (h : q = .txDisable ∨ q = .rxDisable) :
    completion idle q = some (.port .disabled, .disabled) := by
  obtain rfl | rfl := h <;> rfl

theorem Radio.complete_of_some {r : Radio} {idle : Bool} {e : RadioEvent} {q : RState}
    (h : completion idle r.rstate = some (e, q)) (deferred : Bool) (tick : Nat) :
    r.complete idle deferred tick = Radio.fire e deferred tick { r with rstate := q } := by
  unfold Radio.complete
  cases hr : r.rstate <;> rw [hr] at h <;> cases h <;> rfl

theorem Radio.complete_of_none {r : Radio} {idle : Bool} (h : completion idle r.rstate = none) (deferred : Bool) (tick : Nat) :
    r.complete idle deferred tick = r := by
  unfold Radio.complete
  cases hr : r.rstate with
  | disabled | txIdle | rxIdle | other => rfl
  | _ => rw [hr] at h; cases h

theorem Radio.fire_deferred {r : Radio} (e : RadioEvent) (tick : Nat) (hpend : r.pending = []) :
    r.fire e true tick = { r.latch e with pending := tasksOf r.regs.shorts e } := by
  simp only [Radio.fire, if_true, hpend, List.nil_append]

theorem Radio.latch_pending (e : RadioEvent) (r : Radio) : (r.latch e).pending = r.pending := by
  cases e <;> rfl

theorem Radio.latch_with_pending {r : Radio} (e : RadioEvent) {ts : List RadioTask} (hpend : r.pending = ts) :
    { r.latch e with pending := ts } = r.latch e := by
  rw [← hpend, ← r.latch_pending e]

/-- An event that triggers nothing sets its latch, whatever the schedule's choice (R168). -/
theorem Radio.fire_alone {r : Radio} {e : RadioEvent} (h : tasksOf r.regs.shorts e = []) (hpend : r.pending = [])
    (deferred : Bool) (tick : Nat) : r.fire e deferred tick = r.latch e := by
  cases deferred with
  | false => exact Radio.fire_of_no_tasks h tick
  | true => rw [Radio.fire_deferred e tick hpend, h, Radio.latch_with_pending e hpend]

theorem Radio.complete_alone {r : Radio} {idle : Bool} {e : RadioEvent} {q : RState}
    (h : completion idle r.rstate = some (e, q)) (hshorts : tasksOf r.regs.shorts e = []) (hpend : r.pending = [])
    (deferred : Bool) (tick : Nat) : r.complete idle deferred tick = Radio.latch e { r with rstate := q } :=
  (Radio.complete_of_some h deferred tick).trans
    (Radio.fire_alone (r := { r with rstate := q }) hshorts hpend deferred tick)

theorem tasksOf_nil (e : RadioEvent) : tasksOf [] e = [] := rfl

/-- Settles O39: `completion` gives each state's event and end. -/
theorem completionsWithoutShortcuts : Obligations.CompletionsWithoutShortcuts := by
  intro s idle deferred ts t hturns hpow hpend hshorts hst
  have hradio : t.radio = s.radio.complete idle deferred s.tick :=
    (radio_of_step hturns hst).trans (radioTurn_complete hpow hpend idle deferred)
  have hends (e : RadioEvent) (q : RState) (hc : completion idle s.radio.rstate = some (e, q)) :
      t.radio = Radio.latch e { s.radio with rstate := q } :=
    hradio.trans (Radio.complete_alone hc (hshorts ▸ tasksOf_nil e) hpend deferred s.tick)
  refine ⟨fun hq => hends (.port .txready) .txIdle (hq ▸ rfl), fun hq => hends (.port .phyend) .txIdle (hq ▸ rfl),
    fun hq => ?rampDown, fun hq => hends .rxReady .rxIdle (hq ▸ rfl), fun hq => ?cca, fun hq => ?nothing⟩
  case rampDown => exact hends (.port .disabled) .disabled (completion_rampDown hq)
  case cca => cases idle with
    | true => exact hends .ccaIdle .rxIdle (hq ▸ rfl)
    | false => exact hends .ccaBusy .rxIdle (hq ▸ rfl)
  case nothing =>
    refine hradio.trans (Radio.complete_of_none ?_ deferred s.tick)
    obtain hq | hq | hq := hq <;> rw [hq] <;> rfl

/-! ### O40: completions with the chain -/

/-- A link of the chain: the completion fires an event with one shortcut, which takes the radio from `fired` to `reached`, delivered at
once or as the radio's next step (R127, R168); no free value enters. -/
def Radio.link (r : Radio) (idle : Bool) (fired : Radio) (task : RadioTask) (reached : Radio) : Prop :=
  ∀ tick, r.complete idle false tick = reached ∧ r.complete idle true tick = { fired with pending := [task] } ∧
    fired.react true task tick = reached

theorem Radio.link_of_task {r reached : Radio} {idle : Bool} {e : RadioEvent} {q : RState} {task : RadioTask}
    (hc : completion idle r.rstate = some (e, q)) (htask : tasksOf r.regs.shorts e = [task]) (hpend : r.pending = [])
    (hreact : ∀ tick, Radio.react true task tick (Radio.latch e { r with rstate := q }) = reached) :
    r.link idle (Radio.latch e { r with rstate := q }) task reached := by
  refine fun tick => ⟨?atOnce, ?deferred, hreact tick⟩
  case atOnce =>
    rw [Radio.complete_of_some hc, ← hreact tick]
    simp only [Radio.fire, Bool.false_eq_true, if_false, htask, List.foldl_cons, List.foldl_nil]
  case deferred =>
    rw [Radio.complete_of_some hc, Radio.fire_deferred (r := { r with rstate := q }) e tick hpend, htask]

/-- The trigger a link leaves pending ends in the radio it would have ended in at once (R168). -/
theorem Radio.link.delivers {r fired reached : Radio} {idle : Bool} {task task' : RadioTask} {tick : Nat}
    (h : r.link idle fired task reached) (hpend : fired.pending = [])
    (htask : (r.complete idle true tick).pending = [task']) (tick' : Nat) :
    Radio.react true task' tick' { r.complete idle true tick with pending := [] } = r.complete idle false tick := by
  obtain ⟨hnow, hlater, -⟩ := h tick
  obtain ⟨-, -, hreact⟩ := h tick'
  rw [hlater] at htask ⊢
  cases htask
  rw [hnow, ← hreact, ← hpend]

section Chain

variable {r : Radio} (hpow : r.powered = true) (hpend : r.pending = []) (hshorts : r.regs.shorts = shortsChain)
include hpow hpend hshorts

theorem Radio.link_rxRampUp (hq : r.rstate = .rxRampUp) (idle : Bool) :
    r.link idle { r with rstate := .rxIdle } .ccaStart { r with rstate := .cca } :=
  Radio.link_of_task (e := .rxReady) (hq ▸ rfl) (hshorts ▸ rfl) hpend fun _ => by simp [Radio.react, Radio.latch, hpow]

theorem Radio.link_ccaIdle (hq : r.rstate = .cca) :
    r.link true { r with rstate := .rxIdle } (.port .txen) { r with rstate := .txRampUp } :=
  Radio.link_of_task (e := .ccaIdle) (hq ▸ rfl) (hshorts ▸ rfl) hpend fun _ => by simp [Radio.react, Radio.latch, hpow]

theorem Radio.link_ccaBusy (hq : r.rstate = .cca) :
    r.link false { r with rstate := .rxIdle } (.port .disable) { r with rstate := .rxDisable } :=
  Radio.link_of_task (e := .ccaBusy) (hq ▸ rfl) (hshorts ▸ rfl) hpend fun _ =>
    Radio.react_disable (r := { r with rstate := .rxIdle }) hpow RState.noConfusion true _

theorem Radio.link_txRampUp (hq : r.rstate = .txRampUp) (idle : Bool) :
    r.link idle { r with rstate := .txIdle, ev := r.ev.put .txready true } (.port .start)
      { r with rstate := .tx, air := [], ev := r.ev.put .txready true } :=
  Radio.link_of_task (e := .port .txready) (hq ▸ rfl) (hshorts ▸ rfl) hpend fun _ =>
    Radio.react_start (r := { r with rstate := .txIdle, ev := r.ev.put .txready true }) hpow rfl true _

theorem Radio.link_tx (hq : r.rstate = .tx) (idle : Bool) :
    r.link idle { r with rstate := .txIdle, ev := r.ev.put .phyend true } (.port .disable)
      { r with rstate := .txDisable, ev := r.ev.put .phyend true } :=
  Radio.link_of_task (e := .port .phyend) (hq ▸ rfl) (hshorts ▸ rfl) hpend fun _ =>
    Radio.react_disable (r := { r with rstate := .txIdle, ev := r.ev.put .phyend true }) hpow RState.noConfusion true _

omit hpow in
theorem Radio.complete_chainEnd (hq : r.rstate = .txDisable ∨ r.rstate = .rxDisable) (idle deferred : Bool) (tick : Nat) :
    r.complete idle deferred tick = { r with rstate := .disabled, ev := r.ev.put .disabled true } :=
  Radio.complete_alone (completion_rampDown hq) (hshorts ▸ rfl) hpend deferred tick

/-- Every state of the radio has a link of the chain, or leaves nothing pending. -/
theorem Radio.link_cases (idle : Bool) :
    (∃ fired task reached, r.link idle fired task reached ∧ fired.pending = []) ∨
    ∀ tick, (r.complete idle true tick).pending = [] := by
  cases hq : r.rstate with
  | rxRampUp => exact .inl ⟨_, _, _, Radio.link_rxRampUp hpow hpend hshorts hq idle, hpend⟩
  | cca =>
    cases idle with
    | true => exact .inl ⟨_, _, _, Radio.link_ccaIdle hpow hpend hshorts hq, hpend⟩
    | false => exact .inl ⟨_, _, _, Radio.link_ccaBusy hpow hpend hshorts hq, hpend⟩
  | txRampUp => exact .inl ⟨_, _, _, Radio.link_txRampUp hpow hpend hshorts hq idle, hpend⟩
  | tx => exact .inl ⟨_, _, _, Radio.link_tx hpow hpend hshorts hq idle, hpend⟩
  | txDisable => exact .inr fun tick => Radio.complete_chainEnd hpend hshorts (.inl hq) idle true tick ▸ hpend
  | rxDisable => exact .inr fun tick => Radio.complete_chainEnd hpend hshorts (.inr hq) idle true tick ▸ hpend
  | disabled | txIdle | rxIdle | other =>
    have hnone : completion idle r.rstate = none := hq ▸ rfl
    exact .inr fun tick => (Radio.complete_of_none hnone true tick).symm ▸ hpend

end Chain

theorem radioTurn_delivers {s : State} {task : RadioTask} (hpow : s.radio.powered = true) (hpend : s.radio.pending = [task])
    (idle deferred : Bool) :
    radioTurn (.complete idle deferred) s = Radio.react true task s.tick { s.radio with pending := [] } := by
  simp [radioTurn, hpow, hpend]

/-- Settles O40: a link for each state of the chain, and `Radio.link.delivers` for what it leaves pending. -/
theorem completionsWithTheChain : Obligations.CompletionsWithTheChain := by
  intro s idle ts t u hpow hpend hshorts hnow hlater
  have ht : t.radio = s.radio.complete idle false s.tick :=
    (radio_of_step rfl hnow).trans (radioTurn_complete (s := { s with turns := _ }) hpow hpend idle false)
  have hu : u.radio = s.radio.complete idle true s.tick :=
    (radio_of_step rfl hlater).trans (radioTurn_complete (s := { s with turns := _ }) hpow hpend idle true)
  have hlink {fired reached : Radio} {task : RadioTask} (h : s.radio.link idle fired task reached) :
      t.radio = reached ∧ u.radio = { fired with pending := [task] } := by
    obtain ⟨hnow, hlater, -⟩ := h s.tick
    exact ⟨ht.trans hnow, hu.trans hlater⟩
  refine ⟨fun hq => hlink (Radio.link_rxRampUp hpow hpend hshorts hq idle), fun hq hidle => ?ccaIdle, fun hq hbusy => ?ccaBusy,
    fun hq => hlink (Radio.link_txRampUp hpow hpend hshorts hq idle), fun hq => hlink (Radio.link_tx hpow hpend hshorts hq idle),
    fun hq => ?chainEnd, fun task htask v hv => ?delivered⟩
  case ccaIdle => subst hidle; exact hlink (Radio.link_ccaIdle hpow hpend hshorts hq)
  case ccaBusy => subst hbusy; exact hlink (Radio.link_ccaBusy hpow hpend hshorts hq)
  case chainEnd =>
    have hends := Radio.complete_chainEnd hpend hshorts hq idle
    exact ⟨ht.trans (hends false s.tick), (hu.trans (hends true s.tick)).trans (ht.trans (hends false s.tick)).symm⟩
  case delivered =>
    have hupow : u.radio.powered = true := by
      obtain ⟨-, hkeeps, -⟩ := Radio.complete_keeps idle true s.tick s.radio
      rw [hu, hkeeps, hpow]
    have hvradio : v.radio = Radio.react true task u.tick { u.radio with pending := [] } :=
      (radio_of_step rfl hv).trans (radioTurn_delivers (s := { u with turns := _ }) hupow htask idle true)
    rw [hu] at htask hvradio
    obtain ⟨fired, task', reached, h, hfired⟩ | hnone := Radio.link_cases hpow hpend hshorts idle
    · exact (hvradio.trans (h.delivers hfired htask u.tick)).trans ht.symm
    · rw [hnone] at htask
      cases htask

/-! ### O41: the radio's reader -/

theorem radioTurn_read {s : State} (hpow : s.radio.powered = true) (hpend : s.radio.pending = []) (i : Nat) :
    radioTurn (.read i) s = radioReads i s := by
  simp [radioTurn, hpow, hpend]

/-- With `PKTPTR` at `TXBUF` the radio's reader sees the buffer's bytes (R42, R170, U11). -/
theorem radioByte_of_txbuf {s : State} {i : Nat} (hptr : s.radio.regs.pktptr = s.cfg.txbufAddr) (hi : i < s.cfg.maxPacketLen) :
    radioByte s i = (s.txbuf.read i).getD (Config.txbufByte s.txSeed i) := by
  simp [radioByte, hptr, hi]

theorem radioReads_of_within {s : State} {i : Nat} (hq : s.radio.rstate = .tx) (hi : i ≤ (radioByte s 0).toNat) :
    radioReads i s = { s.radio with air := s.radio.air ++ [(i, radioByte s i)] } := by
  simp only [radioReads, hq, hi, and_self, if_true]

theorem radioReads_of_past {s : State} {i : Nat} (h : s.radio.rstate ≠ .tx ∨ (radioByte s 0).toNat < i) :
    radioReads i s = s.radio := by
  refine if_neg fun ⟨hq, hi⟩ => ?_
  obtain hne | hlt := h
  · exact hne hq
  · exact Nat.not_lt.2 hi hlt

/-- Settles O41: by the length byte that the reader sees. -/
theorem radioReadsTheFrameOnlyInTx : Obligations.RadioReadsTheFrameOnlyInTx := by
  intro s i ts t hturns hpow hpend hst
  have hradio : t.radio = radioReads i s := (radio_of_step hturns hst).trans (radioTurn_read hpow hpend i)
  have hfirst {first : Byte} (hptr : s.radio.regs.pktptr = s.cfg.txbufAddr) (h0 : s.txbuf.read 0 = some first)
      (hlen : 0 < s.cfg.maxPacketLen) : radioByte s 0 = first := by
    rw [radioByte_of_txbuf hptr hlen, h0, Option.getD_some]
  have htaken {first : Byte} (hq : s.radio.rstate = .tx) (hptr : s.radio.regs.pktptr = s.cfg.txbufAddr)
      (h0 : s.txbuf.read 0 = some first) (hi : i ≤ first.toNat) (hlen : i < s.cfg.maxPacketLen) :
      t.radio = { s.radio with
        air := s.radio.air ++ [(i, (s.txbuf.read i).getD (Config.txbufByte s.txSeed i))] } := by
    rw [hradio, radioReads_of_within hq (hfirst hptr h0 (Nat.zero_lt_of_lt hlen) ▸ hi), radioByte_of_txbuf hptr hlen]
  refine ⟨fun hq => hradio.trans (radioReads_of_past (.inl hq)), fun first b hq hptr h0 hi hlen hb => ?written,
    fun first hq hptr h0 hi hlen hb => ?unwritten, fun first hq hptr h0 hlen hi => ?past⟩
  case written => rw [htaken hq hptr h0 hi hlen, hb, Option.getD_some]
  case unwritten => rw [htaken hq hptr h0 hi hlen, hb, Option.getD_none]
  case past => exact hradio.trans (radioReads_of_past (.inr (hfirst hptr h0 hlen ▸ hi)))

end Sys2Proof.Machine
end

