-- ==== Sys2Proof/Proofs/Exceptions.lean ====
section
/-! SUPPORT. The exceptions family (60_exceptions.md R183, R196): a polling row whose latch reads 0 (`State.missesPoll`). The
sequencer's turn there is a missed poll and nothing else (`step_of_missesPoll`); unbounded it repeats for ever, bounded it counts. -/

namespace Sys2Proof.Machine

/-! ### A polling row whose latch reads 0 -/

/-- The sequencer stands at a polling row, and the latch read there is 0 (R86). -/
def State.missesPoll (s : State) : Prop :=
  s.sq.busy = true ∧ ∃ r i yes no,
    rowAt s.sq.cmd s.sq.step = some r ∧ r.act = .run i ∧ r.next = .ifSet yes no ∧ backOf i s = .latch false

theorem State.missesPoll.withPort {s : State} (h : s.missesPoll) (v : ReadVal) : (s.withPort v).missesPoll := h

theorem backOf_pollOf (e : PortEvent) (s : State) : backOf (pollOf e) s = .latch (s.radio.ev.get e) := by
  cases e <;> rfl

/-- The instruction of a polling row reads a latch (R83, R86). -/
theorem poll_row_act {c : Cmd} {n : Nat} {r : Row} {i : Instr} {yes no : Target} (hr : rowAt c n = some r)
    (ha : r.act = .run i) (hn : r.next = .ifSet yes no) : ∃ e, i = pollOf e := by
  obtain ⟨e, he⟩ := poll_row_acknowledged hr hn
  obtain ⟨hact, -, -⟩ := of_decide_eq_true he
  exact ⟨e, Act.run.inj (ha.symm.trans hact)⟩

/-- A missed poll moves `SEQ` at no polling row, wherever `SEQ` is (R123). -/
theorem seqAfter_of_missed_poll {c : Cmd} {n : Nat} {r : Row} {yes no : Target} (hr : rowAt c n = some r)
    (hn : r.next = .ifSet yes no) (q : Seq) : seqAfter c n false q = q := by
  unfold seqAfter
  split
  case h_2 | h_4 | h_7 => rfl -- steps 9 and 13 of `TXP`, and the steps at which the table has no change
  case h_1 | h_3 | h_5 | h_6 => cases hr; cases hn

/-- The rest of the step after a missed poll. -/
theorem advance_of_missed_poll {v : State} {r : Row} {yes no : Target} (hr : rowAt v.sq.cmd v.sq.step = some r)
    (hn : r.next = .ifSet yes no) (hport : v.portVal = .latch false) : advance v = pollMissed v := by
  have htarget : r.next.target v = none := by simp [hn, Next.target, hport]
  have hseq : v.seqMoved.sq.seq = v.sq.seq := by
    simpa [State.seqMoved, hport] using seqAfter_of_missed_poll hr hn v.sq.seq
  rw [advance_eq_target hr, htarget, State.seqMoved_eq hseq]
  rfl

/-- The sequencer's turn at a polling row whose latch is 0 (R83, R86). -/
theorem step_of_missesPoll {s u : State} (hu : takeTurn s = .sequencer u) (h : u.missesPoll) :
    step s = .next (pollMissed (u.withPort (.latch false))) := by
  obtain ⟨hb, r, i, yes, no, hr, ha, hn, hback⟩ := h
  obtain ⟨e, rfl⟩ := poll_row_act hr ha hn
  have hexec : exec (pollOf e) u = .next (u.withPort (.latch false)) := by
    rw [exec_pollOf, evRead, ReadVal.latch.inj ((backOf_pollOf e u).symm.trans hback)]
  obtain ⟨-, -, hrow, -⟩ := stepRunsTheFetchedInstruction s u hu
  obtain ⟨hnext, -⟩ := hrow r _ hb hr ha
  rw [hnext _ hexec, advance_of_missed_poll (v := u.withPort (.latch false)) hr hn rfl]

/-! ### O43: unbounded waits -/

theorem step_of_missesPoll_unbounded {s : State} (hbound : s.cfg.waitBound = none) (hturns : s.turns = [])
    (h : s.missesPoll) : step s = .next (s.withPort (.latch false)) := by
  rw [step_of_missesPoll (takeTurn_of_no_turns hturns) h, pollMissed_of_unbounded (s := s.withPort (.latch false)) hbound]

/-- A state that steps to itself stays for ever. -/
theorem run_of_step_self {s : State} (h : step s = .next s) (n : Nat) : Host.Core.run core n s = .next s := by
  have hcore : core.step s = .next s := h
  induction n with
  | zero => rfl
  | succ n ih => simp only [Host.Core.run, hcore, ih]

/-- Settles O43: the first poll puts 0 on the return lines, and the state after it steps to itself. -/
theorem pollingNeverTimesOut : Obligations.PollingNeverTimesOut := by
  intro s r i yes no n hbound hb hturns hr ha hn hback
  have hmiss : s.missesPoll := ⟨hb, r, i, yes, no, hr, ha, hn, hback⟩
  have hfirst : core.step s = .next (s.withPort (.latch false)) := step_of_missesPoll_unbounded hbound hturns hmiss
  have hagain : step (s.withPort (.latch false)) = .next (s.withPort (.latch false)) :=
    step_of_missesPoll_unbounded hbound hturns (hmiss.withPort _)
  simp only [Host.Core.run, hfirst]
  exact run_of_step_self hagain n

/-! ### O44: bounded waits -/

/-- The last missed poll of a bounded wait ends the command (R196). -/
theorem pollMissed_of_last {s : State} (h : s.cfg.waitBound = some (s.sq.pollcnt + 1)) : pollMissed s = timeOut s := by
  simp only [pollMissed, h, if_true]

/-- An earlier one is counted (R196). -/
theorem pollMissed_of_earlier {s : State} {n : Nat} (h : s.cfg.waitBound = some n) (hn : s.sq.pollcnt + 1 ≠ n) :
    pollMissed s = s.withSq { s.sq with pollcnt := s.sq.pollcnt + 1 } := by
  simp only [pollMissed, h, hn, if_false]

theorem follow_pollcnt (k : Target) (s : State) : (follow k s).sq.pollcnt = 0 := by cases k <;> rfl

theorem pollMissed_pollcnt_of_step_ne {s : State} (hne : (pollMissed s).sq.step ≠ s.sq.step) :
    (pollMissed s).sq.pollcnt = 0 := by
  obtain ⟨-, he⟩ | ⟨-, he⟩ | ⟨n, -, -, he⟩ := pollMissed_cases s <;> rw [he] at hne ⊢
  · exact absurd rfl hne
  · rfl
  · exact absurd rfl hne

theorem advance_pollcnt_of_step_ne {v : State} {r : Row} (hr : rowAt v.sq.cmd v.sq.step = some r)
    (hne : (advance v).sq.step ≠ v.sq.step) : (advance v).sq.pollcnt = 0 := by
  rw [advance_eq_target hr] at hne ⊢
  cases hk : r.next.target v with
  | some k => exact follow_pollcnt k v.seqMoved
  | none =>
    rw [hk] at hne
    exact pollMissed_pollcnt_of_step_ne hne

theorem lengthCheck_pollcnt_of_zero {s : State} (h : s.sq.pollcnt = 0) : (lengthCheck s).sq.pollcnt = 0 := by
  unfold lengthCheck
  split
  · exact h
  · rfl

/-- `POLLCNT` is 0 once a step has changed `STEP` (R196); where nothing was counted yet, by the invariant. -/
theorem pollcnt_of_step_ne {s t : State} (h : s.Inv) (hst : step s = .next t) (hne : t.sq.step ≠ s.sq.step) :
    t.sq.pollcnt = 0 := by
  obtain ho | ⟨u, hu, hcase⟩ := step_cases hst
  · obtain ⟨-, ⟨-, hq⟩ | ⟨-, hq⟩⟩ := takeTurn_other_keeps ho
    · exact absurd (congrArg Sequencer.step hq) hne
    · rw [hq]; rfl
  · obtain ⟨-, -, -, hrest, hwork⟩ := u.inv_iff.1 (takeTurn_sequencer_inv h hu)
    rw [← (takeTurn_sequencer_keeps hu).2.2] at hne
    obtain ⟨-, -, rfl⟩ | ⟨o, e, hb, -, -, rfl⟩ | ⟨o, i, hb, -, hd, he⟩ | ⟨r, hb, hr, ha, rfl⟩ |
      ⟨r, i, v, -, hr, ha, he, rfl⟩ := hcase
    · exact absurd rfl hne
    · obtain ⟨-, -, h0⟩ := hrest hb
      exact h0
    · obtain ⟨c, l, len, host, -, hx⟩ := exec_command_accepts (decodeCommand_isCommand hd) hb
      cases hx.symm.trans he
      rfl
    · obtain ⟨-, -, -, -, h0⟩ := hwork hb
      exact lengthCheck_pollcnt_of_zero (h0 (lengthCheck_row hr ha).2)
    · obtain ⟨⟨-, hq, -⟩, -⟩ := exec_micro_keeps (row_not_mover hr ha) he
      rw [← hq] at hr hne
      exact advance_pollcnt_of_step_ne hr hne

/-- Settles O44: a missed poll is the last or an earlier one, and `pollcnt_of_step_ne`. -/
theorem boundedWaitEndsInTimeout : Obligations.BoundedWaitEndsInTimeout := by
  refine ⟨fun s t r i yes no n hu hbound hpos hb hr ha hn hback => ?_, fun s t h hst hne => pollcnt_of_step_ne h hst hne⟩
  rw [step_of_missesPoll hu ⟨hb, r, i, yes, no, hr, ha, hn, hback⟩]
  refine ⟨fun hlast => ?last, fun hearlier => ?earlier⟩
  case last =>
    have hn1 : t.sq.pollcnt + 1 = n := by omega
    exact congrArg Host.Outcome.next (pollMissed_of_last (s := t.withPort (.latch false)) (hn1 ▸ hbound))
  case earlier =>
    have hn1 : t.sq.pollcnt + 1 ≠ n := by omega
    exact congrArg Host.Outcome.next (pollMissed_of_earlier (s := t.withPort (.latch false)) hbound hn1)

end Sys2Proof.Machine
end

