-- ==== Sys2Proof/Proofs/ResetAndHazards.lean ====
section
/-! SUPPORT. The reset and hazards family (70_reset_and_hazards.md R210 to R212): the reset input, and the radio along the two commands that
R212 turns on. `Radio.cycledBy` is the radio by the step a `CFG` has reached, `Radio.genuineAt` by the step of a `TXP`; for each a row's
instruction, the "next" column and the other agents' turns keep it. -/

namespace Sys2Proof.Machine

/-! ### O30: the reset input -/

theorem takeTurn_reset {s : State} {ts : List Turn} (h : s.turns = .reset :: ts) :
    takeTurn s = .other ((blockReset s).withTurns ts) := by
  simp only [takeTurn, h]

/-- With `BUSY = 0` and no command at the port the sequencer's turn leaves the state as it is (R210). -/
theorem step_waits {s : State} (hturns : s.turns = []) (hb : s.sq.busy = false) (ho : s.host.offer = none) :
    step s = .next s := by
  obtain ⟨-, hwait, -⟩ := stepRunsTheFetchedInstruction s s (takeTurn_of_no_turns hturns)
  exact hwait hb ho

/-- Settles O30: the turn is `blockReset`, which touches neither the radio nor the host's side, and `step_waits` after it. -/
theorem resetInputLeavesTheRadio : Obligations.ResetInputLeavesTheRadio := by
  intro s ts hturns
  have hturn := takeTurn_reset hturns
  refine ⟨by simp only [traceEntry, issued, hturn], (blockReset s).withTurns ts, by simp only [step, hturn], rfl, rfl, rfl, rfl, rfl,
    rfl, rfl, rfl, rfl, rfl, rfl, fun hnone ho => ?waits⟩
  case waits => exact step_waits hnone rfl ho

/-! ### A step with a command in progress -/

/-- With `BUSY = 1` the sequencer's turn is the length check or a row's instruction and the rest of its step. -/
theorem step_cases_of_busy {s t : State} (hb : s.sq.busy = true) (h : step s = .next t) :
    takeTurn s = .other t ∨
    ∃ u r, takeTurn s = .sequencer u ∧ rowAt u.sq.cmd u.sq.step = some r ∧
      ((r.act = .lengthCheck ∧ t = lengthCheck u) ∨ ∃ i v, r.act = .run i ∧ exec i u = .next v ∧ t = advance v) := by
  obtain ho | ⟨u, hu, hcase⟩ := step_cases h
  · exact .inl ho
  · rw [← (takeTurn_sequencer_keeps hu).2.2] at hb
    obtain ⟨hidle, -⟩ | ⟨o, e, hidle, -⟩ | ⟨o, i, hidle, -⟩ | ⟨r, -, hr, ha, ht⟩ | ⟨r, i, v, -, hr, ha, he, ht⟩ := hcase
    · simp [hb] at hidle
    · simp [hb] at hidle
    · simp [hb] at hidle
    · exact .inr ⟨u, r, hu, hr, .inl ⟨ha, ht⟩⟩
    · exact .inr ⟨u, r, hu, hr, .inr ⟨i, v, ha, he, ht⟩⟩

theorem advance_radio (v : State) : (advance v).radio = v.radio := by rw [advance_keeps]; rfl

/-- Only a poll has no target (R86). -/
theorem Next.poll_of_target_none {x : Next} {v : State} (h : x.target v = none) : ∃ yes no, x = .ifSet yes no := by
  cases x with
  | ifSet yes no => exact ⟨yes, no, rfl⟩
  | go | ifDisabled | ifHold => cases h

/-! ### O47: the radio along a `CFG` -/

/-- The radio when a `CFG` reaches step `n`: without power between the two writes of `POWER`, clean after the second (R101, R169). -/
def Radio.cycledBy (n : Nat) (r : Radio) : Prop :=
  ((n = 5 ∨ n = 6) → r.powered = false) ∧ (7 ≤ n → r.clean ∧ r.regs.shorts = [])

theorem State.cfgPowerAt_iff (s : State) :
    s.cfgPowerAt ↔ (s.sq.busy = true → s.sq.cmd.isCfg = true → s.radio.cycledBy s.sq.step) := Iff.rfl

theorem State.cfgPowerAt_of_idle {s : State} (h : s.sq.busy = false) : s.cfgPowerAt :=
  s.cfgPowerAt_iff.2 fun hb => by simp [h] at hb

theorem Radio.cycledBy_of_le_four {r : Radio} {n : Nat} (h : n ≤ 4) : r.cycledBy n := ⟨by omega, by omega⟩

theorem Radio.cycledBy_of_clean {r : Radio} {n : Nat} (hn : 7 ≤ n) (h : r.clean ∧ r.regs.shorts = []) : r.cycledBy n :=
  ⟨by omega, fun _ => h⟩

theorem eq_cfgCmd_of_isCfg {c : Cmd} (h : c.isCfg = true) : ∃ sel, c = cfgCmd sel := by
  cases c with
  | cfgStd => exact ⟨.std, rfl⟩
  | cfgLr => exact ⟨.lr, rfl⟩
  | disable | txp | txs => cases h

theorem isTx_of_isCfg {c : Cmd} (h : c.isCfg = true) : c.isTx = false := by
  obtain ⟨sel, rfl⟩ := eq_cfgCmd_of_isCfg h
  cases sel <;> rfl

/-- The radio takes no step of its own once its power is off, nor after it came back (R162, R169). -/
theorem radioTurn_cycledBy {s : State} (a : RadioAct) (hcfg : s.sq.cmd.isCfg = true) {n : Nat} (h : s.radio.cycledBy n) :
    (radioTurn a s).cycledBy n := by
  obtain hn | hn | hn : n ≤ 4 ∨ (n = 5 ∨ n = 6) ∨ 7 ≤ n := by omega
  · exact Radio.cycledBy_of_le_four hn
  · rwa [radioTurn_unpowered a s (h.1 hn)]
  · rwa [radioTurn_clean a s (h.2 hn).1 (State.unconfiguredTx_eq_false (.inl (isTx_of_isCfg hcfg)))]

theorem mem_lastRows {n : Nat} {is : List Instr} {r : Row} (h : r ∈ lastRows n is) : ∃ i ∈ is, r.act = .run i := by
  induction is generalizing n with
  | nil => cases h
  | cons i is ih =>
    obtain rfl | hr := List.mem_cons.1 h
    · exact ⟨i, List.mem_cons_self, rfl⟩
    · obtain ⟨j, hj, ha⟩ := ih hr
      exact ⟨j, List.mem_cons_of_mem i hj, ha⟩

/-- From step 8 on a `CFG` runs its profile's writes (R103, R104). -/
theorem rowAt_profileWrites {sel : ProfileSel} {n : Nat} {r : Row} (h : rowAt (cfgCmd sel) (8 + n) = some r) :
    ∃ i ∈ profileWrites sel, r.act = .run i := by
  rw [rowAt, ← List.getElem?_drop, program_profileWrites] at h
  exact mem_lastRows (List.mem_of_getElem? h)

/-- A profile's writes, done in `Disabled`, keep the radio clean and its shortcut set. -/
theorem State.written_clean {s : State} {i : Instr} (h : s.radio.clean ∧ s.radio.regs.shorts = []) :
    (s.written [i]).radio.clean ∧ (s.written [i]).radio.regs.shorts = [] := by
  obtain ⟨hclean, hshorts⟩ := h
  refine ⟨hclean, Eq.trans ?_ hshorts⟩
  cases i <;> rfl

/-- A row's instruction takes the radio one step on: rows 4 and 6 write `POWER`, rows 5 and 7 wait, and the profile's writes find the radio
clean (R101 to R104, R169). -/
theorem cfg_row_cycles {s v : State} {sel : ProfileSel} {n : Nat} {r : Row} {i : Instr} (hwf : s.cfg.wf = true)
    (hr : rowAt (cfgCmd sel) n = some r) (ha : r.act = .run i) (he : exec i s = .next v) (h : s.radio.cycledBy n) :
    v.radio.cycledBy (n + 1) := by
  obtain ⟨row4, row5, row6, row7⟩ := rowAt_powerCycle sel
  obtain ⟨hoff, hclean⟩ := h
  match n with
  | 0 | 1 | 2 | 3 => exact Radio.cycledBy_of_le_four (by omega)
  | 4 =>
    cases row4.symm.trans hr; cases ha; cases he
    exact ⟨fun _ => rfl, by omega⟩
  | 5 =>
    cases row5.symm.trans hr; cases ha; cases he
    exact ⟨fun _ => hoff (.inl rfl), by omega⟩
  | 6 =>
    cases row6.symm.trans hr; cases ha
    cases (congrArg Host.Outcome.next (powerOn_of_unpowered (hoff (.inr rfl)))).symm.trans he
    exact Radio.cycledBy_of_clean (Nat.le_refl 7) ⟨⟨rfl, rfl, rfl, rfl, rfl⟩, rfl⟩
  | 7 =>
    cases row7.symm.trans hr; cases ha; cases he
    exact Radio.cycledBy_of_clean (by omega) (hclean (Nat.le_refl 7))
  | n + 8 =>
    rw [Nat.add_comm n 8] at hr
    obtain ⟨j, hj, haj⟩ := rowAt_profileWrites hr
    cases ha.symm.trans haj
    have hstands := hclean (by omega)
    cases (exec_profileWrite hj hwf hstands.1.1).symm.trans he
    exact Radio.cycledBy_of_clean (by omega) (State.written_clean hstands)

/-- A `CFG` passes over no row from the power cycle on. -/
def targetInCycle (n : Nat) : Target → Bool
  | .step m => decide (m ≤ 4 ∨ m = n + 1)
  | .done => true

theorem program_rows_cycle (sel : ProfileSel) :
    ((List.range 19).all fun n => (rowAt (cfgCmd sel) n).all fun r => r.next.targets.all (targetInCycle n)) = true := by
  cases sel <;> rfl

theorem target_inCycle {c : Cmd} {n : Nat} {r : Row} {k : Target} (hcfg : c.isCfg = true) (hr : rowAt c n = some r)
    (hk : k ∈ r.next.targets) : targetInCycle n k = true := by
  obtain ⟨sel, rfl⟩ := eq_cfgCmd_of_isCfg hcfg
  exact List.all_eq_true.1
    (rowAt_of_all (P := fun n r => r.next.targets.all (targetInCycle n)) (program_rows_cycle sel) hr) k hk

/-- The one poll of a `CFG` is in the `DIS` before the power cycle (R102). -/
theorem cfg_poll_row_le_four {c : Cmd} {n : Nat} {r : Row} {yes no : Target} (hcfg : c.isCfg = true) (hr : rowAt c n = some r)
    (hn : r.next = .ifSet yes no) : n ≤ 4 := by
  obtain ⟨-, rfl, -⟩ := everyWaitIsAcknowledged c n r yes no hr hn
  have hk := of_decide_eq_true (target_inCycle (k := .step n) hcfg hr (by simp [hn, Next.targets]))
  omega

/-- The rest of a sequencer step: on to the next row, or to one before the power cycle, or a poll missed there. -/
theorem advance_cfgPowerAt {v : State} {r : Row} (hr : rowAt v.sq.cmd v.sq.step = some r)
    (h : v.sq.cmd.isCfg = true → v.radio.cycledBy (v.sq.step + 1)) : (advance v).cfgPowerAt := by
  rw [advance_eq_target hr]
  cases hk : r.next.target v with
  | none =>
    obtain ⟨yes, no, hn⟩ := Next.poll_of_target_none hk
    change (pollMissed v.seqMoved).cfgPowerAt
    obtain ⟨-, he⟩ | ⟨-, he⟩ | ⟨n, -, -, he⟩ := pollMissed_cases v.seqMoved <;> rw [he]
    · exact (State.cfgPowerAt_iff _).2 fun _ hcfg => Radio.cycledBy_of_le_four (cfg_poll_row_le_four hcfg hr hn)
    · exact State.cfgPowerAt_of_idle rfl
    · exact (State.cfgPowerAt_iff _).2 fun _ hcfg => Radio.cycledBy_of_le_four (cfg_poll_row_le_four hcfg hr hn)
  | some k =>
    cases k with
    | done => exact State.cfgPowerAt_of_idle rfl
    | step m =>
      refine (State.cfgPowerAt_iff _).2 fun _ hcfg => ?_
      change v.sq.cmd.isCfg = true at hcfg
      change v.radio.cycledBy m
      obtain hle | rfl := of_decide_eq_true (target_inCycle hcfg hr (Next.target_mem hk))
      · exact Radio.cycledBy_of_le_four hle
      · exact h hcfg

theorem takeTurn_other_cfgPowerAt {s t : State} (h : takeTurn s = .other t) (hs : s.cfgPowerAt) : t.cfgPowerAt := by
  obtain ⟨a, ts, -, rfl⟩ | ⟨host, ts, -, rfl, -, -⟩ | ⟨ts, -, rfl⟩ := takeTurn_other h
  · exact (State.cfgPowerAt_iff _).2 fun hb hcfg =>
      radioTurn_cycledBy (s := s) a hcfg (s.cfgPowerAt_iff.1 hs hb hcfg)
  · exact hs
  · exact State.cfgPowerAt_of_idle rfl

theorem lengthCheck_cfgPowerAt (s : State) : (lengthCheck s).cfgPowerAt := by
  unfold lengthCheck
  split
  · exact State.cfgPowerAt_of_idle rfl
  · exact (State.cfgPowerAt_iff _).2 fun _ _ => Radio.cycledBy_of_le_four (Nat.le_add_left 1 3)

/-- What a row's instruction leaves, by the step of the row. -/
theorem run_row_cycledBy {s v : State} {r : Row} {i : Instr} (h : s.Inv) (hs : s.cfgPowerAt) (hb : s.sq.busy = true)
    (hcfg : s.sq.cmd.isCfg = true) (hr : rowAt s.sq.cmd s.sq.step = some r) (ha : r.act = .run i) (he : exec i s = .next v) :
    v.radio.cycledBy (s.sq.step + 1) := by
  have hcycled := s.cfgPowerAt_iff.1 hs hb hcfg
  obtain ⟨sel, hsel⟩ := eq_cfgCmd_of_isCfg hcfg
  exact cfg_row_cycles h.1 (hsel ▸ hr) ha he hcycled

theorem step_cfgPowerAt {s t : State} (h : s.Inv) (hs : s.cfgPowerAt) (hst : step s = .next t) : t.cfgPowerAt := by
  obtain ho | ⟨u, hu, hcase⟩ := step_cases hst
  · exact takeTurn_other_cfgPowerAt ho hs
  · have huinv := takeTurn_sequencer_inv h hu
    have hus : u.cfgPowerAt := by rw [(takeTurn_sequencer hu).1]; exact hs
    obtain ⟨-, -, rfl⟩ | ⟨o, e, -, -, -, rfl⟩ | ⟨o, i, hb, -, hd, he⟩ | ⟨r, -, hr, ha, rfl⟩ |
      ⟨r, i, v, hb, hr, ha, he, rfl⟩ := hcase
    · exact hus
    · exact State.cfgPowerAt_of_idle rfl
    · obtain ⟨c, l, len, host, -, hx⟩ := exec_command_accepts (decodeCommand_isCommand hd) hb
      cases hx.symm.trans he
      exact (State.cfgPowerAt_iff _).2 fun _ _ => Radio.cycledBy_of_le_four (Nat.zero_le 4)
    · exact lengthCheck_cfgPowerAt u
    · obtain ⟨⟨-, hq, -⟩, -⟩ := exec_micro_keeps (row_not_mover hr ha) he
      refine advance_cfgPowerAt (by rwa [hq]) fun hcfg => ?_
      rw [hq] at hcfg ⊢
      exact run_row_cycledBy huinv hus hb hcfg hr ha he

/-- A `CFG` ends at step 15, with unbounded waits and the reset input apart, and reports `OK` (R102, R180). -/
theorem cfg_ends_ok {s t : State} (h : s.Inv) (hn : ¬ s.resetNext) (hb : s.sq.busy = true) (hcfg : s.sq.cmd.isCfg = true)
    (hst : step s = .next t) (hdone : t.sq.busy = false) (hbound : s.cfg.waitBound = none) :
    s.sq.step = 15 ∧ t.sq.result = .ok := by
  obtain ⟨⟨hidle, -⟩, -⟩ | hm := step_moves h hn hst
  · simp [hb] at hidle
  · cases hm with
    | silent _ _ hbusy => simp [(hbusy hb).1] at hdone
    | oversize _ htx => simp [isTx_of_isCfg hcfg] at htx
    | timedOut _ hbounded => exact absurd hbound hbounded
    | completed _ _ hstep _ hres =>
      refine ⟨hstep hcfg, hres.trans ?_⟩
      obtain ⟨sel, hsel⟩ := eq_cfgCmd_of_isCfg hcfg
      rw [hsel]
      cases sel <;> rfl

/-- The step that ends a command is none but the sequencer's. -/
theorem not_takeTurn_other_of_ends {s t : State} (hn : ¬ s.resetNext) (hb : s.sq.busy = true) (hdone : t.sq.busy = false) :
    takeTurn s ≠ .other t := by
  intro ho
  rw [(takeTurn_other_keeps_of_not_reset ho hn).1, hb] at hdone
  cases hdone

/-- The step that ends a `CFG` leaves the radio as its last row found it, clean. -/
theorem cfg_ends_clean {s t : State} (h : s.Inv) (hs : s.cfgPowerAt) (hn : ¬ s.resetNext) (hb : s.sq.busy = true)
    (hcfg : s.sq.cmd.isCfg = true) (hst : step s = .next t) (hdone : t.sq.busy = false) (hstep : s.sq.step = 15) :
    t.radio.clean ∧ t.radio.regs.shorts = [] := by
  obtain ho | ⟨u, r, hu, hr, hcase⟩ := step_cases_of_busy hb hst
  · exact absurd ho (not_takeTurn_other_of_ends hn hb hdone)
  · have huinv := takeTurn_sequencer_inv h hu
    have hus : u.cfgPowerAt := by rw [(takeTurn_sequencer hu).1]; exact hs
    have hsq := (takeTurn_sequencer_keeps hu).2.2
    rw [← hsq] at hb hcfg hstep
    obtain ⟨ha, -⟩ | ⟨i, v, ha, he, rfl⟩ := hcase
    · have htx := (lengthCheck_row hr ha).1
      simp [isTx_of_isCfg hcfg] at htx
    · rw [advance_radio]
      exact (run_row_cycledBy huinv hus hb hcfg hr ha he).2 (by omega)

/-- Settles O47: `step_cfgPowerAt`; the ending step is the last row's, by `cfg_ends_ok`. -/
theorem cfgEstablishesCleanEntry : Obligations.CfgEstablishesCleanEntry := by
  refine ⟨fun s t h hs hst => step_cfgPowerAt h hs hst, fun s t h hs hn hb hcfg hst hdone hbound => ?ends⟩
  case ends =>
    obtain ⟨hstep, hok⟩ := cfg_ends_ok h hn hb hcfg hst hdone hbound
    exact ⟨hok, cfg_ends_clean h hs hn hb hcfg hst hdone hstep⟩

/-! ### O48: the radio along a `TXP` -/

/-- The radio at step `n` of a genuine `TXP`: in the state and with the latches of its table, owing nothing, powered, in a run that keeps to
the spec, and without shortcuts once they are written (R122, R163 to R166). -/
def Radio.genuineAt (n : Nat) (r : Radio) : Prop :=
  txpRadioAt n r ∧ r.pending = [] ∧ r.powered = true ∧ r.strayed = false ∧ (8 ≤ n → r.regs.shorts = [])

theorem State.genuineTxp_iff (s : State) :
    s.genuineTxp ↔ s.sq.busy = true ∧ s.sq.cmd = .txp ∧ s.sq.profile ≠ .none ∧ s.radio.genuineAt s.sq.step := Iff.rfl

/-- Before step 9 the radio stands as at clean entry. -/
theorem Radio.genuineAt.clean {r : Radio} {n : Nat} (h : r.genuineAt n) (hn : n ≤ 8) : r.clean := by
  obtain ⟨hstand, hpend, hpow, hstray, -⟩ := h
  have hentry : r.stands .disabled Latches.clear := by
    match n with
    | 0 | 1 | 5 | 6 | 7 | 8 => exact hstand
    | 2 | 3 | 4 => exact hstand.elim
    | n + 9 => omega
  exact ⟨hentry.1, hentry.2, hpend, hpow, hstray⟩

/-- The table's places read the radio's state and latches only. -/
theorem txpRadioAt_congr {n : Nat} {r r' : Radio} (hq : r'.rstate = r.rstate) (hev : r'.ev = r.ev) :
    txpRadioAt n r' ↔ txpRadioAt n r := by
  unfold txpRadioAt
  simp only [Radio.stands, hq, hev]

/-- The steps at which the radio has a completion to come: the three waits. -/
theorem txpRadioAt_cases {n : Nat} {r : Radio} (h : txpRadioAt n r) :
    (r.rstate = .disabled ∨ r.rstate = .txIdle) ∨ (n = 9 ∧ r.stands .txRampUp Latches.clear) ∨
    (n = 13 ∧ r.stands .tx Latches.clear) ∨ (n = 17 ∧ r.stands .txDisable Latches.clear) := by
  match n with
  | 0 | 1 | 5 | 6 | 7 | 8 | 18 => exact .inl (.inl h.1)
  | 10 | 11 | 12 | 14 | 15 | 16 => exact .inl (.inr h.1)
  | 9 => exact h.elim (fun h => .inr (.inl ⟨rfl, h⟩)) (fun h => .inl (.inr h.1))
  | 13 => exact h.elim (fun h => .inr (.inr (.inl ⟨rfl, h⟩))) (fun h => .inl (.inr h.1))
  | 17 => exact h.elim (fun h => .inr (.inr (.inr ⟨rfl, h⟩))) (fun h => .inl (.inl h.1))
  | 2 | 3 | 4 => exact h.elim
  | n + 19 => exact h.elim

/-- A reaction that touches no register takes a genuine radio to any step whose place it stands in. -/
theorem Radio.genuineAt.reacts {r : Radio} {n m : Nat} (h : r.genuineAt n) (hm : 8 ≤ m → 8 ≤ n) {q : RState} {l : Latches}
    {air : List (Nat × Byte)} (hstand : txpRadioAt m { r with rstate := q, ev := l, air := air }) :
    ({ r with rstate := q, ev := l, air := air } : Radio).genuineAt m := by
  obtain ⟨-, hpend, hpow, hstray, hshorts⟩ := h
  exact ⟨hstand, hpend, hpow, hstray, fun h8 => hshorts (hm h8)⟩

/-- The radio's own turn is a genuine event, or nothing that the table tells apart (R163, R165, R166). -/
theorem radioTurn_genuineAt {s : State} (a : RadioAct) {n : Nat} (hu : s.unconfiguredTx = false) (h : s.radio.genuineAt n) :
    (radioTurn a s).genuineAt n := by
  obtain hn | hn := Nat.lt_or_ge n 9
  · rwa [radioTurn_clean a s (h.clean (Nat.le_of_lt_succ hn)) hu]
  · have ⟨hstand, hpend, hpow, hstray, hshorts⟩ := h
    have hcases := txpRadioAt_cases hstand
    obtain he | ⟨x, he⟩ | ⟨hq, he⟩ | ⟨hq, he⟩ | ⟨hq | hq, he⟩ | ⟨hq, he⟩ | ⟨hq, he⟩ :=
      radioTurn_noShorts a s hpend hstray hu hpow (hshorts (by omega)) <;> rw [he]
    · exact h
    · exact h.reacts id ((txpRadioAt_congr rfl rfl).2 hstand)
    · obtain ⟨rfl, hev⟩ : n = 9 ∧ s.radio.ev = Latches.clear := by simpa [hq, Radio.stands] using hcases
      exact h.reacts id (.inr ⟨rfl, hev ▸ rfl⟩)
    · obtain ⟨rfl, hev⟩ : n = 13 ∧ s.radio.ev = Latches.clear := by simpa [hq, Radio.stands] using hcases
      exact h.reacts id (.inr ⟨rfl, hev ▸ rfl⟩)
    · obtain ⟨rfl, hev⟩ : n = 17 ∧ s.radio.ev = Latches.clear := by simpa [hq, Radio.stands] using hcases
      exact h.reacts id (.inr ⟨rfl, hev ▸ rfl⟩)
    · simp [hq, Radio.stands] at hcases -- no place of the table is a receiver state
    · simp [hq, Radio.stands] at hcases
    · simp [hq, Radio.stands] at hcases

/-- The radio as a `TXP` has it at a target of row `n`: at the step it goes on to, at its own while a poll waits, or clean when the last
row is done. -/
def Radio.genuineToward (n : Nat) (r : Radio) : Option Target → Prop
  | none => r.genuineAt n
  | some (.step m) => r.genuineAt m
  | some .done => r.clean ∧ n = 18

theorem Next.target_evRead (e : PortEvent) (s : State) (yes no : Target) :
    (Next.ifSet yes no).target (evRead e s) = if s.radio.ev.get e then some yes else none := by
  simp only [Next.target, evRead, State.withPort_portVal, ReadVal.latch.injEq]

theorem Next.target_readState (s : State) (yes no : Target) :
    (Next.ifDisabled yes no).target (readState s) = some (if s.radio.rstate = .disabled then yes else no) := by
  simp only [Next.target, readState, State.withPort_portVal, ReadVal.state.injEq]

/-- A wait: the radio still has its completion to come, and the poll stays; or it has set the latch, and the poll goes on (R86). -/
theorem txp_poll_genuine {s : State} {n : Nat} {e : PortEvent} {q q' : RState} {no : Target} (h : s.radio.genuineAt n)
    (hstand : s.radio.stands q Latches.clear ∨ s.radio.stands q' (Latches.only e))
    (hnext : s.radio.stands q' (Latches.only e) → s.radio.genuineAt (n + 1)) :
    s.radio.genuineToward n ((Next.ifSet (.step (n + 1)) no).target (evRead e s)) := by
  rw [Next.target_evRead]
  obtain ⟨-, hev⟩ | hset := hstand
  · have hmiss : s.radio.ev.get e = false := by rw [hev]; cases e <;> rfl
    rw [hmiss]
    exact h
  · have hhit : s.radio.ev.get e = true := by rw [hset.2]; exact Latches.get_put_same _ e true
    rw [hhit]
    exact hnext hset

/-- The acknowledgement clears the one latch that was set (R84, R124). -/
theorem evClear_stands {s : State} {e : PortEvent} {q : RState} (h : s.radio.stands q (Latches.only e)) :
    (evClear e s).radio.stands q Latches.clear := by
  obtain ⟨hq, hev⟩ := h
  refine ⟨hq, ?_⟩
  rw [evClear, State.withRadio_radio, hev]
  cases e <;> rfl

/-- A row's instruction leaves the radio as the table has it where the row leads (R122, R162, R164, R166). -/
theorem txp_row_genuine {s v : State} {n : Nat} {r : Row} {i : Instr} (hu : s.unconfiguredTx = false)
    (hr : rowAt .txp n = some r) (ha : r.act = .run i) (he : exec i s = .next v) (h : s.radio.genuineAt n) :
    v.radio.genuineToward n (r.next.target v) := by
  have ⟨hstand, hpend, hpow, hstray, _⟩ := h
  match n with
  | 0 => cases hr; cases ha
  | 1 =>
    cases hr; cases ha; cases he
    rw [Next.target_readState, if_pos hstand.1]
    exact h.reacts (by omega) hstand
  | 2 | 3 | 4 => exact hstand.elim
  | 5 =>
    cases hr; cases ha
    obtain ⟨m, -, rfl⟩ := execFrame_next he
    exact h.reacts (by omega) hstand
  | 6 =>
    cases hr; cases ha; cases he
    exact ⟨hstand, hpend, hpow, hstray, by omega⟩
  | 7 =>
    cases hr; cases ha; cases he
    exact ⟨hstand, hpend, hpow, hstray, fun _ => rfl⟩
  | 8 =>
    cases hr; cases ha
    cases (exec_trigger_of_configured (t := .txen) hu (Radio.react_txen hpow hstand.1 false s.tick)).symm.trans he
    exact h.reacts (by omega) (.inl ⟨rfl, hstand.2⟩)
  | 9 | 13 | 17 =>
    cases hr; cases ha; cases he
    exact txp_poll_genuine h hstand fun hset => h.reacts (by omega) hset
  | 10 =>
    cases hr; cases ha; cases he
    change Radio.genuineToward 10 _ (some (if s.sq.hold then .step 11 else .step 12))
    cases s.sq.hold <;> exact h.reacts (by omega) (evClear_stands hstand)
  | 11 =>
    cases hr; cases ha; cases he
    exact h.reacts (by omega) hstand
  | 12 =>
    cases hr; cases ha
    cases (exec_trigger_of_configured (t := .start) hu (Radio.react_start hpow hstand.1 false s.tick)).symm.trans he
    exact h.reacts (by omega) (.inl ⟨rfl, hstand.2⟩)
  | 14 =>
    cases hr; cases ha; cases he
    exact h.reacts (by omega) (evClear_stands hstand)
  | 15 =>
    cases hr; cases ha; cases he
    have hon : s.radio.rstate ≠ .disabled := by rw [hstand.1]; nofun
    rw [Next.target_readState, if_neg hon]
    exact h.reacts (by omega) hstand
  | 16 =>
    cases hr; cases ha
    have hon : s.radio.rstate ≠ .disabled := by rw [hstand.1]; nofun
    cases (exec_trigger_of_configured (t := .disable) hu (Radio.react_disable hpow hon false s.tick)).symm.trans he
    exact h.reacts (by omega) (.inl ⟨hstand.1 ▸ rfl, hstand.2⟩)
  | 18 =>
    cases hr; cases ha; cases he
    obtain ⟨hq, hev⟩ := evClear_stands hstand
    exact ⟨⟨hq, hev, hpend, hpow, hstray⟩, rfl⟩
  | n + 19 => exact hstand.elim

/-- What a step of a genuine `TXP` may leave, taken at step `n`: the command goes on, genuine, or it has ended with clean entry again. -/
def State.txpStepped (n : Nat) (t : State) : Prop :=
  (t.sq.busy = true → t.genuineTxp) ∧
  (t.sq.busy = false → t.radio.clean ∧ ((t.sq.result = .ok ∧ n = 18) ∨ (t.sq.result = .rejectedOversize ∧ n = 0)))

theorem State.genuineTxp.stepped {t : State} (n : Nat) (h : t.genuineTxp) : t.txpStepped n :=
  ⟨fun _ => h, fun hidle => by simp [h.1] at hidle⟩

/-- A genuine `TXP` reads the sequencer and the radio only. -/
theorem State.genuineTxp.congr {s t : State} (h : s.genuineTxp) (hq : t.sq = s.sq) (hr : t.radio.genuineAt s.sq.step) :
    t.genuineTxp := by
  obtain ⟨hb, hc, hp, -⟩ := s.genuineTxp_iff.1 h
  rw [State.genuineTxp_iff, hq]
  exact ⟨hb, hc, hp, hr⟩

theorem State.genuineTxp.configured {s : State} (h : s.genuineTxp) : s.unconfiguredTx = false := by
  obtain ⟨-, -, hp, -⟩ := h
  exact State.unconfiguredTx_eq_false (.inr hp)

/-- The rest of a sequencer step, waits being unbounded. -/
theorem advance_txpStepped {v : State} {r : Row} (hb : v.sq.busy = true) (hc : v.sq.cmd = .txp) (hp : v.sq.profile ≠ .none)
    (hbound : v.cfg.waitBound = none) (hr : rowAt v.sq.cmd v.sq.step = some r)
    (h : v.radio.genuineToward v.sq.step (r.next.target v)) : (advance v).txpStepped v.sq.step := by
  rw [advance_eq_target hr]
  cases hk : r.next.target v with
  | none =>
    rw [hk] at h
    change (pollMissed v.seqMoved).txpStepped _
    rw [pollMissed_of_unbounded (s := v.seqMoved) hbound]
    exact State.genuineTxp.stepped _ ⟨hb, hc, hp, h⟩
  | some k =>
    rw [hk] at h
    cases k with
    | step m => exact State.genuineTxp.stepped (t := goToStep m v.seqMoved) _ ⟨hb, hc, hp, h⟩
    | done =>
      obtain ⟨hclean, hlast⟩ := h
      exact ⟨nofun, fun _ => ⟨hclean, .inl ⟨congrArg outcomeOf hc, hlast⟩⟩⟩

/-- The length check ends the command or leads to step 1; the radio is clean either way (R121). -/
theorem lengthCheck_txpStepped {s : State} (h : s.genuineTxp) (h0 : s.sq.step = 0) : (lengthCheck s).txpStepped 0 := by
  obtain ⟨hb, hc, hp, hr⟩ := s.genuineTxp_iff.1 h
  rw [h0] at hr
  obtain hlen | hlen := Nat.lt_or_ge s.sq.len.toNat (s.cfg.maxPacketLen - 1)
  · rw [lengthCheck_of_fits hlen]
    exact State.genuineTxp.stepped (t := goToStep 1 s) _ ⟨hb, hc, hp, hr.reacts (m := 1) (by omega) hr.1⟩
  · rw [lengthCheck_of_oversize hlen]
    exact ⟨nofun, fun _ => ⟨hr.clean (Nat.zero_le 8), .inr ⟨rfl, rfl⟩⟩⟩

theorem takeTurn_other_genuineTxp {s t : State} (h : s.genuineTxp) (hn : ¬ s.resetNext) (ho : takeTurn s = .other t) :
    t.genuineTxp := by
  have ⟨_, _, _, hr⟩ := s.genuineTxp_iff.1 h
  obtain ⟨a, ts, -, rfl⟩ | ⟨host, ts, -, rfl, -, -⟩ | ⟨ts, hts, -⟩ := takeTurn_other ho
  · exact h.congr rfl (radioTurn_genuineAt a h.configured hr)
  · exact h
  · exact absurd ⟨ts, hts⟩ hn

theorem step_txpStepped {s t : State} (hbound : s.cfg.waitBound = none) (h : s.genuineTxp) (hn : ¬ s.resetNext)
    (hst : step s = .next t) : t.txpStepped s.sq.step := by
  obtain ho | ⟨u, r, hu, hr, hcase⟩ := step_cases_of_busy h.1 hst
  · exact (takeTurn_other_genuineTxp h hn ho).stepped _
  · have hug : u.genuineTxp := by rw [(takeTurn_sequencer hu).1]; exact h
    obtain ⟨hcfg, -, hsq⟩ := takeTurn_sequencer_keeps hu
    rw [← hcfg] at hbound
    rw [← hsq]
    obtain ⟨hb, hc, hp, hradio⟩ := u.genuineTxp_iff.1 hug
    obtain ⟨ha, rfl⟩ | ⟨i, v, ha, he, rfl⟩ := hcase
    · have h0 := (lengthCheck_row hr ha).2
      rw [h0]
      exact lengthCheck_txpStepped hug h0
    · obtain ⟨⟨hvc, hvq, -⟩, -⟩ := exec_micro_keeps (row_not_mover hr ha) he
      have htoward := txp_row_genuine hug.configured (hc ▸ hr) ha he hradio
      rw [← hvq] at hb hc hp hr htoward ⊢
      exact advance_txpStepped hb hc hp (hvc ▸ hbound) hr htoward

/-- Accepted at clean entry a `TXP` stands at step 0 with the radio as it was (R60, R212). -/
theorem acceptTx_genuineTxp {s : State} (h : Bool) (len : Half) (hclean : s.radio.clean) (hb : s.sq.busy = false)
    (hp : s.sq.profile ≠ .none) : (acceptTx .txp h len s).genuineTxp := by
  obtain ⟨hq, hev, hpend, hpow, hstray⟩ := hclean
  rw [acceptTx_of_idle .txp h len hb]
  exact ⟨rfl, rfl, hp, ⟨hq, hev⟩, hpend, hpow, hstray, nofun⟩

/-- Settles O48: acceptance, and `step_txpStepped` for every step after it; of the invariant nothing is needed. -/
theorem txpKeepsCleanEntry : Obligations.TxpKeepsCleanEntry := by
  refine ⟨fun s h len t hclean hb hp he => ?accepted, fun s t _ hbound h hn hst => step_txpStepped hbound h hn hst⟩
  case accepted =>
    cases he
    exact acceptTx_genuineTxp h len hclean hb hp

end Sys2Proof.Machine
end
